-- ==== Sys2Proof/Word.lean ====
section
/-! DEFINITION. The word types of the zippy CORE (spec/00_scope.md R7, spec/10_state.md R20): a byte of the output
stream, a 32-bit host word, the bit pattern of a binary64 value, a host register index and the 3-bit codes of `PHASE`
and `SEQ`. -/

namespace Sys2Proof

/-- One byte of the output stream, `BYTE_ACC` or `BIT` (R20, R62). -/
abbrev Byte := BitVec 8

/-- A host register word or a command word: `REG_W = CMD_W = 32` (R7). -/
abbrev Word32 := BitVec 32

/-- A binary64 value as its 64-bit pattern: the pattern is what the host reads (R43) and what the rules fix (R100). -/
abbrev F64 := BitVec 64

/-- `SIZE`, `X` and `Y`: `SIZE_W = 16` (R7). -/
abbrev Dim := BitVec 16

/-- A host register index, `0..15` (R37, R61). -/
abbrev RegIndex := BitVec 4

/-- A 3-bit code held by `PHASE` or `SEQ` (R31, R32). -/
abbrev Code3 := BitVec 3

end Sys2Proof
end

