-- ==== Sys2Proof/Config.lean ====
section
/-! DEFINITION. What this hardware fixes: the named constants of spec/00_scope.md R6 and spec/40_evaluator.md R101, the
codes of `PHASE` (spec/10_state.md R31) and `SEQ` (spec/30_encoding.md R88), the `NUMERICS` record of R100, and the free
values: constants without a body for the values the spec does not state. -/

namespace Sys2Proof

/-! ### Phase codes (R31) -/

/-- `IDLE`: no run since reset. -/
@[simp] abbrev Phase.idle : Code3 := 0
/-- `RUN`: a run is active and proceeds by itself. -/
@[simp] abbrev Phase.run : Code3 := 1
/-- `HALT`: a run is active and proceeds one micro-step per `STEP`. -/
@[simp] abbrev Phase.halt : Code3 := 2
/-- `DONE`: the last run completed. -/
@[simp] abbrev Phase.done : Code3 := 3
/-- `ERROR`: the last start was refused because `SIZE = 0`. -/
@[simp] abbrev Phase.error : Code3 := 4

/-! ### Micro-step codes (R32, R88) -/

@[simp] abbrev Seq.hdr : Code3 := 0
@[simp] abbrev Seq.map : Code3 := 1
@[simp] abbrev Seq.iterate : Code3 := 2
@[simp] abbrev Seq.push : Code3 := 3
@[simp] abbrev Seq.rowend : Code3 := 4

namespace Config

/-! ### The constants the source fixes (R6, R101). The literals are unaudited (D25, log 14), their
patterns the standard ones (log 15); each has one name here. -/

/-- `MAX_ITER`: iterations per pixel. -/
@[simp] abbrev maxIter : Nat := 50
/-- `SPAN`: the multiplier of `x` and `y` in the map. -/
@[simp] abbrev span : Nat := 2
/-- `RE_OFF` = 1.5. -/
@[simp] abbrev reOff : F64 := 0x3FF8000000000000
/-- `IM_OFF` = 1.0. -/
@[simp] abbrev imOff : F64 := 0x3FF0000000000000
/-- `ESC_R2` = 4.0. -/
@[simp] abbrev escR2 : F64 := 0x4010000000000000
/-- `ZERO` = +0.0. -/
@[simp] abbrev zero : F64 := 0
/-- `BIT_INIT`: bit position 7 set. -/
@[simp] abbrev bitInit : Byte := 128
/-- `ACC_INIT`. -/
@[simp] abbrev accInit : Byte := 0
/-- `HDR_TAG`: the characters `P4`, as ASCII codes (R131). -/
@[simp] abbrev hdrTag : List Byte := [0x50, 0x34]
/-- The newline of the header (R131). -/
@[simp] abbrev newline : Byte := 0x0A
/-- The space between the two dimensions (R131). -/
@[simp] abbrev space : Byte := 0x20
/-- The digit `0`; digit `v` is this plus `v` (R132). -/
@[simp] abbrev digitZero : Byte := 0x30

/-! ### Free values. Nothing constrains them: a claim holds whatever they are. -/

/-- The operations whose NaN result the spec leaves open. -/
inductive FloatOp
  | add
  | sub
  | mul
  | div
  deriving DecidableEq, Repr

/-- FREE VALUE (log 6): sign and payload of the quiet NaN an operation returns on these operands. -/
opaque freeNaN : FloatOp → F64 → F64 → F64

/-- FREE VALUE (log 8): what a `w`-bit register holds after it is given the count `n`, when `n` does not fit it. R10
says every count fits, so no run reads this. -/
opaque unfit : (w : Nat) → Nat → BitVec w

/-- FREE VALUE (log 9): `DEC(0)`; R132 gives the decimal text of `1 ≤ n ≤ 65535` only. -/
opaque decOfZero : List Byte

/-- FREE VALUE (log 9): the byte `HDR` emits for a dimension and an index past the header's end; R133 says
`HIDX < len(H)`. -/
opaque freeHeaderByte : Dim → Nat → Byte

end Config

/-- `NUMERICS` (R100): the six operations the evaluator uses. "A model takes `NUMERICS` as a record of these six
operations"; this hardware's instance is `Sys2Proof.Machine.binary64`. -/
structure Numerics where
  /-- `f64_of_nat` -/
  ofNat : Nat → F64
  /-- `f64_add` -/
  add : F64 → F64 → F64
  /-- `f64_sub` -/
  sub : F64 → F64 → F64
  /-- `f64_mul` -/
  mul : F64 → F64 → F64
  /-- `f64_div` -/
  div : F64 → F64 → F64
  /-- `f64_ge` -/
  ge : F64 → F64 → Bool

end Sys2Proof
end

