-- ==== Sys2Proof/Syntax.lean ====
section
/-! DEFINITION. The instructions of spec/opcode_table.json, whole: the seven host commands (spec/30_encoding.md R83) and
the five micro-steps of the sequencer (R88), one constructor per row. -/

namespace Sys2Proof

/-- One constructor per row of the opcode table. The first seven are written to `CMD` by the host; the last five are
performed by the block itself, as `SEQ` names them (R2, R88). -/
inductive Instr
  /-- `NOP` (R193) -/
  | nop
  /-- `SETSIZE n`: the operand is the 16-bit field `IMM` (R82, R194). -/
  | setsize (n : Dim)
  /-- `START` (R195) -/
  | start
  /-- `STARTSTEP` (R196) -/
  | startstep
  /-- `STEP` (R197) -/
  | step
  /-- `PAUSE` (R198) -/
  | pause
  /-- `RESUME` (R199) -/
  | resume
  /-- `HDR` (R133) -/
  | hdr
  /-- `MAP` (R107) -/
  | map
  /-- `ITERATE` (R108) -/
  | iterate
  /-- `PUSH` (R134) -/
  | push
  /-- `ROWEND` (R135) -/
  | rowend
  deriving DecidableEq, Repr

/-- The two places an encoding can stand: a word written to `CMD` (format `C`, R81) or the code in `SEQ` (format `SEQ`,
R88). -/
inductive Space
  | command
  | sequencer
  deriving DecidableEq, Repr

/-- The bits of an encoded instruction, in the space they belong to. -/
inductive Code
  /-- A 32-bit command word (R80). -/
  | command (w : Word32)
  /-- A 3-bit micro-step code (R88). -/
  | sequencer (c : Code3)
  deriving DecidableEq, Repr

end Sys2Proof
end

