-- ==== Sys2Proof/WellFormed.lean ====
section
/-! DEFINITION. Which instruction is well formed where: the host can issue the seven commands only, and the sequencer
performs the five micro-steps only (spec/30_encoding.md R83, R88: micro-steps "are not host-issuable"). The one operand,
`IMM`, is a 16-bit field by its type, so every value of it is in the range R194 gives. -/

namespace Sys2Proof

/-- The space an instruction's encoding belongs to (R83, R88). -/
def Instr.space : Instr → Space
  | .nop => .command
  | .setsize _ => .command
  | .start => .command
  | .startstep => .command
  | .step => .command
  | .pause => .command
  | .resume => .command
  | .hdr => .sequencer
  | .map => .sequencer
  | .iterate => .sequencer
  | .push => .sequencer
  | .rowend => .sequencer

/-- The instruction may stand in the given space: a command word names a command, a `SEQ` code a micro-step. -/
def Instr.wellFormedIn (sp : Space) (i : Instr) : Bool := i.space == sp

/-- The space a code belongs to. -/
def Code.space : Code → Space
  | .command _ => .command
  | .sequencer _ => .sequencer

end Sys2Proof
end

