-- ==== Sys2Proof/Decode.lean ====
section
/-! DEFINITION. The decoder of spec/30_encoding.md (R81 to R86 for command words, R88 for `SEQ` codes), total and
rejecting by name, then the encoder written from the same tables, and `decodeTableWord`, the decoder on the opcode
table's own numbering of bits. -/

namespace Sys2Proof

/-- Why a code names no instruction. The three reasons of R85 for a command word, and the codes `SEQ` never holds. -/
inductive DecodeError
  /-- `RSV ≠ 0` -/
  | reservedBits
  /-- `OP ∈ 0x7..0xF` -/
  | reservedOpcode
  /-- `IMM ≠ 0` on an opcode other than `SETSIZE` -/
  | immediateNotZero
  /-- a `SEQ` code 5..7 (R88) -/
  | reservedSeq
  deriving DecidableEq, Repr

/-- `OP = w[3:0]` (R81). -/
def cmdOp (w : Word32) : BitVec 4 := w.extractLsb' 0 4

/-- `RSV = w[15:4]` (R81). -/
def cmdRsv (w : Word32) : BitVec 12 := w.extractLsb' 4 12

/-- `IMM = w[31:16]` (R81). -/
def cmdImm (w : Word32) : BitVec 16 := w.extractLsb' 16 16

/-- `decode` of R84, its tests in the rule's order. -/
def decodeCommand (w : Word32) : Except DecodeError Instr :=
  if cmdRsv w ≠ 0 then .error .reservedBits
  else if 7 ≤ (cmdOp w).toNat then .error .reservedOpcode
  else if cmdOp w = 1 then .ok (.setsize (cmdImm w))
  else if cmdImm w ≠ 0 then .error .immediateNotZero
  else
    match (cmdOp w).toNat with
    | 0 => .ok .nop
    | 2 => .ok .start
    | 3 => .ok .startstep
    | 4 => .ok .step
    | 5 => .ok .pause
    | 6 => .ok .resume
    | _ => .error .reservedOpcode

/-- The micro-step a `SEQ` code names (R88). -/
def decodeSeq (c : Code3) : Except DecodeError Instr :=
  match c.toNat with
  | 0 => .ok .hdr
  | 1 => .ok .map
  | 2 => .ok .iterate
  | 3 => .ok .push
  | 4 => .ok .rowend
  | _ => .error .reservedSeq

/-- Decoding, in the space the code stands in. No mode changes it (R86). -/
def decode : Code → Except DecodeError Instr
  | .command w => decodeCommand w
  | .sequencer c => decodeSeq c

/-- A command word from its fields, `{IMM, RSV, OP}` with `RSV = 0` (R81, R82). -/
def commandWord (imm : Dim) (op : BitVec 4) : Word32 := imm ++ (0#12 ++ op)

/-- The code of an instruction (R83, R88). -/
def encode : Instr → Code
  | .nop => .command (commandWord 0 0)
  | .setsize n => .command (commandWord n 1)
  | .start => .command (commandWord 0 2)
  | .startstep => .command (commandWord 0 3)
  | .step => .command (commandWord 0 4)
  | .pause => .command (commandWord 0 5)
  | .resume => .command (commandWord 0 6)
  | .hdr => .sequencer Seq.hdr
  | .map => .sequencer Seq.map
  | .iterate => .sequencer Seq.iterate
  | .push => .sequencer Seq.push
  | .rowend => .sequencer Seq.rowend

/-- The code of an opcode-table word: the table gives a command row 32 bits and a micro-step row 3 bits, so a word of at
most 8 bits is a `SEQ` code and a longer one a command word (log 13). -/
def tableCode (nbits w : Nat) : Code :=
  if nbits ≤ 8 then .sequencer (BitVec.ofNat 3 w) else .command (BitVec.ofNat 32 w)

/-- The instruction the decoder reads from an opcode-table word of `nbits` bits. -/
def decodeTableWord (nbits w : Nat) : Option Instr := (decode (tableCode nbits w)).toOption

end Sys2Proof
end

