-- ==== Sys2Proof/Machine/State.lean ====
section
/-! DEFINITION. The state of the machine as plain data: the block's components (spec/10_state.md R20, "exactly this set"),
the output stream and `OUT_READY` around it (spec/42_sequencer.md R163), and the model's own event queue and record of
host reads. `State.reset` gives every field its value right after reset (R51). -/

namespace Sys2Proof.Machine

/-- One event of the system step relation (R163): what the next step of the whole system is. -/
inductive Event
  /-- `HostRead(i)` -/
  | hostRead (i : RegIndex)
  /-- `HostWrite(i, w)` -/
  | hostWrite (i : RegIndex) (w : Word32)
  /-- the block's turn: the micro-step `SEQ` names, if it is enabled -/
  | blockTurn
  /-- the sink sets `OUT_READY` -/
  | sinkReady (r : Bool)
  /-- the input `RESET` -/
  | reset
  deriving DecidableEq, Repr

/-- The system state. The first eighteen fields are the block's (R20), named as there. -/
structure State where
  /-- `SIZE`, the image's width and height (R21). -/
  size : Dim
  /-- `X`, the current column (R22). -/
  x : Dim
  /-- `Y`, the current row (R22). -/
  y : Dim
  /-- `C_RE` (R23). -/
  cRe : F64
  /-- `C_IM` (R23). -/
  cIm : F64
  /-- `Z_RE` (R24). -/
  zRe : F64
  /-- `Z_IM` (R24). -/
  zIm : F64
  /-- `ITER`, iterations completed for the pixel (R25). -/
  iter : BitVec 6
  /-- `M`, the pixel's membership (R26). -/
  m : Bool
  /-- `BYTE_ACC` (R28). -/
  byteAcc : Byte
  /-- `BIT` (R29). -/
  bit : Byte
  /-- `HIDX`, header bytes emitted (R30). -/
  hidx : BitVec 4
  /-- `OUTCNT`, bytes emitted since the last accepted start (R27). -/
  outcnt : BitVec 32
  /-- `PHASE` (R31). -/
  phase : Code3
  /-- `SEQ` (R32). -/
  seq : Code3
  /-- `CERR`, sticky (R33). -/
  cerr : Bool
  /-- `SZERR` (R34). -/
  szerr : Bool
  /-- `SPEND` (R35). -/
  spend : Bool
  /-- `OUT`, the sink's stream, first byte first (R62). -/
  out : List Byte
  /-- `OUT_READY`, driven by the sink (R46). -/
  outReady : Bool
  /-- THE MODEL'S OWN (log 1): the events to come, the next one first. When it is empty the block has every turn. -/
  events : List Event
  /-- THE MODEL'S OWN (log 3): the words host reads have returned, oldest first. -/
  reads : List Word32
  deriving DecidableEq, Repr

/-- Why the machine stops. Both are codes the spec says are never held (R50) and asks a model to report as faults. -/
inductive Fault
  /-- "unreachable SEQ": a micro-step is due while `SEQ` holds a code 5..7 (R164, I7, log 11). Raised by `microStep`. SAFE: the
  hardware never holds such a code. -/
  | unreachableSeq (code : Code3)
  /-- a command or a micro-step meets a `PHASE` code 5..7 (R31, I8, log 10). Raised by `performCommand` and `performMicro`.
  SAFE: the hardware never holds such a code. -/
  | unreachablePhase (code : Code3)
  deriving DecidableEq, Repr

/-- Why an instruction has no meaning. -/
inductive Refusal
  /-- The instruction is not modelled yet; raised by an arm of `exec` only. SAFE. Every arm has its meaning, so nothing
  raises it. -/
  | notModelled (mnemonic : String)
  deriving DecidableEq, Repr

/-- The machine right after reset. The block's fields are R51's; the four fields around the block are the model's choice
(log 4). -/
def State.reset : State where
  size := 0
  x := 0
  y := 0
  cRe := Config.zero
  cIm := Config.zero
  zRe := Config.zero
  zIm := Config.zero
  iter := 0
  m := false
  byteAcc := Config.accInit
  bit := Config.bitInit
  hidx := 0
  outcnt := 0
  phase := Phase.idle
  seq := Seq.hdr
  cerr := false
  szerr := false
  spend := false
  out := []
  outReady := true
  events := []
  reads := []

end Sys2Proof.Machine
end

