-- ==== Sys2Proof/Machine/Flags.lean ====
section
/-! DEFINITION. The flags and codes the rules test and write besides an instruction's own effect: the sticky `CERR`
(spec/60_exceptions.md R231), the `SPEND` bookkeeping of a micro-step (spec/42_sequencer.md R165), the phase tests
(spec/10_state.md R31, spec/42_sequencer.md R160 to R162) and the legality of commands (spec/43_host_commands.md R200). -/

namespace Sys2Proof.Machine

/-- `reject(CERR)` (R231): the outcome of an illegal command. Nothing else changes, and only reset clears the flag. -/
def State.reject (s : State) : State := { s with cerr := true }

/-- R165: every micro-step performed in `HALT` also clears `SPEND`. `before` is the state the micro-step read. -/
def State.endMicro (before after : State) : State :=
  if before.phase = Phase.halt then { after with spend := false } else after

/-- `PHASE` holds one of the five codes of R31. -/
def State.phaseHeld (s : State) : Bool := decide (s.phase.toNat ≤ 4)

/-- `SEQ` holds one of the five codes of R32. -/
def State.seqHeld (s : State) : Bool := decide (s.seq.toNat ≤ 4)

/-- A run is active: `PHASE ∈ {RUN, HALT}` (R31, R160). -/
def State.active (s : State) : Bool := s.phase == Phase.run || s.phase == Phase.halt

/-- `PHASE ∈ {IDLE, DONE, ERROR}`: the phases in which `SETSIZE`, `START` and `STARTSTEP` are legal (R194 to R196). -/
def State.noRun (s : State) : Bool :=
  s.phase == Phase.idle || s.phase == Phase.done || s.phase == Phase.error

/-- The first conjunct of `enabled` (R161): `PHASE = RUN`, or `PHASE = HALT` with a step pending. -/
def State.granted (s : State) : Bool := s.phase == Phase.run || (s.phase == Phase.halt && s.spend)

/-- `emits` (R162): the micro-step `SEQ` names will call `Emit`. -/
def State.emits (s : State) : Bool :=
  s.seq == Seq.hdr || (s.seq == Seq.push && s.bit == 1) || (s.seq == Seq.rowend && s.bit != Config.bitInit)

/-- `enabled` (R161). -/
def State.enabled (s : State) : Bool := s.granted && (!s.emits || s.outReady)

/-- `legal(d)` (R200). A micro-step is no command, so it is not legal as one (R88). -/
def legal (s : State) : Instr → Bool
  | .nop => true
  | .setsize _ => s.noRun
  | .start => s.noRun
  | .startstep => s.noRun
  | .step => s.phase == Phase.halt && !s.spend
  | .pause => s.phase == Phase.run
  | .resume => s.phase == Phase.halt
  | .hdr => false
  | .map => false
  | .iterate => false
  | .push => false
  | .rowend => false

end Sys2Proof.Machine
end

