-- ==== Sys2Proof/Machine/Ops.lean ====
section
/-! DEFINITION. The operations the meanings share: `Emit` (spec/20_memory.md R63), the run's initialisation
(spec/43_host_commands.md R201), the invalid dimension (spec/60_exceptions.md R232), reset (spec/70_reset_and_hazards.md
R260), and the two frames every meaning stands in: a command's phase check (R192) and a micro-step's enabling (R161). The
block has no trap (R234): its two error conditions are `State.refuseSize` and `State.reject`. -/

namespace Sys2Proof.Machine

/-- A count stored in a `w`-bit register. R10 says the count fits; for one that does not the register's value is free
(log 8). -/
def fit (w n : Nat) : BitVec w := if n < 2 ^ w then BitVec.ofNat w n else Config.unfit w n

/-- `Emit(b)` (R63): append to the stream and count, modulo 2^32. -/
def State.emit (s : State) (b : Byte) : State := { s with out := s.out ++ [b], outcnt := s.outcnt + 1 }

/-- `INIT_RUN(p)` (R201). `SIZE` and `CERR` are unchanged, and so is everything outside the block. -/
def State.initRun (s : State) (p : Code3) : State :=
  { s with
    x := 0, y := 0
    cRe := Config.zero, cIm := Config.zero, zRe := Config.zero, zIm := Config.zero
    iter := 0, m := false
    byteAcc := Config.accInit, bit := Config.bitInit
    hidx := 0, outcnt := 0
    seq := Seq.hdr
    spend := false, szerr := false
    phase := p }

/-- The invalid dimension, E1 (R232): the only two writes of a start with `SIZE = 0`. -/
def State.refuseSize (s : State) : State := { s with phase := Phase.error, szerr := true }

/-- What `START` (`p = RUN`) and `STARTSTEP` (`p = HALT`) do where they are legal (R195, R196). -/
def State.beginRun (s : State) (p : Code3) : State := if s.size = 0 then s.refuseSize else s.initRun p

/-- The event `RESET` (R260): every component of the block to its reset value (R51); the stream and `OUT_READY`, and the
model's own two fields, unchanged. -/
def State.applyReset (s : State) : State :=
  { State.reset with out := s.out, outReady := s.outReady, events := s.events, reads := s.reads }

/-- The word a host read returns is handed to the host (R190). -/
def State.recordRead (s : State) (w : Word32) : State := { s with reads := s.reads ++ [w] }

/-- The sink drives `OUT_READY` (R163). -/
def State.setReady (s : State) (r : Bool) : State := { s with outReady := r }

/-- A decoded command: the phase check, then the effect or `reject(CERR)` (R192). A `PHASE` code that is never held is a
fault (I8). -/
def performCommand (i : Instr) (act : State → State) (s : State) : Host.Outcome State Fault Refusal :=
  if s.phaseHeld then
    if legal s i then .next (act s) else .next s.reject
  else .fault (.unreachablePhase s.phase)

/-- The micro-step with the given `SEQ` code. Codes never held are faults (R164, I7, I8). Where the step is not enabled
(R161), or `SEQ` names another one, it is not a possible event and the state holds (R163, R173; log 2, log 12). Where it
is enabled, its effect and R165's bookkeeping take place together. -/
def performMicro (code : Code3) (act : State → State) (s : State) : Host.Outcome State Fault Refusal :=
  if s.phaseHeld then
    if s.granted then
      if s.seqHeld then
        if s.seq = code ∧ s.enabled then .next (s.endMicro (act s)) else .next s
      else .fault (.unreachableSeq s.seq)
    else .next s
  else .fault (.unreachablePhase s.phase)

end Sys2Proof.Machine
end

