-- ==== Sys2Proof/Machine/Commands.lean ====
section
/-! DEFINITION. The seven host commands (spec/43_host_commands.md R193 to R199), each one line over `performCommand`:
where the command is legal (R200) its effect, else `reject(CERR)`. -/

namespace Sys2Proof.Machine

/-- `NOP` (R193): legal in every phase, does nothing. -/
def execNop (s : State) : Host.Outcome State Fault Refusal := performCommand .nop (fun t => t) s

/-- `SETSIZE n` (R194). -/
def execSetsize (n : Dim) (s : State) : Host.Outcome State Fault Refusal :=
  performCommand (.setsize n) (fun t => { t with size := n }) s

/-- `START` (R195). -/
def execStart (s : State) : Host.Outcome State Fault Refusal :=
  performCommand .start (fun t => t.beginRun Phase.run) s

/-- `STARTSTEP` (R196). -/
def execStartstep (s : State) : Host.Outcome State Fault Refusal :=
  performCommand .startstep (fun t => t.beginRun Phase.halt) s

/-- `STEP` (R197). -/
def execStep (s : State) : Host.Outcome State Fault Refusal :=
  performCommand .step (fun t => { t with spend := true }) s

/-- `PAUSE` (R198). -/
def execPause (s : State) : Host.Outcome State Fault Refusal :=
  performCommand .pause (fun t => { t with phase := Phase.halt, spend := false }) s

/-- `RESUME` (R199). -/
def execResume (s : State) : Host.Outcome State Fault Refusal :=
  performCommand .resume (fun t => { t with phase := Phase.run, spend := false }) s

end Sys2Proof.Machine
end

