-- ==== Sys2Proof/Machine/Float.lean ====
section
/-! DEFINITION. IEEE 754 binary64 (spec/40_evaluator.md R100), the instance of `NUMERICS` this hardware runs. A finite
value is an integer number of units of 2^-1074, the smallest positive subnormal, so each operation computes its exact
result as a fraction of units and rounds it once, to nearest, ties to even. The layout is R100's (sign bit 63, exponent
62..52, fraction 51..0). Infinities, NaN and zero divisors follow IEEE 754 (log 7); a NaN result's sign and payload are
free (log 6). -/

namespace Sys2Proof.Machine

/-! ### Parts of a pattern -/

/-- The sign bit, bit 63. -/
def f64Sign (x : F64) : Bool := x.msb

/-- The exponent field, bits 62..52. -/
def f64Exp (x : F64) : Nat := (x.extractLsb' 52 11).toNat

/-- The fraction field, bits 51..0. -/
def f64Frac (x : F64) : Nat := (x.extractLsb' 0 52).toNat

/-- A NaN: all ones in the exponent, a fraction that is not zero. -/
def f64IsNaN (x : F64) : Bool := f64Exp x == 2047 && f64Frac x != 0

/-- An infinity: all ones in the exponent, a zero fraction. -/
def f64IsInf (x : F64) : Bool := f64Exp x == 2047 && f64Frac x == 0

/-- A finite value: a zero, a subnormal or a normal number. -/
def f64IsFinite (x : F64) : Bool := f64Exp x != 2047

/-- The magnitude of a finite value, in units of 2^-1074. -/
def f64Mag (x : F64) : Nat :=
  if f64Exp x = 0 then f64Frac x else (2 ^ 52 + f64Frac x) * 2 ^ (f64Exp x - 1)

/-- A finite value, in units of 2^-1074. -/
def f64Units (x : F64) : Int := if f64Sign x then -(f64Mag x : Int) else (f64Mag x : Int)

/-- How many units make 1.0. -/
def unitScale : Nat := 2 ^ 1074

/-! ### Rounding -/

/-- `n / d` rounded to the nearest integer, ties to the even one. -/
def roundDiv (n d : Nat) : Nat :=
  if 2 * (n % d) > d ∨ (2 * (n % d) = d ∧ n / d % 2 = 1) then n / d + 1 else n / d

/-- The magnitude pattern (bits 62..0) of infinity. -/
def infMag : Nat := 2047 * 2 ^ 52

/-- The exponent `e` such that the binary64 values around a magnitude of `q` whole units are `2^e` units apart. -/
def ulpExp (q : Nat) : Nat := if q < 2 ^ 53 then 0 else Nat.log2 q - 52

/-- The magnitude pattern of the binary64 value nearest to `n / d` units, ties to even; infinity from the overflow
threshold on. In a pattern the fraction's carry runs on into the exponent, so `e * 2^52` plus the rounded count of
`2^e`-unit steps is the pattern for subnormal and normal results alike. -/
def roundMag (n d : Nat) : Nat :=
  min infMag (ulpExp (n / d) * 2 ^ 52 + roundDiv n (d * 2 ^ ulpExp (n / d)))

/-- The pattern with the given sign and magnitude pattern. -/
def f64Pack (sign : Bool) (mag : Nat) : F64 := BitVec.ofNat 64 (if sign then 2 ^ 63 + mag else mag)

/-- The pattern of the signed value `n / d` units, rounded. -/
def roundSigned (sign : Bool) (n d : Nat) : F64 := f64Pack sign (roundMag n d)

/-! ### The operations -/

/-- A quiet NaN whose sign and payload are free. -/
def nanOf (op : Config.FloatOp) (a b : F64) : F64 := Config.freeNaN op a b ||| 0x7FF8000000000000

/-- The value with the other sign. -/
def f64Neg (x : F64) : F64 := x ^^^ 0x8000000000000000

/-- The sum of two values that are not NaN; `nan` is the result for infinities of opposite signs. An exact zero sum is
+0.0 unless both operands are negative zeros (R112, IEEE 754). -/
def f64Sum (nan a b : F64) : F64 :=
  if f64IsInf a then
    if f64IsInf b && f64Sign a != f64Sign b then nan else a
  else if f64IsInf b then b
  else if f64Units a + f64Units b = 0 then f64Pack (f64Sign a && f64Sign b) 0
  else roundSigned (decide (f64Units a + f64Units b < 0)) (f64Units a + f64Units b).natAbs 1

/-- `f64_add`. -/
def f64Add (a b : F64) : F64 :=
  if f64IsNaN a || f64IsNaN b then nanOf .add a b else f64Sum (nanOf .add a b) a b

/-- `f64_sub`. -/
def f64Sub (a b : F64) : F64 :=
  if f64IsNaN a || f64IsNaN b then nanOf .sub a b else f64Sum (nanOf .sub a b) a (f64Neg b)

/-- `f64_mul`. -/
def f64Mul (a b : F64) : F64 :=
  if f64IsNaN a || f64IsNaN b then nanOf .mul a b
  else if f64IsInf a || f64IsInf b then
    if (f64IsFinite a && f64Mag a == 0) || (f64IsFinite b && f64Mag b == 0) then nanOf .mul a b
    else f64Pack (f64Sign a != f64Sign b) infMag
  else roundSigned (f64Sign a != f64Sign b) (f64Mag a * f64Mag b) unitScale

/-- `f64_div`. -/
def f64Div (a b : F64) : F64 :=
  if f64IsNaN a || f64IsNaN b then nanOf .div a b
  else if f64IsInf a then
    if f64IsInf b then nanOf .div a b else f64Pack (f64Sign a != f64Sign b) infMag
  else if f64IsInf b then f64Pack (f64Sign a != f64Sign b) 0
  else if f64Mag b = 0 then
    if f64Mag a = 0 then nanOf .div a b else f64Pack (f64Sign a != f64Sign b) infMag
  else roundSigned (f64Sign a != f64Sign b) (f64Mag a * unitScale) (f64Mag b)

/-- `f64_of_nat`: exact for `n < 2^53` (R100). -/
def f64OfNat (n : Nat) : F64 := roundSigned false (n * unitScale) 1

/-- The place of a value that is not NaN in the order of all values: its magnitude pattern with its sign. Both zeros are
at 0, so they compare equal. -/
def f64Order (x : F64) : Int :=
  if f64Sign x then -((x.extractLsb' 0 63).toNat : Int) else ((x.extractLsb' 0 63).toNat : Int)

/-- `f64_ge`: the ordered comparison, false when an operand is NaN. -/
def f64Ge (a b : F64) : Bool := !f64IsNaN a && !f64IsNaN b && decide (f64Order b ≤ f64Order a)

/-- This hardware's `NUMERICS` (R7, R100). -/
def binary64 : Numerics where
  ofNat := f64OfNat
  add := f64Add
  sub := f64Sub
  mul := f64Mul
  div := f64Div
  ge := f64Ge

end Sys2Proof.Machine
end

