-- ==== Sys2Proof/Machine/Evaluator.lean ====
section
/-! DEFINITION. The escape-time evaluator (spec/40_evaluator.md): the functions `MAPC`, `STEPZ`, `ESCAPED` and the
whole-pixel contract `EVAL` over a `NUMERICS` record, and the micro-steps `MAP` and `ITERATE` at the binary64 instance. -/

namespace Sys2Proof.Machine

/-- `MAPC` (R103): one division, then one subtraction, for each coordinate. -/
def mapC (N : Numerics) (x y size : Nat) : F64 × F64 :=
  (N.sub (N.div (N.ofNat (Config.span * x)) (N.ofNat size)) Config.reOff,
   N.sub (N.div (N.ofNat (Config.span * y)) (N.ofNat size)) Config.imOff)

/-- `STEPZ` (R104): `z·z + c`, each operation rounded, in the rule's order. -/
def stepZ (N : Numerics) (z c : F64 × F64) : F64 × F64 :=
  let rr := N.mul z.1 z.1
  let ii := N.mul z.2 z.2
  let ri := N.mul z.1 z.2
  (N.add (N.sub rr ii) c.1, N.add (N.add ri ri) c.2)

/-- `ESCAPED` (R105): the squared magnitude has reached 4.0. -/
def escaped (N : Numerics) (z : F64 × F64) : Bool :=
  N.ge (N.add (N.mul z.1 z.1) (N.mul z.2 z.2)) Config.escR2

/-- What `EVAL` returns (R106): membership, final iteration count and final `z`. -/
structure PixelResult where
  m : Bool
  k : Nat
  z : F64 × F64
  deriving DecidableEq, Repr

/-- The loop of `EVAL`: `left` iterations may still run, `k` are done, `z` is their result. -/
def evalLoop (N : Numerics) (c : F64 × F64) : (left k : Nat) → (z : F64 × F64) → PixelResult
  | 0, k, z => ⟨true, k, z⟩
  | left + 1, k, z =>
    if escaped N (stepZ N z c) then ⟨false, k + 1, stepZ N z c⟩ else evalLoop N c left (k + 1) (stepZ N z c)

/-- `EVAL` (R106). -/
def evalPixel (N : Numerics) (x y size : Nat) : PixelResult :=
  evalLoop N (mapC N x y size) Config.maxIter 0 (Config.zero, Config.zero)

/-- What `MAP` writes (R107). -/
def mapEffect (N : Numerics) (s : State) : State :=
  { s with
    cRe := (mapC N s.x.toNat s.y.toNat s.size.toNat).1
    cIm := (mapC N s.x.toNat s.y.toNat s.size.toNat).2
    zRe := Config.zero, zIm := Config.zero
    iter := 0
    m := false
    seq := Seq.iterate }

/-- What `ITERATE` writes (R108). The escape test of the new `z` comes before the bound. -/
def iterateEffect (N : Numerics) (s : State) : State :=
  let z := stepZ N (s.zRe, s.zIm) (s.cRe, s.cIm)
  { s with
    zRe := z.1, zIm := z.2
    iter := fit 6 (s.iter.toNat + 1)
    m := if escaped N z then false else if s.iter.toNat + 1 = Config.maxIter then true else s.m
    seq := if escaped N z ∨ s.iter.toNat + 1 = Config.maxIter then Seq.push else Seq.iterate }

/-- `MAP` (R107). -/
def execMap (s : State) : Host.Outcome State Fault Refusal := performMicro Seq.map (mapEffect binary64) s

/-- `ITERATE` (R108). -/
def execIterate (s : State) : Host.Outcome State Fault Refusal :=
  performMicro Seq.iterate (iterateEffect binary64) s

end Sys2Proof.Machine
end

