-- ==== Sys2Proof/Machine/Packer.lean ====
section
/-! DEFINITION. The bit packer and stream writer (spec/41_packer.md): the header's bytes and the micro-steps `HDR`,
`PUSH` and `ROWEND`. -/

namespace Sys2Proof.Machine

/-- The byte of the decimal digit `v` (R132). -/
def digitByte (v : Nat) : Byte := Config.digitZero + BitVec.ofNat 8 v

/-- The decimal digits of `n`, most significant first, no leading zeros, for `n` of at most as many digits as the first
argument. -/
def decDigits : Nat → Nat → List Byte
  | 0, _ => []
  | digits + 1, n => if n < 10 then [digitByte n] else decDigits digits (n / 10) ++ [digitByte (n % 10)]

/-- `DEC(n)` (R132). A dimension has at most five digits; `DEC(0)` is not stated (log 9). -/
def decText (n : Dim) : List Byte := if n = 0 then Config.decOfZero else decDigits 5 n.toNat

/-- `HDR(size)` (R131). -/
def headerBytes (size : Dim) : List Byte :=
  Config.hdrTag ++ [Config.newline] ++ decText size ++ [Config.space] ++ decText size ++ [Config.newline]

/-- `H[HIDX]` (R133); past the header's end the byte is not stated (log 9). -/
def headerByte (size : Dim) (k : Nat) : Byte := (headerBytes size)[k]?.getD (Config.freeHeaderByte size k)

/-- What `HDR` writes (R133). -/
def hdrEffect (s : State) : State :=
  { s.emit (headerByte s.size s.hidx.toNat) with
    hidx := fit 4 (s.hidx.toNat + 1)
    seq := if s.hidx.toNat + 1 = (headerBytes s.size).length then Seq.map else s.seq }

/-- The accumulator with the current pixel's bit in it (R134). -/
def pushedAcc (s : State) : Byte := if s.m then s.byteAcc ||| s.bit else s.byteAcc

/-- The packing half of `PUSH`: flush on the eighth bit, else halve `BIT` (R134, C3). -/
def packBit (s : State) : State :=
  if s.bit = 1 then { s.emit (pushedAcc s) with byteAcc := Config.accInit, bit := Config.bitInit }
  else { s with byteAcc := pushedAcc s, bit := s.bit >>> 1 }

/-- What `PUSH` writes (R134). -/
def pushEffect (s : State) : State :=
  { packBit s with
    x := fit 16 (s.x.toNat + 1)
    seq := if s.x.toNat + 1 = s.size.toNat then Seq.rowend else Seq.map }

/-- The row-boundary flush of `ROWEND`: emit only when `BIT ≠ 128`, reset both registers always (R135, C4). -/
def flushRow (s : State) : State :=
  { (if s.bit ≠ Config.bitInit then s.emit s.byteAcc else s) with
    byteAcc := Config.accInit, bit := Config.bitInit }

/-- What `ROWEND` writes (R135). After the last row the run is done and `SEQ` keeps `ROWEND`. -/
def rowendEffect (s : State) : State :=
  if s.y.toNat + 1 = s.size.toNat then
    { flushRow s with x := 0, y := fit 16 (s.y.toNat + 1), phase := Phase.done, spend := false }
  else { flushRow s with x := 0, y := fit 16 (s.y.toNat + 1), seq := Seq.map }

/-- `HDR` (R133). -/
def execHdr (s : State) : Host.Outcome State Fault Refusal := performMicro Seq.hdr hdrEffect s

/-- `PUSH` (R134). -/
def execPush (s : State) : Host.Outcome State Fault Refusal := performMicro Seq.push pushEffect s

/-- `ROWEND` (R135). -/
def execRowend (s : State) : Host.Outcome State Fault Refusal := performMicro Seq.rowend rowendEffect s

end Sys2Proof.Machine
end

