-- ==== Sys2Proof/Machine/Dispatch.lean ====
section
/-! DEFINITION. One arm per instruction, each one direct call of its meaning (spec/42_sequencer.md R164 for the
micro-steps, spec/43_host_commands.md R192 for the commands). -/

namespace Sys2Proof.Machine

def exec (i : Instr) (s : State) : Host.Outcome State Fault Refusal :=
  match i with
  | .nop => Sys2Proof.Machine.execNop s
  | .setsize n => Sys2Proof.Machine.execSetsize n s
  | .start => Sys2Proof.Machine.execStart s
  | .startstep => Sys2Proof.Machine.execStartstep s
  | .step => Sys2Proof.Machine.execStep s
  | .pause => Sys2Proof.Machine.execPause s
  | .resume => Sys2Proof.Machine.execResume s
  | .hdr => Sys2Proof.Machine.execHdr s
  | .map => Sys2Proof.Machine.execMap s
  | .iterate => Sys2Proof.Machine.execIterate s
  | .push => Sys2Proof.Machine.execPush s
  | .rowend => Sys2Proof.Machine.execRowend s

end Sys2Proof.Machine
end

