-- ==== Sys2Proof/Machine/Operands.lean ====
section
/-! DEFINITION. The host's view of the state: the sixteen 32-bit register words of spec/10_state.md R37 to R45. Each word
is written as its fields from bit 31 down, as the tables of those rules give them. -/

namespace Sys2Proof.Machine

/-- A 1-bit field. -/
def flagBit (b : Bool) : BitVec 1 := BitVec.ofBool b

/-- `STATUS` (R38). -/
def State.statusWord (s : State) : Word32 :=
  0#12 ++ (s.hidx ++ (0#5 ++ (flagBit s.spend ++ (flagBit s.szerr ++ (flagBit s.cerr ++
    (0#1 ++ (s.seq ++ (0#1 ++ s.phase))))))))

/-- `SIZEREG` (R39). -/
def State.sizeWord (s : State) : Word32 := 0#16 ++ s.size

/-- `POS` (R40). -/
def State.posWord (s : State) : Word32 := s.y ++ s.x

/-- `ITSTAT` (R41). -/
def State.itstatWord (s : State) : Word32 := 0#23 ++ (flagBit s.m ++ (0#2 ++ s.iter))

/-- `PACK` (R42). -/
def State.packWord (s : State) : Word32 := 0#16 ++ (s.bit ++ s.byteAcc)

/-- The `_LO` word of a binary64 register, bits 31..0 (R43). -/
def loWord (v : F64) : Word32 := v.extractLsb' 0 32

/-- The `_HI` word of a binary64 register, bits 63..32 (R43). -/
def hiWord (v : F64) : Word32 := v.extractLsb' 32 32

/-- The word `HostRead(i)` returns (R37, R190). Indexes 0 and 15 read 0 (R45). -/
def State.readRegister (s : State) (i : RegIndex) : Word32 :=
  match i.toNat with
  | 1 => s.statusWord
  | 2 => s.sizeWord
  | 3 => s.posWord
  | 4 => s.itstatWord
  | 5 => s.packWord
  | 6 => loWord s.zRe
  | 7 => hiWord s.zRe
  | 8 => loWord s.zIm
  | 9 => hiWord s.zIm
  | 10 => loWord s.cRe
  | 11 => hiWord s.cRe
  | 12 => loWord s.cIm
  | 13 => hiWord s.cIm
  | 14 => s.outcnt
  | _ => 0

end Sys2Proof.Machine
end

