-- ==== Sys2Proof/Machine/System.lean ====
section
/-! DEFINITION. The events of the system step relation (spec/42_sequencer.md R163): host read and write
(spec/43_host_commands.md R190 to R192), the block's turn (R164), a sink change and reset. -/

namespace Sys2Proof.Machine

/-- `Command(w)` (R192): the encoding check, then the command, which checks its phase. -/
def command (w : Word32) (s : State) : Host.Outcome State Fault Refusal :=
  match decodeCommand w with
  | .error _ => .next s.reject
  | .ok i => exec i s

/-- `HostWrite(i, w)` (R191): index 0 is `CMD`; a write to another index has no effect. -/
def hostWrite (i : RegIndex) (w : Word32) (s : State) : Host.Outcome State Fault Refusal :=
  if i = 0 then command w s else .next s

/-- `HostRead(i)` (R190): the word is handed to the host, no component of the block changes. -/
def hostRead (i : RegIndex) (s : State) : State := s.recordRead (s.readRegister i)

/-- The block's turn: the micro-step `SEQ` names (R164). A code that names none goes to `performMicro` as it is, which
answers the fault "unreachable SEQ" when a micro-step is due. -/
def microStep (s : State) : Host.Outcome State Fault Refusal :=
  match decodeSeq s.seq with
  | .ok i => exec i s
  | .error _ => performMicro s.seq (fun t => t) s

/-- One event of R163. -/
def performEvent (e : Event) (s : State) : Host.Outcome State Fault Refusal :=
  match e with
  | .hostRead i => .next (hostRead i s)
  | .hostWrite i w => hostWrite i w s
  | .blockTurn => microStep s
  | .sinkReady r => .next (s.setReady r)
  | .reset => .next s.applyReset

/-- One step of the whole system: the next event of the queue, taken off it; with an empty queue the host and the sink do
nothing and the block has the turn (log 1). -/
def systemStep (s : State) : Host.Outcome State Fault Refusal :=
  match s.events with
  | [] => microStep s
  | e :: rest => performEvent e { s with events := rest }

/-- The state in which the given code is the next to run (log 5): a command word is written to `CMD` by the next event; a
`SEQ` code stands in `SEQ` of a running run (with a dimension and, where the step emits, a ready sink) and the block has
the next turn. -/
def State.placeCode (s : State) : Code → State
  | .command w => { s with events := .hostWrite 0 w :: s.events }
  | .sequencer c =>
    let t : State :=
      { s with
        phase := Phase.run
        seq := c
        size := if s.size = 0 then 1 else s.size
        events := .blockTurn :: s.events }
    { t with outReady := t.outReady || t.emits }

end Sys2Proof.Machine
end

