-- ==== Sys2Proof/Machine/Step.lean ====
section
/-! DEFINITION. One step of the machine, and the state in which an opcode-table word is the next to run. -/

namespace Sys2Proof.Machine

/-- One step: one event of R163 (spec/42_sequencer.md). -/
def step (s : State) : Host.Outcome State Fault Refusal := systemStep s

/-- `s` with the opcode-table word `w` of `nbits` bits placed so that the next step runs it (log 5). -/
def State.withFetchWord (s : State) (nbits w : Nat) : State := s.placeCode (tableCode nbits w)

end Sys2Proof.Machine
end

