-- ==== Sys2Proof/Machine/Contract.lean ====
section
/-! DEFINITION. What a run has to deliver, as functions of the dimension alone: the pixels' memberships, the bytes of a row
(spec/41_packer.md R138, R139), the whole output (R141) and the number of micro-steps (spec/42_sequencer.md R169). The
meanings do not use them; the claims compare the machine with them. -/

namespace Sys2Proof.Machine

/-- `EVAL(x, y, SIZE)` in binary64 (R106). -/
def pixel (size : Dim) (x y : Nat) : PixelResult := evalPixel binary64 x y size.toNat

/-- `ceil(SIZE/8)`, the bytes of one row (R138). -/
def rowLength (size : Dim) : Nat := (size.toNat + 7) / 8

/-- The sum of R139 over the columns of byte `j` that lie below the column bound `w`. With `w = SIZE` it is `B(y, j)`;
with a smaller bound it is what the accumulator holds when the columns below `w` have been packed. -/
def byteUpTo (size : Dim) (y j w : Nat) : Byte :=
  ((List.range 8).map fun i =>
    if 8 * j + i < w ∧ (pixel size (8 * j + i) y).m = true then BitVec.ofNat 8 (2 ^ (7 - i)) else 0).sum

/-- `B(y, j)` (R139): pad positions are 0. -/
def rowByte (size : Dim) (y j : Nat) : Byte := byteUpTo size y j size.toNat

/-- The bytes of row `y`, leftmost first (R64, R138). -/
def rowBytes (size : Dim) (y : Nat) : List Byte := (List.range (rowLength size)).map (rowByte size y)

/-- The whole output of a run (R141): the header, then the rows from top to bottom. -/
def imageBytes (size : Dim) : List Byte := headerBytes size ++ (List.range size.toNat).flatMap (rowBytes size)

/-- `N(size)` (R169): header bytes, then `2 + k` micro-steps a pixel and one a row. -/
def microCount (size : Dim) : Nat :=
  (headerBytes size).length +
    ((List.range size.toNat).map fun y =>
      ((List.range size.toNat).map fun x => 2 + (pixel size x y).k).sum).sum + size.toNat

/-- The `k`-th iterate of the recurrence from `z = 0` (R104, R106). -/
def orbit (N : Numerics) (c : F64 × F64) : Nat → F64 × F64
  | 0 => (Config.zero, Config.zero)
  | k + 1 => stepZ N (orbit N c k) c

end Sys2Proof.Machine
end

