-- ==== Sys2Proof/Safety.lean ====
section
/-! DEFINITION. What holds of a run that goes right, in the words of the spec's invariants (spec/10_state.md R22, R25, R30,
R47 to R50; spec/41_packer.md R139, R141). The spec states them of reachable states; here each is a property of a state, so
that a claim can say which step keeps it. Clauses that the rules leave to the derivation (what holds while `SEQ = HDR`,
the count while `SEQ = ROWEND`) are written out, marked DEDUCED (log 16), because without them the rest is not kept by every step. -/

namespace Sys2Proof.Machine

/-- The event the next step performs: the head of the queue, or the block's turn when the queue is empty (log 1). -/
def State.nextEvent (s : State) : Event :=
  match s.events with
  | [] => .blockTurn
  | e :: _ => e

/-- The state the next event meets: the event itself is off the queue. -/
def State.takeTurn (s : State) : State := { s with events := s.events.tail }

/-- "Either `PHASE = RUN`, or `PHASE = HALT` with `SPEND = 1`": the condition every micro-step rule names (R107, R108,
R133 to R135). -/
def State.Runs (s : State) : Prop := s.phase = Phase.run ∨ (s.phase = Phase.halt ∧ s.spend = true)

/-- What `SPEND` holds after a micro-step that does not end the run (R165). -/
def State.spendAfter (s : State) : Bool := if s.phase = Phase.halt then false else s.spend

/-- R50: the codes are held ones, a pending step is in `HALT`, a size error is in `ERROR`. -/
def State.CodesLegal (s : State) : Prop :=
  s.phase.toNat ≤ 4 ∧ s.seq.toNat ≤ 4 ∧ (s.spend = true → s.phase = Phase.halt) ∧
    (s.szerr = true → s.phase = Phase.error)

/-- The micro-step in turn works on a pixel: `SEQ ∈ {MAP, ITERATE, PUSH}`. -/
def State.OnPixel (s : State) : Prop := s.seq = Seq.map ∨ s.seq = Seq.iterate ∨ s.seq = Seq.push

/-- R22 and R30: where an active run stands. DEDUCED: in the header `X = Y = 0`. -/
def State.PositionOk (s : State) : Prop :=
  s.active = true →
    s.y.toNat < s.size.toNat ∧
    (s.seq = Seq.hdr → s.x = 0 ∧ s.y = 0 ∧ s.hidx.toNat < (headerBytes s.size).length) ∧
    (s.seq ≠ Seq.hdr → s.hidx.toNat = (headerBytes s.size).length) ∧
    (s.OnPixel → s.x.toNat < s.size.toNat) ∧
    (s.seq = Seq.rowend → s.x = s.size)

/-- R47: `BIT` is one-hot and agrees with the column, and no bit at or below it is set in `BYTE_ACC`. DEDUCED: in the
header `BIT = 128`. -/
def State.PackerOk (s : State) : Prop :=
  s.bit ∈ ([128, 64, 32, 16, 8, 4, 2, 1] : List Byte) ∧
  s.byteAcc.toNat &&& (2 * s.bit.toNat - 1) = 0 ∧
  (s.active = true → s.seq = Seq.hdr → s.bit = 128) ∧
  (s.active = true → s.OnPixel → s.bit = (128 : Byte) >>> (s.x.toNat % 8)) ∧
  (s.active = true → s.seq = Seq.rowend → s.bit = (128 : Byte) >>> (s.size.toNat % 8)) ∧
  (s.active = false → s.bit = 128)

/-- R49: the output count of an active run. DEDUCED: the clause for `ROWEND`. -/
def State.CountOk (s : State) : Prop :=
  s.active = true →
    (s.seq = Seq.hdr → s.outcnt.toNat = s.hidx.toNat) ∧
    (s.OnPixel →
      s.outcnt.toNat = (headerBytes s.size).length + s.y.toNat * rowLength s.size + s.x.toNat / 8) ∧
    (s.seq = Seq.rowend →
      s.outcnt.toNat = (headerBytes s.size).length + s.y.toNat * rowLength s.size + s.size.toNat / 8)

/-- R25 and R48: the iteration counter of an active run. -/
def State.IterOk (s : State) : Prop :=
  s.active = true →
    s.iter.toNat ≤ Config.maxIter ∧
    (s.seq = Seq.push → 1 ≤ s.iter.toNat) ∧
    (s.seq = Seq.iterate → s.iter.toNat < Config.maxIter)

/-- The invariants of R22, R25, R30, R47, R49 and R50 together: kept by every event, whatever the interleaving. -/
def State.Inv (s : State) : Prop := s.CodesLegal ∧ s.PositionOk ∧ s.PackerOk ∧ s.CountOk ∧ s.IterOk

/-- `|v| ≤ b` for a finite value, through the units of both. -/
def f64AbsLe (v b : F64) : Prop := f64IsFinite v = true ∧ (f64Units v).natAbs ≤ (f64Units b).natAbs

/-- `r` is the binary64 value nearest to `v` units of 2^-1074, ties to even (R100): no NaN; infinite, with the sign of
`v`, exactly from the overflow threshold on (IEEE 754, log 7); otherwise no finite value is nearer, and of two equally near
ones `r` is the one with the even fraction. -/
def NearestEven (v : ℚ) (r : F64) : Prop :=
  f64IsNaN r = false ∧
  (f64IsInf r = true ↔ ((2 ^ 54 - 1) * 2 ^ 2044 : ℚ) ≤ |v|) ∧
  (f64IsInf r = true → (f64Sign r = true ↔ v < 0)) ∧
  (f64IsFinite r = true →
    ∀ g : F64, f64IsFinite g = true →
      |v - (f64Units r : ℚ)| ≤ |v - (f64Units g : ℚ)| ∧
      (|v - (f64Units r : ℚ)| = |v - (f64Units g : ℚ)| → f64Units g = f64Units r ∨ f64Frac r % 2 = 0))

/-- R48: the bounds of `C`, and the escape test of the last iteration did not succeed. DEDUCED: `Z` is finite, and is
+0.0 before the first iteration. -/
def State.FloatsBounded (s : State) : Prop :=
  s.active = true → s.seq = Seq.iterate →
    f64AbsLe s.cRe Config.reOff ∧ f64AbsLe s.cIm Config.imOff ∧
    f64IsFinite s.zRe = true ∧ f64IsFinite s.zIm = true ∧
    (s.iter = 0 → s.zRe = Config.zero ∧ s.zIm = Config.zero) ∧
    (1 ≤ s.iter.toNat → escaped binary64 (s.zRe, s.zIm) = false)

/-- R109: the evaluator's registers stand where `EVAL` of the current pixel stands after `ITER` iterations. -/
def State.PixelOk (s : State) : Prop :=
  s.active = true →
    (s.seq = Seq.iterate →
      (s.cRe, s.cIm) = mapC binary64 s.x.toNat s.y.toNat s.size.toNat ∧
      (s.zRe, s.zIm) = orbit binary64 (s.cRe, s.cIm) s.iter.toNat ∧ s.m = false ∧
      ∀ k, 1 ≤ k → k ≤ s.iter.toNat → escaped binary64 (orbit binary64 (s.cRe, s.cIm) k) = false) ∧
    (s.seq = Seq.push →
      (⟨s.m, s.iter.toNat, (s.zRe, s.zIm)⟩ : PixelResult) = pixel s.size s.x.toNat s.y.toNat)

/-- R139 and R141, part way: the run that began when the stream was `base` has appended the first `OUTCNT` bytes of its
output, and the accumulator holds the pixels of the current byte packed so far. -/
def State.StreamOk (base : List Byte) (s : State) : Prop :=
  s.active = true →
    s.out = base ++ (imageBytes s.size).take s.outcnt.toNat ∧
    (s.seq = Seq.hdr → s.byteAcc = 0) ∧
    (s.OnPixel → s.byteAcc = byteUpTo s.size s.y.toNat (s.x.toNat / 8) s.x.toNat) ∧
    (s.seq = Seq.rowend → s.byteAcc = byteUpTo s.size s.y.toNat (s.size.toNat / 8) s.size.toNat)

/-- Everything that holds of a run which began when the stream was `base`. -/
def State.RunInv (base : List Byte) (s : State) : Prop := s.Inv ∧ s.PixelOk ∧ s.StreamOk base

end Sys2Proof.Machine
end

