-- ==== Sys2Proof/Certificates/Slice0/Obligations.lean ====
section
/-! DEFINITION. The statements for the provers. Each docstring names the rule of spec/ it formalises; where a clause rests
on a choice of the model it names the log entry (notes/assumptions). Every statement is over all states, operands and
interleavings its hypotheses admit. -/

open Sys2Proof Sys2Proof.Machine

/-! ### Encoding -/

/-- 30_encoding sections 1 and 3: the code of every instruction decodes to it. -/
def Obligations.DecodeOfEncodeIsIdentity : Prop := ∀ i : Instr, decode (encode i) = .ok i

/-- 30_encoding sections 1 and 3: a code that decodes is the code of what it decodes to, so no instruction has two codes. -/
def Obligations.EncodeOfDecodeIsIdentity : Prop := ∀ (c : Code) (i : Instr), decode c = .ok i → encode i = c

/-- R84 without its count of words: the decoder on the fields of the word, taken by arithmetic. -/
def Obligations.CommandDecodeFollowsFields : Prop :=
  ∀ w : Word32,
    let op := w.toNat % 16
    let rsv := w.toNat / 16 % 4096
    let imm := w.toNat / 65536
    ((∃ e, decodeCommand w = .error e) ↔ rsv ≠ 0 ∨ 7 ≤ op ∨ (op ≠ 1 ∧ imm ≠ 0)) ∧
    (rsv = 0 → op = 1 → decodeCommand w = .ok (.setsize (BitVec.ofNat 16 imm))) ∧
    (rsv = 0 → imm = 0 →
      (op = 0 → decodeCommand w = .ok .nop) ∧ (op = 2 → decodeCommand w = .ok .start) ∧
      (op = 3 → decodeCommand w = .ok .startstep) ∧ (op = 4 → decodeCommand w = .ok .step) ∧
      (op = 5 → decodeCommand w = .ok .pause) ∧ (op = 6 → decodeCommand w = .ok .resume))

/-- R84, its count: "Exactly 2^16 + 6 words decode to a command". -/
def Obligations.CommandWordCount : Prop :=
  Set.ncard {w : Word32 | ∃ i, decodeCommand w = .ok i} = 2 ^ 16 + 6

/-- R89: the example encodings, legal and illegal. -/
def Obligations.ExampleWordsDecode : Prop :=
  decodeCommand 0x00000000 = .ok .nop ∧ decodeCommand 0x00010001 = .ok (.setsize 1) ∧
  decodeCommand 0x00090001 = .ok (.setsize 9) ∧ decodeCommand 0x00000001 = .ok (.setsize 0) ∧
  decodeCommand 0xFFFF0001 = .ok (.setsize 65535) ∧ decodeCommand 0x00000002 = .ok .start ∧
  decodeCommand 0x00000003 = .ok .startstep ∧ decodeCommand 0x00000004 = .ok .step ∧
  decodeCommand 0x00000005 = .ok .pause ∧ decodeCommand 0x00000006 = .ok .resume ∧
  decodeCommand 0x00000007 = .error .reservedOpcode ∧ decodeCommand 0x00000012 = .error .reservedBits ∧
  decodeCommand 0x00010002 = .error .immediateNotZero

/-- R88: the five `SEQ` codes, the codes never held, and no command word that names a micro-step. -/
def Obligations.SeqCodesNameMicroSteps : Prop :=
  decodeSeq 0 = .ok .hdr ∧ decodeSeq 1 = .ok .map ∧ decodeSeq 2 = .ok .iterate ∧ decodeSeq 3 = .ok .push ∧
  decodeSeq 4 = .ok .rowend ∧ (∀ c : Code3, 5 ≤ c.toNat → decodeSeq c = .error .reservedSeq) ∧
  ∀ (w : Word32) (i : Instr), decodeCommand w = .ok i → i.wellFormedIn .command = true

/-! ### One step -/

/-- 42_sequencer section 2 and 43_host_commands section 1: a step is the decoded instruction's meaning, met by the state
with the event taken off its queue (log 1). The instruction is the command of a host write to `CMD`, or the micro-step
that `SEQ` names when the block has the turn. -/
def Obligations.StepRunsDecodedInstruction : Prop :=
  (∀ (s : State) (w : Word32) (rest : List Event) (i : Instr),
    s.events = .hostWrite 0 w :: rest → decodeCommand w = .ok i → step s = exec i { s with events := rest }) ∧
  (∀ (s : State) (rest : List Event) (i : Instr),
    s.events = .blockTurn :: rest → decodeSeq s.seq = .ok i → step s = exec i { s with events := rest }) ∧
  (∀ (s : State) (i : Instr), s.events = [] → decodeSeq s.seq = .ok i → step s = exec i s)

/-- R191: a write to `CMD` performs the command it encodes, a write to any other index changes nothing, `CERR` included. -/
def Obligations.HostWriteReachesOnlyCmd : Prop :=
  ∀ (s : State) (i : RegIndex) (w : Word32) (rest : List Event),
    s.events = .hostWrite i w :: rest →
      (i ≠ 0 → step s = .next { s with events := rest }) ∧
      (i = 0 → step s = command w { s with events := rest })

/-- R231 and R33: an illegal word, or a command its phase does not allow, sets `CERR` and changes nothing else; and once
set it stays through every event but reset. -/
def Obligations.RejectionSetsStickyCerr : Prop :=
  (∀ (s : State) (w : Word32) (rest : List Event),
    s.events = .hostWrite 0 w :: rest →
      ((∃ e, decodeCommand w = .error e) → step s = .next { s with events := rest, cerr := true }) ∧
      (∀ i, decodeCommand w = .ok i → s.phase.toNat ≤ 4 → legal s i = false →
        step s = .next { s with events := rest, cerr := true })) ∧
  ∀ s t : State, step s = .next t → s.cerr = true → s.nextEvent ≠ .reset → t.cerr = true

/-- R190: a host read hands over the register's word and changes no component of the system; the word does not depend on
the stream or on `OUT_READY`. That the word is kept in `reads` is the model's choice (log 3). -/
def Obligations.HostReadOnlyReturnsWord : Prop :=
  (∀ (s : State) (i : RegIndex) (rest : List Event),
    s.events = .hostRead i :: rest →
      step s = .next { s with events := rest, reads := s.reads ++ [s.readRegister i] }) ∧
  ∀ (s : State) (i : RegIndex) (l : List Byte) (r : Bool) (es : List Event) (rs : List Word32),
    State.readRegister { s with out := l, outReady := r, events := es, reads := rs } i = s.readRegister i

/-- R38 to R42, R44 and R45: the register words as numbers, by the formulas of R38 and 95_test_vectors, and that no write
reaches an index other than `CMD`. -/
def Obligations.RegisterWordsMatchTables : Prop :=
  ∀ s : State,
    (s.readRegister 1).toNat =
      s.phase.toNat + s.seq.toNat * 2 ^ 4 + s.cerr.toNat * 2 ^ 8 + s.szerr.toNat * 2 ^ 9 + s.spend.toNat * 2 ^ 10 +
        s.hidx.toNat * 2 ^ 16 ∧
    (s.readRegister 2).toNat = s.size.toNat ∧
    (s.readRegister 3).toNat = s.x.toNat + s.y.toNat * 2 ^ 16 ∧
    (s.readRegister 4).toNat = s.iter.toNat + s.m.toNat * 2 ^ 8 ∧
    (s.readRegister 5).toNat = s.byteAcc.toNat + s.bit.toNat * 2 ^ 8 ∧
    s.readRegister 14 = s.outcnt ∧ s.readRegister 0 = 0 ∧ s.readRegister 15 = 0 ∧
    ∀ (i : RegIndex) (w : Word32), i ≠ 0 → hostWrite i w s = .next s

/-- R43 and R66: the two words of each binary64 register make its pattern, `_LO` below `_HI`, and the sign is bit 31 of
`_HI`. -/
def Obligations.FloatRegisterWordPairs : Prop :=
  ∀ s : State,
    (s.readRegister 6).toNat + (s.readRegister 7).toNat * 2 ^ 32 = s.zRe.toNat ∧
    (s.readRegister 8).toNat + (s.readRegister 9).toNat * 2 ^ 32 = s.zIm.toNat ∧
    (s.readRegister 10).toNat + (s.readRegister 11).toNat * 2 ^ 32 = s.cRe.toNat ∧
    (s.readRegister 12).toNat + (s.readRegister 13).toNat * 2 ^ 32 = s.cIm.toNat ∧
    (s.readRegister 7).getLsbD 31 = f64Sign s.zRe ∧ (s.readRegister 9).getLsbD 31 = f64Sign s.zIm

/-- R260: the event `RESET`, possible in any state, gives every component its reset value and leaves the stream and
`OUT_READY` as they are. -/
def Obligations.ResetEventRestoresBlock : Prop :=
  ∀ (s : State) (rest : List Event),
    s.events = .reset :: rest →
      step s = .next
        { size := 0, x := 0, y := 0, cRe := 0, cIm := 0, zRe := 0, zIm := 0, iter := 0, m := false, byteAcc := 0,
          bit := 128, hidx := 0, outcnt := 0, phase := Phase.idle, seq := Seq.hdr, cerr := false, szerr := false,
          spend := false, out := s.out, outReady := s.outReady, events := rest, reads := s.reads }

/-- R51: the block's components after reset, and the host register words they give. -/
def Obligations.ResetStateAndRegisterWords : Prop :=
  (State.reset.size = 0 ∧ State.reset.x = 0 ∧ State.reset.y = 0 ∧ State.reset.cRe = 0 ∧ State.reset.cIm = 0 ∧
    State.reset.zRe = 0 ∧ State.reset.zIm = 0 ∧ State.reset.iter = 0 ∧ State.reset.m = false ∧
    State.reset.byteAcc = 0 ∧ State.reset.bit = 128 ∧ State.reset.hidx = 0 ∧ State.reset.outcnt = 0 ∧
    State.reset.phase = Phase.idle ∧ State.reset.seq = Seq.hdr ∧ State.reset.cerr = false ∧
    State.reset.szerr = false ∧ State.reset.spend = false) ∧
  ∀ i : RegIndex, State.reset.readRegister i = if i = 5 then 0x00008000 else 0

/-- 42_sequencer sections 1 and 4 (holds) with the model's choice of log 2: a block turn in which no micro-step is enabled
leaves the state as it is. So an emitting micro-step waits for the sink, `HALT` without a pending step waits for the host,
and `IDLE`, `DONE` and `ERROR` rest. -/
def Obligations.BlockTurnHoldsWhenNotEnabled : Prop :=
  ∀ s : State,
    s.nextEvent = .blockTurn → s.phase.toNat ≤ 4 → s.seq.toNat ≤ 4 →
    (¬ s.Runs ∨
      (s.outReady = false ∧
        (s.seq = Seq.hdr ∨ (s.seq = Seq.push ∧ s.bit = 1) ∨ (s.seq = Seq.rowend ∧ s.bit ≠ 128)))) →
    step s = .next s.takeTurn

/-- R164's fault (I7): a micro-step that is due while `SEQ` holds a code 5..7 stops the machine by name. -/
def Obligations.UnreachableSeqFaults : Prop :=
  ∀ s : State,
    s.nextEvent = .blockTurn → s.Runs → 5 ≤ s.seq.toNat → step s = .fault (.unreachableSeq s.seq)

/-- I8 of 93_implementation_defined: a legal command word or a block turn that meets a `PHASE` code 5..7 stops the machine
by name (which events meet it is the model's choice, log 10). -/
def Obligations.UnreachablePhaseFaults : Prop :=
  ∀ s : State, 5 ≤ s.phase.toNat →
    (s.nextEvent = .blockTurn → step s = .fault (.unreachablePhase s.phase)) ∧
    (∀ w i, s.nextEvent = .hostWrite 0 w → decodeCommand w = .ok i → step s = .fault (.unreachablePhase s.phase))

/-! ### Host commands -/

/-- R193: `NOP` is legal in every phase and changes nothing; a word with `OP = 0` and any other bit set is illegal. -/
def Obligations.NopChangesNothing : Prop :=
  (∀ s : State, s.phase.toNat ≤ 4 → exec .nop s = .next s) ∧ decodeCommand 0x00000000 = .ok .nop ∧
  ∀ w : Word32, w.toNat % 16 = 0 → w ≠ 0 → ∃ e, decodeCommand w = .error e

/-- R194: `SETSIZE n` writes `SIZE` and nothing else while no run is active, and is rejected during a run. -/
def Obligations.SetsizeWritesOnlySize : Prop :=
  ∀ (s : State) (n : Dim),
    decodeCommand (BitVec.ofNat 32 (n.toNat * 2 ^ 16 + 1)) = .ok (.setsize n) ∧
    (s.phase = Phase.idle ∨ s.phase = Phase.done ∨ s.phase = Phase.error →
      exec (.setsize n) s = .next { s with size := n }) ∧
    (s.phase = Phase.run ∨ s.phase = Phase.halt → exec (.setsize n) s = .next { s with cerr := true })

/-- R201: `START` and `STARTSTEP` with `SIZE ≥ 1`, where no run is active, write exactly the initial state of a run. -/
def Obligations.StartInitialisesRun : Prop :=
  ∀ s : State, s.phase = Phase.idle ∨ s.phase = Phase.done ∨ s.phase = Phase.error → s.size ≠ 0 →
    exec .start s = .next
      { s with
        x := 0, y := 0, cRe := 0, cIm := 0, zRe := 0, zIm := 0, iter := 0, m := false, byteAcc := 0, bit := 128,
        hidx := 0, outcnt := 0, seq := Seq.hdr, spend := false, szerr := false, phase := Phase.run } ∧
    exec .startstep s = .next
      { s with
        x := 0, y := 0, cRe := 0, cIm := 0, zRe := 0, zIm := 0, iter := 0, m := false, byteAcc := 0, bit := 128,
        hidx := 0, outcnt := 0, seq := Seq.hdr, spend := false, szerr := false, phase := Phase.halt }

/-- R232: `START` and `STARTSTEP` with `SIZE = 0`, where no run is active, report the invalid dimension and change nothing
else: no byte is emitted. -/
def Obligations.StartWithSizeZeroFails : Prop :=
  ∀ s : State, s.phase = Phase.idle ∨ s.phase = Phase.done ∨ s.phase = Phase.error → s.size = 0 →
    exec .start s = .next { s with phase := Phase.error, szerr := true } ∧
    exec .startstep s = .next { s with phase := Phase.error, szerr := true }

/-- 43_host_commands section 2, `STEP`: in `HALT` with no step pending it sets `SPEND` alone. -/
def Obligations.StepRequestsOneMicroStep : Prop :=
  ∀ s : State,
    (s.phase = Phase.halt → s.spend = false → exec .step s = .next { s with spend := true }) ∧
    (s.phase = Phase.halt → s.spend = true → exec .step s = .next { s with cerr := true }) ∧
    (s.phase.toNat ≤ 4 → s.phase ≠ Phase.halt → exec .step s = .next { s with cerr := true })

/-- R198: `PAUSE` moves a running run to `HALT` with no step pending, and is rejected in every other phase. -/
def Obligations.PauseHaltsRun : Prop :=
  decodeCommand 0x00000005 = .ok .pause ∧
  ∀ s : State,
    (s.phase = Phase.run → exec .pause s = .next { s with phase := Phase.halt, spend := false }) ∧
    (s.phase.toNat ≤ 4 → s.phase ≠ Phase.run → exec .pause s = .next { s with cerr := true })

/-- 43_host_commands section 2, `RESUME`: from `HALT` to `RUN`, a pending step absorbed; rejected in every other phase;
and after a `PAUSE` of a run it restores the state the pause met. -/
def Obligations.ResumeContinuesRun : Prop :=
  ∀ s : State,
    (s.phase = Phase.halt → exec .resume s = .next { s with phase := Phase.run, spend := false }) ∧
    (s.phase.toNat ≤ 4 → s.phase ≠ Phase.halt → exec .resume s = .next { s with cerr := true }) ∧
    (∀ t, s.phase = Phase.run → s.spend = false → exec .pause s = .next t → exec .resume t = .next s)

/-- R200: the legality table, row by row and column by column (`IDLE`, `RUN`, `HALT` without and with a pending step,
`DONE`, `ERROR`). In a "yes" cell the command is performed, with its own effect and `CERR` as it was; in a "CERR" cell it
is rejected: only `CERR` changes. -/
def Obligations.CommandLegalityTable : Prop :=
  ∀ (s : State) (i : Instr), s.phase.toNat ≤ 4 → i.wellFormedIn .command = true →
    let column : Nat :=
      if s.phase = Phase.idle then 0 else if s.phase = Phase.run then 1
      else if s.phase = Phase.halt then (if s.spend then 3 else 2) else if s.phase = Phase.done then 4 else 5
    let row : List Bool :=
      match i with
      | .nop => [true, true, true, true, true, true]
      | .setsize _ => [true, false, false, false, true, true]
      | .start => [true, false, false, false, true, true]
      | .startstep => [true, false, false, false, true, true]
      | .step => [false, false, true, false, false, false]
      | .pause => [false, true, false, false, false, false]
      | .resume => [false, false, true, true, false, false]
      | _ => []
    let effect : State :=
      match i with
      | .setsize n => { s with size := n }
      | .start => s.beginRun Phase.run
      | .startstep => s.beginRun Phase.halt
      | .step => { s with spend := true }
      | .pause => { s with phase := Phase.halt, spend := false }
      | .resume => { s with phase := Phase.run, spend := false }
      | _ => s
    (row[column]? = some true ∧ legal s i = true ∧ exec i s = .next effect ∧ effect.cerr = s.cerr) ∨
    (row[column]? = some false ∧ legal s i = false ∧ exec i s = .next { s with cerr := true })

/-- 70_reset_and_hazards section 2: what a run starts from depends on `SIZE` alone. Two states with the same `SIZE`, `CERR`
and surroundings start the same run, whatever the block did before. -/
def Obligations.StartForgetsThePast : Prop :=
  ∀ s t : State,
    (s.phase = Phase.idle ∨ s.phase = Phase.done ∨ s.phase = Phase.error) →
    (t.phase = Phase.idle ∨ t.phase = Phase.done ∨ t.phase = Phase.error) →
    s.size ≠ 0 → s.size = t.size → s.cerr = t.cerr → s.out = t.out → s.outReady = t.outReady →
    s.events = t.events → s.reads = t.reads →
    exec .start s = exec .start t ∧ exec .startstep s = exec .startstep t

/-! ### Micro-steps -/

/-- 41_packer section 2, `HDR`: enabled and within the header, it emits the header's byte at `HIDX` and advances. -/
def Obligations.HdrEmitsHeaderByte : Prop :=
  ∀ (s : State) (h : s.hidx.toNat < (headerBytes s.size).length),
    s.seq = Seq.hdr → s.Runs → s.outReady = true → s.size ≠ 0 →
    exec .hdr s = .next
      { s with
        out := s.out ++ [(headerBytes s.size)[s.hidx.toNat]], outcnt := s.outcnt + 1, hidx := s.hidx + 1
        seq := if s.hidx.toNat + 1 = (headerBytes s.size).length then Seq.map else Seq.hdr
        spend := s.spendAfter }

/-- 40_evaluator section 3, `MAP`: the map of R103 written out, `Z`, `ITER` and `M` cleared; it needs no ready sink. -/
def Obligations.MapComputesPoint : Prop :=
  ∀ s : State, s.seq = Seq.map → s.Runs →
    exec .map s = .next
      { s with
        cRe := binary64.sub (binary64.div (binary64.ofNat (2 * s.x.toNat)) (binary64.ofNat s.size.toNat))
          0x3FF8000000000000
        cIm := binary64.sub (binary64.div (binary64.ofNat (2 * s.y.toNat)) (binary64.ofNat s.size.toNat))
          0x3FF0000000000000
        zRe := 0, zIm := 0, iter := 0, m := false, seq := Seq.iterate, spend := s.spendAfter }

/-- 40_evaluator section 3, `ITERATE`: the recurrence of R104 and the test of R105 written out; the escape test comes before
the bound of 50. -/
def Obligations.IterateAdvancesOrbit : Prop :=
  ∀ s : State, s.seq = Seq.iterate → s.Runs → s.iter.toNat < 50 →
    let rr := binary64.mul s.zRe s.zRe
    let ii := binary64.mul s.zIm s.zIm
    let ri := binary64.mul s.zRe s.zIm
    let zr := binary64.add (binary64.sub rr ii) s.cRe
    let zi := binary64.add (binary64.add ri ri) s.cIm
    let esc := binary64.ge (binary64.add (binary64.mul zr zr) (binary64.mul zi zi)) 0x4010000000000000
    exec .iterate s = .next
      { s with
        zRe := zr, zIm := zi, iter := s.iter + 1
        m := if esc then false else if s.iter.toNat + 1 = 50 then true else s.m
        seq := if esc ∨ s.iter.toNat + 1 = 50 then Seq.push else Seq.iterate
        spend := s.spendAfter }

/-- 41_packer section 2, `PUSH`: the pixel's bit goes into the accumulator; on the eighth bit the byte is emitted (the sink
must be ready), otherwise `BIT` is halved and no sink is needed; the column advances. -/
def Obligations.PushPacksPixel : Prop :=
  ∀ s : State, s.seq = Seq.push → s.Runs → s.x.toNat < s.size.toNat →
    let acc := if s.m then s.byteAcc ||| s.bit else s.byteAcc
    let next := if s.x.toNat + 1 = s.size.toNat then Seq.rowend else Seq.map
    (s.bit = 1 → s.outReady = true →
      exec .push s = .next
        { s with
          out := s.out ++ [acc], outcnt := s.outcnt + 1, byteAcc := 0, bit := 128, x := s.x + 1, seq := next
          spend := s.spendAfter }) ∧
    (s.bit ≠ 1 →
      exec .push s = .next
        { s with byteAcc := acc, bit := s.bit >>> 1, x := s.x + 1, seq := next, spend := s.spendAfter })

/-- 41_packer section 2, `ROWEND`: the row's last byte is emitted only when `BIT ≠ 128`, both packer registers are reset
always, the row advances, and after the last row the run is done with no step pending. -/
def Obligations.RowendFlushesRow : Prop :=
  ∀ s : State, s.seq = Seq.rowend → s.Runs → s.y.toNat < s.size.toNat → (s.bit ≠ 128 → s.outReady = true) →
    exec .rowend s = .next
      { s with
        out := if s.bit = 128 then s.out else s.out ++ [s.byteAcc]
        outcnt := if s.bit = 128 then s.outcnt else s.outcnt + 1
        byteAcc := 0, bit := 128, x := 0, y := s.y + 1
        phase := if s.y.toNat + 1 = s.size.toNat then Phase.done else s.phase
        seq := if s.y.toNat + 1 = s.size.toNat then Seq.rowend else Seq.map
        spend := if s.y.toNat + 1 = s.size.toNat then false else s.spendAfter }

/-- R162: which micro-steps emit. An enabled block turn appends one byte and counts it where the rule says it emits, and
leaves stream and count alone where it does not. -/
def Obligations.EmissionMatchesRule : Prop :=
  ∀ s : State, s.nextEvent = .blockTurn → s.Runs → s.seq.toNat ≤ 4 →
    let emits := s.seq = Seq.hdr ∨ (s.seq = Seq.push ∧ s.bit = 1) ∨ (s.seq = Seq.rowend ∧ s.bit ≠ 128)
    (emits → s.outReady = true →
      ∃ t b, step s = .next t ∧ t.out = s.out ++ [b] ∧ t.outcnt = s.outcnt + 1) ∧
    (¬ emits → ∃ t, step s = .next t ∧ t.out = s.out ∧ t.outcnt = s.outcnt)

/-- 42_sequencer sections 1 and 2: a micro-step performed in `HALT` clears `SPEND`, so an accepted `STEP` allows exactly one.
That the block's next turn, in which no micro-step is enabled, passes without an effect is the model's choice (log 2). The
micro-step that ends a run clears `SPEND` in `RUN` as well. -/
def Obligations.StepAllowsOneMicroStep : Prop :=
  ∀ s t : State, s.nextEvent = .blockTurn → s.enabled = true → step s = .next t →
    (s.phase = Phase.halt → t.spend = false ∧ (t.nextEvent = .blockTurn → step t = .next t.takeTurn)) ∧
    (t.phase = Phase.done → t.spend = false)

/-- R166: the transition table of `SEQ`. -/
def Obligations.SeqTransitionTable : Prop :=
  ∀ s t : State, s.nextEvent = .blockTurn → s.enabled = true → step s = .next t →
    (s.seq = Seq.hdr → s.hidx.toNat + 1 < (headerBytes s.size).length → t.seq = Seq.hdr) ∧
    (s.seq = Seq.hdr → s.hidx.toNat + 1 = (headerBytes s.size).length → t.seq = Seq.map) ∧
    (s.seq = Seq.map → t.seq = Seq.iterate) ∧
    (s.seq = Seq.iterate → escaped binary64 (stepZ binary64 (s.zRe, s.zIm) (s.cRe, s.cIm)) = true →
      t.seq = Seq.push ∧ t.m = false) ∧
    (s.seq = Seq.iterate → escaped binary64 (stepZ binary64 (s.zRe, s.zIm) (s.cRe, s.cIm)) = false →
      s.iter.toNat + 1 = 50 → t.seq = Seq.push ∧ t.m = true) ∧
    (s.seq = Seq.iterate → escaped binary64 (stepZ binary64 (s.zRe, s.zIm) (s.cRe, s.cIm)) = false →
      s.iter.toNat + 1 < 50 → t.seq = Seq.iterate) ∧
    (s.seq = Seq.push → s.x.toNat + 1 < s.size.toNat → t.seq = Seq.map) ∧
    (s.seq = Seq.push → s.x.toNat + 1 = s.size.toNat → t.seq = Seq.rowend) ∧
    (s.seq = Seq.rowend → s.y.toNat + 1 < s.size.toNat → t.seq = Seq.map ∧ t.phase = s.phase) ∧
    (s.seq = Seq.rowend → s.y.toNat + 1 = s.size.toNat → t.seq = Seq.rowend ∧ t.phase = Phase.done)

/-! ### Who writes what, over every event -/

/-- R62: every step leaves the stream as it is or appends to it, reset and start included, and what a step does never
depends on the stream's contents. -/
def Obligations.StreamIsAppendOnlyAndNeverRead : Prop :=
  (∀ s t : State, step s = .next t → t.out = s.out ∨ ∃ b, t.out = s.out ++ [b]) ∧
  ∀ (s t : State) (l : List Byte), step s = .next t →
    step { s with out := l } = .next { t with out := l ++ t.out.drop s.out.length }

/-- R23: who writes `C_RE` and `C_IM`. -/
def Obligations.ConstantWriters : Prop :=
  ∀ s t : State, step s = .next t → (t.cRe, t.cIm) ≠ (s.cRe, s.cIm) →
    (s.nextEvent = .blockTurn ∧ s.seq = Seq.map ∧
      (t.cRe, t.cIm) = mapC binary64 s.x.toNat s.y.toNat s.size.toNat) ∨
    ((t.cRe, t.cIm) = (0, 0) ∧
      (s.nextEvent = .reset ∨
        ∃ w, s.nextEvent = .hostWrite 0 w ∧ (decodeCommand w = .ok .start ∨ decodeCommand w = .ok .startstep)))

/-- 10_state section 1: `SIZE` is written by an accepted `SETSIZE` and by reset only, so it is constant during a run; `X` and
`Y` by a start, by `PUSH`, by `ROWEND` and by reset; `PHASE` by commands, by `ROWEND` (to `DONE`) and by reset. -/
def Obligations.ControlRegisterWriters : Prop :=
  ∀ s t : State, step s = .next t →
    (t.size ≠ s.size →
      s.nextEvent = .reset ∨
        (s.active = false ∧ ∃ w n, s.nextEvent = .hostWrite 0 w ∧ decodeCommand w = .ok (.setsize n) ∧ t.size = n)) ∧
    ((t.x, t.y) ≠ (s.x, s.y) →
      s.nextEvent = .reset ∨
        (s.nextEvent = .blockTurn ∧ (s.seq = Seq.rowend ∨ (s.seq = Seq.push ∧ t.y = s.y))) ∨
        ∃ w, s.nextEvent = .hostWrite 0 w ∧ (decodeCommand w = .ok .start ∨ decodeCommand w = .ok .startstep)) ∧
    (t.phase ≠ s.phase →
      s.nextEvent = .reset ∨ (∃ w, s.nextEvent = .hostWrite 0 w) ∨
        (s.nextEvent = .blockTurn ∧ s.seq = Seq.rowend ∧ t.phase = Phase.done))

/-- R35: who sets `SPEND` and who clears it. -/
def Obligations.PendingStepWriters : Prop :=
  ∀ s t : State, step s = .next t →
    (s.spend = false → t.spend = true →
      ∃ w, s.nextEvent = .hostWrite 0 w ∧ decodeCommand w = .ok .step ∧ s.phase = Phase.halt) ∧
    (s.spend = true → t.spend = false →
      s.nextEvent = .reset ∨ s.nextEvent = .blockTurn ∨
        ∃ w i, s.nextEvent = .hostWrite 0 w ∧ decodeCommand w = .ok i ∧
          (i = .pause ∨ i = .resume ∨ i = .start ∨ i = .startstep))

/-! ### Numerics -/

/-- R100, the four rounded operations: on finite operands each returns the exact real result rounded once to the nearest
binary64 value, ties to even. -/
def Obligations.ArithmeticRoundsToNearestEven : Prop :=
  ∀ a b : F64, f64IsFinite a = true → f64IsFinite b = true →
    NearestEven ((f64Units a : ℚ) + f64Units b) (binary64.add a b) ∧
    NearestEven ((f64Units a : ℚ) - f64Units b) (binary64.sub a b) ∧
    NearestEven ((f64Units a : ℚ) * f64Units b / 2 ^ 1074) (binary64.mul a b) ∧
    (f64Units b ≠ 0 → NearestEven ((f64Units a : ℚ) * 2 ^ 1074 / f64Units b) (binary64.div a b))

/-- R100, `f64_of_nat` and `f64_ge`: the conversion is exact below 2^53, and the comparison is the order of the values,
false when an operand is NaN. -/
def Obligations.ConversionExactAndOrderOrdered : Prop :=
  (∀ n : Nat, n < 2 ^ 53 →
    f64IsFinite (binary64.ofNat n) = true ∧ f64Units (binary64.ofNat n) = (n : Int) * 2 ^ 1074) ∧
  (∀ a b : F64, f64IsFinite a = true → f64IsFinite b = true →
    (binary64.ge a b = true ↔ f64Units b ≤ f64Units a)) ∧
  ∀ a b : F64, f64IsNaN a = true ∨ f64IsNaN b = true → binary64.ge a b = false

/-- 40_evaluator section 4, signed zero: an exact zero difference of equal values is +0.0, and the map never returns -0.0. -/
def Obligations.MapNeverGivesNegativeZero : Prop :=
  (∀ a : F64, f64IsFinite a = true → binary64.sub a a = 0) ∧
  ∀ x y size : Nat, x < size → y < size → size ≤ 65535 →
    (mapC binary64 x y size).1 ≠ 0x8000000000000000 ∧ (mapC binary64 x y size).2 ≠ 0x8000000000000000

/-- 40_evaluator section 2, the region of the map: finite, `-1.5 ≤ cr < 0.5` and `-1.0 ≤ ci < 1.0`. -/
def Obligations.MapStaysInRegion : Prop :=
  ∀ x y size : Nat, x < size → y < size → size ≤ 65535 →
    f64IsFinite (mapC binary64 x y size).1 = true ∧ f64IsFinite (mapC binary64 x y size).2 = true ∧
    binary64.ge (mapC binary64 x y size).1 0xBFF8000000000000 = true ∧
    binary64.ge (mapC binary64 x y size).1 0x3FE0000000000000 = false ∧
    binary64.ge (mapC binary64 x y size).2 0xBFF0000000000000 = true ∧
    binary64.ge (mapC binary64 x y size).2 0x3FF0000000000000 = false

/-- R110: scaling by 2 before the division or after it gives the same bits. -/
def Obligations.ScalingCommutesWithDivision : Prop :=
  ∀ x size : Nat, x ≤ 65535 → 1 ≤ size → size ≤ 65535 →
    binary64.div (binary64.ofNat (2 * x)) (binary64.ofNat size) =
      binary64.mul 0x4000000000000000 (binary64.div (binary64.ofNat x) (binary64.ofNat size))

/-- R114: the known points. A pixel with `c = (+0.0, +0.0)` keeps `z = 0` and is in the set after 50 iterations; it exists
for every multiple of 4. `c = 2` escapes on its first iteration; no pixel of any run does, and no pixel has that `c`. -/
def Obligations.KnownPoints : Prop :=
  (∀ k : Nat, 1 ≤ k → 4 * k ≤ 65535 → mapC binary64 (3 * k) (2 * k) (4 * k) = (0, 0)) ∧
  (∀ k : Nat, orbit binary64 (0, 0) k = (0, 0)) ∧
  (∀ x y size : Nat, mapC binary64 x y size = (0, 0) → evalPixel binary64 x y size = ⟨true, 50, (0, 0)⟩) ∧
  escaped binary64 (stepZ binary64 (0, 0) (0x4000000000000000, 0)) = true ∧
  ∀ x y size : Nat, x < size → y < size → size ≤ 65535 →
    escaped binary64 (stepZ binary64 (0, 0) (mapC binary64 x y size)) = false ∧
    mapC binary64 x y size ≠ (0x4000000000000000, 0)

/-- 40_evaluator section 4, finiteness: in a state of a run with the bounds of R48, every value `ITERATE` computes is
finite. -/
def Obligations.IterateComputesFiniteValues : Prop :=
  ∀ s : State, s.active = true → s.seq = Seq.iterate → s.FloatsBounded →
    let rr := binary64.mul s.zRe s.zRe
    let ii := binary64.mul s.zIm s.zIm
    let ri := binary64.mul s.zRe s.zIm
    let zr := binary64.add (binary64.sub rr ii) s.cRe
    let zi := binary64.add (binary64.add ri ri) s.cIm
    ∀ v ∈ [rr, ii, ri, binary64.sub rr ii, binary64.add ri ri, zr, zi, binary64.mul zr zr, binary64.mul zi zi,
      binary64.add (binary64.mul zr zr) (binary64.mul zi zi)], f64IsFinite v = true

/-- 10_state section 3 and 40_evaluator section 4: every event keeps the bounds of the evaluator's values, from every state
with the run's invariants. -/
def Obligations.FloatBoundsKept : Prop :=
  ∀ s t : State, s.Inv → s.FloatsBounded → step s = .next t → t.FloatsBounded

/-- R109: the micro-steps match the contract. From any state about to perform `MAP` in a running run, with the host and the
sink quiet, one `MAP` and then exactly `k` `ITERATE` steps leave what `EVAL` returns, with `1 ≤ k ≤ 50`, and touch nothing
else. That an empty queue gives the block every turn is the model's choice (log 1). -/
def Obligations.MicroStepsComputeEval : Prop :=
  ∀ s : State, s.phase = Phase.run → s.seq = Seq.map → s.events = [] →
    let r := pixel s.size s.x.toNat s.y.toNat
    let c := mapC binary64 s.x.toNat s.y.toNat s.size.toNat
    1 ≤ r.k ∧ r.k ≤ 50 ∧
    (∀ j, 1 ≤ j → j ≤ r.k → ∃ u, core.run j s = .next u ∧ u.seq = Seq.iterate) ∧
    core.run (1 + r.k) s = .next
      { s with
        cRe := c.1, cIm := c.2, zRe := r.z.1, zIm := r.z.2, iter := BitVec.ofNat 6 r.k, m := r.m, seq := Seq.push }

/-! ### Output -/

/-- R131 and R132: the header is the text `P4`, newline, the decimal dimension, space, the decimal dimension, newline, of
`5 + 2·d` bytes; the decimal text of the dimension is its base-10 digits, without leading zeros. -/
def Obligations.HeaderIsDecimalText : Prop :=
  ∀ n : Dim, n ≠ 0 →
    (decText n).map (fun b => b.toNat) = (Nat.digits 10 n.toNat).reverse.map (fun v => 0x30 + v) ∧
    (headerBytes n).map (fun b => b.toNat) =
      ("P4\n" ++ toString n.toNat ++ " " ++ toString n.toNat ++ "\n").toList.map Char.toNat ∧
    (headerBytes n).length = 5 + 2 * (Nat.digits 10 n.toNat).length

/-- 00_scope section 4, derived sizes: the length of a run's whole output, which stays below the output counter's range. -/
def Obligations.OutputLength : Prop :=
  ∀ n : Dim, n ≠ 0 →
    (imageBytes n).length = 5 + 2 * (Nat.digits 10 n.toNat).length + n.toNat * ((n.toNat + 7) / 8) ∧
    (imageBytes n).length < 2 ^ 32

/-- R65: the pixel at column `x` of a row is bit `7 - (x mod 8)` of byte `x / 8` of that row, and the pad bits are 0. -/
def Obligations.PixelBitPlacement : Prop :=
  (∀ (n : Dim) (x y : Nat), x < n.toNat →
    ∃ b, (rowBytes n y)[x / 8]? = some b ∧ b.getLsbD (7 - x % 8) = (pixel n x y).m) ∧
  ∀ (n : Dim) (y j i : Nat) (b : Byte),
    (rowBytes n y)[j]? = some b → i < 8 → n.toNat ≤ 8 * j + i → b.getLsbD (7 - i) = false

/-! ### Invariants and whole runs -/

/-- R50: reset has, and every event keeps, held codes in `PHASE` and `SEQ`, `SPEND` within `HALT` and `SZERR` within
`ERROR`. -/
def Obligations.CodesLegalAlways : Prop :=
  State.reset.CodesLegal ∧ ∀ s t : State, s.CodesLegal → step s = .next t → t.CodesLegal

/-- 10_state section 3: every event keeps the invariants of position, packer, output count and iteration count, from every
state that has them, whatever the interleaving. -/
def Obligations.InvariantsKept : Prop := ∀ s t : State, s.Inv → step s = .next t → t.Inv

/-- 10_state sections 3 and 4: reset has the invariants, whatever stands around the block. -/
def Obligations.InvariantsAtReset : Prop :=
  State.reset.Inv ∧ State.reset.FloatsBounded ∧ ∀ s : State, s.applyReset.Inv ∧ s.applyReset.FloatsBounded

/-- 10_state section 3 and 42_sequencer section 2: from a state with the invariants no step stops. That a block turn in
which no micro-step is enabled has a next state at all is the model's choice (log 2). -/
def Obligations.InvariantStatesNeverStop : Prop := ∀ s : State, s.Inv → ∃ t, step s = .next t

/-- 43_host_commands section 3: a start that begins a run establishes the run's invariant, with the stream as it stood. -/
def Obligations.RunInvariantAtStart : Prop :=
  ∀ s : State, s.phase = Phase.idle ∨ s.phase = Phase.done ∨ s.phase = Phase.error → s.size ≠ 0 →
    ∀ t, (exec .start s = .next t ∨ exec .startstep s = .next t) → t.RunInv s.out

/-- 41_packer section 3, part way, for every interleaving of host, sink and block: while the run is active, every event keeps
that the bytes appended since its start are the first `OUTCNT` bytes of its whole output, that the accumulator holds the
current byte's pixels and that the evaluator stands where `EVAL` stands. -/
def Obligations.RunInvariantKept : Prop :=
  ∀ (base : List Byte) (s t : State),
    s.RunInv base → s.active = true → step s = .next t → t.active = true → t.RunInv base

/-- R141: the run that ends in `DONE` has appended exactly the header and the rows, whatever the interleaving was. -/
def Obligations.FinishedRunAppendedWholeImage : Prop :=
  ∀ (base : List Byte) (s t : State),
    s.RunInv base → s.active = true → step s = .next t → t.phase = Phase.done →
    t.out = base ++ imageBytes s.size ∧ t.outcnt.toNat = (imageBytes s.size).length ∧ t.x = 0 ∧ t.y = s.size

/-- R169 with 42_sequencer section 3: with the host quiet and the sink ready a started run performs exactly `N(SIZE)`
micro-steps, ends in `DONE` and has appended its whole output; before that it is still active. That an empty queue gives the block
every turn is the model's choice (log 1). -/
def Obligations.StartedRunCompletes : Prop :=
  ∀ s t : State, s.phase = Phase.idle ∨ s.phase = Phase.done ∨ s.phase = Phase.error → s.size ≠ 0 →
    s.events = [] → s.outReady = true → exec .start s = .next t →
    (∀ j, j < microCount s.size → ∃ u, core.run j t = .next u ∧ u.phase = Phase.run) ∧
    ∃ u, core.run (microCount s.size) t = .next u ∧ u.phase = Phase.done ∧ u.seq = Seq.rowend ∧
      u.out = s.out ++ imageBytes s.size ∧ u.size = s.size ∧ u.cerr = s.cerr

/-! ### The sink -/

/-- 42_sequencer section 2 (the sink change) and section 4 (what lifts a hold): a sink change writes `OUT_READY` and nothing
else but the queue (log 1); with `OUT_READY = 1` it lifts the hold of a due micro-step; and no other event writes
`OUT_READY`. -/
def Obligations.SinkChangeAloneWritesOutReady : Prop :=
  (∀ (s : State) (r : Bool) (rest : List Event),
    s.events = .sinkReady r :: rest → step s = .next { s with events := rest, outReady := r }) ∧
  (∀ s : State, s.nextEvent = .sinkReady true → s.Runs → ∃ t, step s = .next t ∧ t.enabled = true) ∧
  ∀ s t : State, step s = .next t → t.outReady ≠ s.outReady → s.nextEvent = .sinkReady t.outReady
end

