-- ==== Sys2Proof/Laws/State.lean ====
section
/-! SUPPORT. One lemma per field per named update of the state, so that no later proof unfolds a record update. -/

namespace Sys2Proof.Machine

/-! ### `State.reject` -/

@[simp] theorem State.reject_size (s : State) : (s.reject).size = s.size := rfl
@[simp] theorem State.reject_x (s : State) : (s.reject).x = s.x := rfl
@[simp] theorem State.reject_y (s : State) : (s.reject).y = s.y := rfl
@[simp] theorem State.reject_cRe (s : State) : (s.reject).cRe = s.cRe := rfl
@[simp] theorem State.reject_cIm (s : State) : (s.reject).cIm = s.cIm := rfl
@[simp] theorem State.reject_zRe (s : State) : (s.reject).zRe = s.zRe := rfl
@[simp] theorem State.reject_zIm (s : State) : (s.reject).zIm = s.zIm := rfl
@[simp] theorem State.reject_iter (s : State) : (s.reject).iter = s.iter := rfl
@[simp] theorem State.reject_m (s : State) : (s.reject).m = s.m := rfl
@[simp] theorem State.reject_byteAcc (s : State) : (s.reject).byteAcc = s.byteAcc := rfl
@[simp] theorem State.reject_bit (s : State) : (s.reject).bit = s.bit := rfl
@[simp] theorem State.reject_hidx (s : State) : (s.reject).hidx = s.hidx := rfl
@[simp] theorem State.reject_outcnt (s : State) : (s.reject).outcnt = s.outcnt := rfl
@[simp] theorem State.reject_phase (s : State) : (s.reject).phase = s.phase := rfl
@[simp] theorem State.reject_seq (s : State) : (s.reject).seq = s.seq := rfl
@[simp] theorem State.reject_cerr (s : State) : (s.reject).cerr = true := rfl
@[simp] theorem State.reject_szerr (s : State) : (s.reject).szerr = s.szerr := rfl
@[simp] theorem State.reject_spend (s : State) : (s.reject).spend = s.spend := rfl
@[simp] theorem State.reject_out (s : State) : (s.reject).out = s.out := rfl
@[simp] theorem State.reject_outReady (s : State) : (s.reject).outReady = s.outReady := rfl
@[simp] theorem State.reject_events (s : State) : (s.reject).events = s.events := rfl
@[simp] theorem State.reject_reads (s : State) : (s.reject).reads = s.reads := rfl

/-! ### `State.emit` -/

@[simp] theorem State.emit_size (s : State) (b : Byte) : (s.emit b).size = s.size := rfl
@[simp] theorem State.emit_x (s : State) (b : Byte) : (s.emit b).x = s.x := rfl
@[simp] theorem State.emit_y (s : State) (b : Byte) : (s.emit b).y = s.y := rfl
@[simp] theorem State.emit_cRe (s : State) (b : Byte) : (s.emit b).cRe = s.cRe := rfl
@[simp] theorem State.emit_cIm (s : State) (b : Byte) : (s.emit b).cIm = s.cIm := rfl
@[simp] theorem State.emit_zRe (s : State) (b : Byte) : (s.emit b).zRe = s.zRe := rfl
@[simp] theorem State.emit_zIm (s : State) (b : Byte) : (s.emit b).zIm = s.zIm := rfl
@[simp] theorem State.emit_iter (s : State) (b : Byte) : (s.emit b).iter = s.iter := rfl
@[simp] theorem State.emit_m (s : State) (b : Byte) : (s.emit b).m = s.m := rfl
@[simp] theorem State.emit_byteAcc (s : State) (b : Byte) : (s.emit b).byteAcc = s.byteAcc := rfl
@[simp] theorem State.emit_bit (s : State) (b : Byte) : (s.emit b).bit = s.bit := rfl
@[simp] theorem State.emit_hidx (s : State) (b : Byte) : (s.emit b).hidx = s.hidx := rfl
@[simp] theorem State.emit_outcnt (s : State) (b : Byte) : (s.emit b).outcnt = s.outcnt + 1 := rfl
@[simp] theorem State.emit_phase (s : State) (b : Byte) : (s.emit b).phase = s.phase := rfl
@[simp] theorem State.emit_seq (s : State) (b : Byte) : (s.emit b).seq = s.seq := rfl
@[simp] theorem State.emit_cerr (s : State) (b : Byte) : (s.emit b).cerr = s.cerr := rfl
@[simp] theorem State.emit_szerr (s : State) (b : Byte) : (s.emit b).szerr = s.szerr := rfl
@[simp] theorem State.emit_spend (s : State) (b : Byte) : (s.emit b).spend = s.spend := rfl
@[simp] theorem State.emit_out (s : State) (b : Byte) : (s.emit b).out = s.out ++ [b] := rfl
@[simp] theorem State.emit_outReady (s : State) (b : Byte) : (s.emit b).outReady = s.outReady := rfl
@[simp] theorem State.emit_events (s : State) (b : Byte) : (s.emit b).events = s.events := rfl
@[simp] theorem State.emit_reads (s : State) (b : Byte) : (s.emit b).reads = s.reads := rfl

/-! ### `State.initRun` -/

@[simp] theorem State.initRun_size (s : State) (p : Code3) : (s.initRun p).size = s.size := rfl
@[simp] theorem State.initRun_x (s : State) (p : Code3) : (s.initRun p).x = 0 := rfl
@[simp] theorem State.initRun_y (s : State) (p : Code3) : (s.initRun p).y = 0 := rfl
@[simp] theorem State.initRun_cRe (s : State) (p : Code3) : (s.initRun p).cRe = Config.zero := rfl
@[simp] theorem State.initRun_cIm (s : State) (p : Code3) : (s.initRun p).cIm = Config.zero := rfl
@[simp] theorem State.initRun_zRe (s : State) (p : Code3) : (s.initRun p).zRe = Config.zero := rfl
@[simp] theorem State.initRun_zIm (s : State) (p : Code3) : (s.initRun p).zIm = Config.zero := rfl
@[simp] theorem State.initRun_iter (s : State) (p : Code3) : (s.initRun p).iter = 0 := rfl
@[simp] theorem State.initRun_m (s : State) (p : Code3) : (s.initRun p).m = false := rfl
@[simp] theorem State.initRun_byteAcc (s : State) (p : Code3) : (s.initRun p).byteAcc = Config.accInit := rfl
@[simp] theorem State.initRun_bit (s : State) (p : Code3) : (s.initRun p).bit = Config.bitInit := rfl
@[simp] theorem State.initRun_hidx (s : State) (p : Code3) : (s.initRun p).hidx = 0 := rfl
@[simp] theorem State.initRun_outcnt (s : State) (p : Code3) : (s.initRun p).outcnt = 0 := rfl
@[simp] theorem State.initRun_phase (s : State) (p : Code3) : (s.initRun p).phase = p := rfl
@[simp] theorem State.initRun_seq (s : State) (p : Code3) : (s.initRun p).seq = Seq.hdr := rfl
@[simp] theorem State.initRun_cerr (s : State) (p : Code3) : (s.initRun p).cerr = s.cerr := rfl
@[simp] theorem State.initRun_szerr (s : State) (p : Code3) : (s.initRun p).szerr = false := rfl
@[simp] theorem State.initRun_spend (s : State) (p : Code3) : (s.initRun p).spend = false := rfl
@[simp] theorem State.initRun_out (s : State) (p : Code3) : (s.initRun p).out = s.out := rfl
@[simp] theorem State.initRun_outReady (s : State) (p : Code3) : (s.initRun p).outReady = s.outReady := rfl
@[simp] theorem State.initRun_events (s : State) (p : Code3) : (s.initRun p).events = s.events := rfl
@[simp] theorem State.initRun_reads (s : State) (p : Code3) : (s.initRun p).reads = s.reads := rfl

/-! ### `State.refuseSize` -/

@[simp] theorem State.refuseSize_size (s : State) : (s.refuseSize).size = s.size := rfl
@[simp] theorem State.refuseSize_x (s : State) : (s.refuseSize).x = s.x := rfl
@[simp] theorem State.refuseSize_y (s : State) : (s.refuseSize).y = s.y := rfl
@[simp] theorem State.refuseSize_cRe (s : State) : (s.refuseSize).cRe = s.cRe := rfl
@[simp] theorem State.refuseSize_cIm (s : State) : (s.refuseSize).cIm = s.cIm := rfl
@[simp] theorem State.refuseSize_zRe (s : State) : (s.refuseSize).zRe = s.zRe := rfl
@[simp] theorem State.refuseSize_zIm (s : State) : (s.refuseSize).zIm = s.zIm := rfl
@[simp] theorem State.refuseSize_iter (s : State) : (s.refuseSize).iter = s.iter := rfl
@[simp] theorem State.refuseSize_m (s : State) : (s.refuseSize).m = s.m := rfl
@[simp] theorem State.refuseSize_byteAcc (s : State) : (s.refuseSize).byteAcc = s.byteAcc := rfl
@[simp] theorem State.refuseSize_bit (s : State) : (s.refuseSize).bit = s.bit := rfl
@[simp] theorem State.refuseSize_hidx (s : State) : (s.refuseSize).hidx = s.hidx := rfl
@[simp] theorem State.refuseSize_outcnt (s : State) : (s.refuseSize).outcnt = s.outcnt := rfl
@[simp] theorem State.refuseSize_phase (s : State) : (s.refuseSize).phase = Phase.error := rfl
@[simp] theorem State.refuseSize_seq (s : State) : (s.refuseSize).seq = s.seq := rfl
@[simp] theorem State.refuseSize_cerr (s : State) : (s.refuseSize).cerr = s.cerr := rfl
@[simp] theorem State.refuseSize_szerr (s : State) : (s.refuseSize).szerr = true := rfl
@[simp] theorem State.refuseSize_spend (s : State) : (s.refuseSize).spend = s.spend := rfl
@[simp] theorem State.refuseSize_out (s : State) : (s.refuseSize).out = s.out := rfl
@[simp] theorem State.refuseSize_outReady (s : State) : (s.refuseSize).outReady = s.outReady := rfl
@[simp] theorem State.refuseSize_events (s : State) : (s.refuseSize).events = s.events := rfl
@[simp] theorem State.refuseSize_reads (s : State) : (s.refuseSize).reads = s.reads := rfl

/-! ### `State.applyReset` -/

@[simp] theorem State.applyReset_size (s : State) : (s.applyReset).size = State.reset.size := rfl
@[simp] theorem State.applyReset_x (s : State) : (s.applyReset).x = State.reset.x := rfl
@[simp] theorem State.applyReset_y (s : State) : (s.applyReset).y = State.reset.y := rfl
@[simp] theorem State.applyReset_cRe (s : State) : (s.applyReset).cRe = State.reset.cRe := rfl
@[simp] theorem State.applyReset_cIm (s : State) : (s.applyReset).cIm = State.reset.cIm := rfl
@[simp] theorem State.applyReset_zRe (s : State) : (s.applyReset).zRe = State.reset.zRe := rfl
@[simp] theorem State.applyReset_zIm (s : State) : (s.applyReset).zIm = State.reset.zIm := rfl
@[simp] theorem State.applyReset_iter (s : State) : (s.applyReset).iter = State.reset.iter := rfl
@[simp] theorem State.applyReset_m (s : State) : (s.applyReset).m = State.reset.m := rfl
@[simp] theorem State.applyReset_byteAcc (s : State) : (s.applyReset).byteAcc = State.reset.byteAcc := rfl
@[simp] theorem State.applyReset_bit (s : State) : (s.applyReset).bit = State.reset.bit := rfl
@[simp] theorem State.applyReset_hidx (s : State) : (s.applyReset).hidx = State.reset.hidx := rfl
@[simp] theorem State.applyReset_outcnt (s : State) : (s.applyReset).outcnt = State.reset.outcnt := rfl
@[simp] theorem State.applyReset_phase (s : State) : (s.applyReset).phase = State.reset.phase := rfl
@[simp] theorem State.applyReset_seq (s : State) : (s.applyReset).seq = State.reset.seq := rfl
@[simp] theorem State.applyReset_cerr (s : State) : (s.applyReset).cerr = State.reset.cerr := rfl
@[simp] theorem State.applyReset_szerr (s : State) : (s.applyReset).szerr = State.reset.szerr := rfl
@[simp] theorem State.applyReset_spend (s : State) : (s.applyReset).spend = State.reset.spend := rfl
@[simp] theorem State.applyReset_out (s : State) : (s.applyReset).out = s.out := rfl
@[simp] theorem State.applyReset_outReady (s : State) : (s.applyReset).outReady = s.outReady := rfl
@[simp] theorem State.applyReset_events (s : State) : (s.applyReset).events = s.events := rfl
@[simp] theorem State.applyReset_reads (s : State) : (s.applyReset).reads = s.reads := rfl

/-! ### `State.recordRead` -/

@[simp] theorem State.recordRead_size (s : State) (w : Word32) : (s.recordRead w).size = s.size := rfl
@[simp] theorem State.recordRead_x (s : State) (w : Word32) : (s.recordRead w).x = s.x := rfl
@[simp] theorem State.recordRead_y (s : State) (w : Word32) : (s.recordRead w).y = s.y := rfl
@[simp] theorem State.recordRead_cRe (s : State) (w : Word32) : (s.recordRead w).cRe = s.cRe := rfl
@[simp] theorem State.recordRead_cIm (s : State) (w : Word32) : (s.recordRead w).cIm = s.cIm := rfl
@[simp] theorem State.recordRead_zRe (s : State) (w : Word32) : (s.recordRead w).zRe = s.zRe := rfl
@[simp] theorem State.recordRead_zIm (s : State) (w : Word32) : (s.recordRead w).zIm = s.zIm := rfl
@[simp] theorem State.recordRead_iter (s : State) (w : Word32) : (s.recordRead w).iter = s.iter := rfl
@[simp] theorem State.recordRead_m (s : State) (w : Word32) : (s.recordRead w).m = s.m := rfl
@[simp] theorem State.recordRead_byteAcc (s : State) (w : Word32) : (s.recordRead w).byteAcc = s.byteAcc := rfl
@[simp] theorem State.recordRead_bit (s : State) (w : Word32) : (s.recordRead w).bit = s.bit := rfl
@[simp] theorem State.recordRead_hidx (s : State) (w : Word32) : (s.recordRead w).hidx = s.hidx := rfl
@[simp] theorem State.recordRead_outcnt (s : State) (w : Word32) : (s.recordRead w).outcnt = s.outcnt := rfl
@[simp] theorem State.recordRead_phase (s : State) (w : Word32) : (s.recordRead w).phase = s.phase := rfl
@[simp] theorem State.recordRead_seq (s : State) (w : Word32) : (s.recordRead w).seq = s.seq := rfl
@[simp] theorem State.recordRead_cerr (s : State) (w : Word32) : (s.recordRead w).cerr = s.cerr := rfl
@[simp] theorem State.recordRead_szerr (s : State) (w : Word32) : (s.recordRead w).szerr = s.szerr := rfl
@[simp] theorem State.recordRead_spend (s : State) (w : Word32) : (s.recordRead w).spend = s.spend := rfl
@[simp] theorem State.recordRead_out (s : State) (w : Word32) : (s.recordRead w).out = s.out := rfl
@[simp] theorem State.recordRead_outReady (s : State) (w : Word32) : (s.recordRead w).outReady = s.outReady := rfl
@[simp] theorem State.recordRead_events (s : State) (w : Word32) : (s.recordRead w).events = s.events := rfl
@[simp] theorem State.recordRead_reads (s : State) (w : Word32) : (s.recordRead w).reads = s.reads ++ [w] := rfl

/-! ### `State.setReady` -/

@[simp] theorem State.setReady_size (s : State) (r : Bool) : (s.setReady r).size = s.size := rfl
@[simp] theorem State.setReady_x (s : State) (r : Bool) : (s.setReady r).x = s.x := rfl
@[simp] theorem State.setReady_y (s : State) (r : Bool) : (s.setReady r).y = s.y := rfl
@[simp] theorem State.setReady_cRe (s : State) (r : Bool) : (s.setReady r).cRe = s.cRe := rfl
@[simp] theorem State.setReady_cIm (s : State) (r : Bool) : (s.setReady r).cIm = s.cIm := rfl
@[simp] theorem State.setReady_zRe (s : State) (r : Bool) : (s.setReady r).zRe = s.zRe := rfl
@[simp] theorem State.setReady_zIm (s : State) (r : Bool) : (s.setReady r).zIm = s.zIm := rfl
@[simp] theorem State.setReady_iter (s : State) (r : Bool) : (s.setReady r).iter = s.iter := rfl
@[simp] theorem State.setReady_m (s : State) (r : Bool) : (s.setReady r).m = s.m := rfl
@[simp] theorem State.setReady_byteAcc (s : State) (r : Bool) : (s.setReady r).byteAcc = s.byteAcc := rfl
@[simp] theorem State.setReady_bit (s : State) (r : Bool) : (s.setReady r).bit = s.bit := rfl
@[simp] theorem State.setReady_hidx (s : State) (r : Bool) : (s.setReady r).hidx = s.hidx := rfl
@[simp] theorem State.setReady_outcnt (s : State) (r : Bool) : (s.setReady r).outcnt = s.outcnt := rfl
@[simp] theorem State.setReady_phase (s : State) (r : Bool) : (s.setReady r).phase = s.phase := rfl
@[simp] theorem State.setReady_seq (s : State) (r : Bool) : (s.setReady r).seq = s.seq := rfl
@[simp] theorem State.setReady_cerr (s : State) (r : Bool) : (s.setReady r).cerr = s.cerr := rfl
@[simp] theorem State.setReady_szerr (s : State) (r : Bool) : (s.setReady r).szerr = s.szerr := rfl
@[simp] theorem State.setReady_spend (s : State) (r : Bool) : (s.setReady r).spend = s.spend := rfl
@[simp] theorem State.setReady_out (s : State) (r : Bool) : (s.setReady r).out = s.out := rfl
@[simp] theorem State.setReady_outReady (s : State) (r : Bool) : (s.setReady r).outReady = r := rfl
@[simp] theorem State.setReady_events (s : State) (r : Bool) : (s.setReady r).events = s.events := rfl
@[simp] theorem State.setReady_reads (s : State) (r : Bool) : (s.setReady r).reads = s.reads := rfl

/-! ### `State.endMicro` -/

@[simp] theorem State.endMicro_size (s t : State) : (s.endMicro t).size = t.size := by
  unfold State.endMicro; split <;> rfl
@[simp] theorem State.endMicro_x (s t : State) : (s.endMicro t).x = t.x := by
  unfold State.endMicro; split <;> rfl
@[simp] theorem State.endMicro_y (s t : State) : (s.endMicro t).y = t.y := by
  unfold State.endMicro; split <;> rfl
@[simp] theorem State.endMicro_cRe (s t : State) : (s.endMicro t).cRe = t.cRe := by
  unfold State.endMicro; split <;> rfl
@[simp] theorem State.endMicro_cIm (s t : State) : (s.endMicro t).cIm = t.cIm := by
  unfold State.endMicro; split <;> rfl
@[simp] theorem State.endMicro_zRe (s t : State) : (s.endMicro t).zRe = t.zRe := by
  unfold State.endMicro; split <;> rfl
@[simp] theorem State.endMicro_zIm (s t : State) : (s.endMicro t).zIm = t.zIm := by
  unfold State.endMicro; split <;> rfl
@[simp] theorem State.endMicro_iter (s t : State) : (s.endMicro t).iter = t.iter := by
  unfold State.endMicro; split <;> rfl
@[simp] theorem State.endMicro_m (s t : State) : (s.endMicro t).m = t.m := by
  unfold State.endMicro; split <;> rfl
@[simp] theorem State.endMicro_byteAcc (s t : State) : (s.endMicro t).byteAcc = t.byteAcc := by
  unfold State.endMicro; split <;> rfl
@[simp] theorem State.endMicro_bit (s t : State) : (s.endMicro t).bit = t.bit := by
  unfold State.endMicro; split <;> rfl
@[simp] theorem State.endMicro_hidx (s t : State) : (s.endMicro t).hidx = t.hidx := by
  unfold State.endMicro; split <;> rfl
@[simp] theorem State.endMicro_outcnt (s t : State) : (s.endMicro t).outcnt = t.outcnt := by
  unfold State.endMicro; split <;> rfl
@[simp] theorem State.endMicro_phase (s t : State) : (s.endMicro t).phase = t.phase := by
  unfold State.endMicro; split <;> rfl
@[simp] theorem State.endMicro_seq (s t : State) : (s.endMicro t).seq = t.seq := by
  unfold State.endMicro; split <;> rfl
@[simp] theorem State.endMicro_cerr (s t : State) : (s.endMicro t).cerr = t.cerr := by
  unfold State.endMicro; split <;> rfl
@[simp] theorem State.endMicro_szerr (s t : State) : (s.endMicro t).szerr = t.szerr := by
  unfold State.endMicro; split <;> rfl
@[simp] theorem State.endMicro_spend (s t : State) :
    (s.endMicro t).spend = if s.phase = Phase.halt then false else t.spend := by
  unfold State.endMicro; split <;> rfl
@[simp] theorem State.endMicro_out (s t : State) : (s.endMicro t).out = t.out := by
  unfold State.endMicro; split <;> rfl
@[simp] theorem State.endMicro_outReady (s t : State) : (s.endMicro t).outReady = t.outReady := by
  unfold State.endMicro; split <;> rfl
@[simp] theorem State.endMicro_events (s t : State) : (s.endMicro t).events = t.events := by
  unfold State.endMicro; split <;> rfl
@[simp] theorem State.endMicro_reads (s t : State) : (s.endMicro t).reads = t.reads := by
  unfold State.endMicro; split <;> rfl

/-! ### `State.beginRun` -/

@[simp] theorem State.beginRun_size (s : State) (p : Code3) :
    (s.beginRun p).size = s.size := by
  unfold State.beginRun; split <;> rfl
@[simp] theorem State.beginRun_x (s : State) (p : Code3) :
    (s.beginRun p).x = if s.size = 0 then s.x else 0 := by
  unfold State.beginRun; split <;> rfl
@[simp] theorem State.beginRun_y (s : State) (p : Code3) :
    (s.beginRun p).y = if s.size = 0 then s.y else 0 := by
  unfold State.beginRun; split <;> rfl
@[simp] theorem State.beginRun_cRe (s : State) (p : Code3) :
    (s.beginRun p).cRe = if s.size = 0 then s.cRe else Config.zero := by
  unfold State.beginRun; split <;> rfl
@[simp] theorem State.beginRun_cIm (s : State) (p : Code3) :
    (s.beginRun p).cIm = if s.size = 0 then s.cIm else Config.zero := by
  unfold State.beginRun; split <;> rfl
@[simp] theorem State.beginRun_zRe (s : State) (p : Code3) :
    (s.beginRun p).zRe = if s.size = 0 then s.zRe else Config.zero := by
  unfold State.beginRun; split <;> rfl
@[simp] theorem State.beginRun_zIm (s : State) (p : Code3) :
    (s.beginRun p).zIm = if s.size = 0 then s.zIm else Config.zero := by
  unfold State.beginRun; split <;> rfl
@[simp] theorem State.beginRun_iter (s : State) (p : Code3) :
    (s.beginRun p).iter = if s.size = 0 then s.iter else 0 := by
  unfold State.beginRun; split <;> rfl
@[simp] theorem State.beginRun_m (s : State) (p : Code3) :
    (s.beginRun p).m = if s.size = 0 then s.m else false := by
  unfold State.beginRun; split <;> rfl
@[simp] theorem State.beginRun_byteAcc (s : State) (p : Code3) :
    (s.beginRun p).byteAcc = if s.size = 0 then s.byteAcc else Config.accInit := by
  unfold State.beginRun; split <;> rfl
@[simp] theorem State.beginRun_bit (s : State) (p : Code3) :
    (s.beginRun p).bit = if s.size = 0 then s.bit else Config.bitInit := by
  unfold State.beginRun; split <;> rfl
@[simp] theorem State.beginRun_hidx (s : State) (p : Code3) :
    (s.beginRun p).hidx = if s.size = 0 then s.hidx else 0 := by
  unfold State.beginRun; split <;> rfl
@[simp] theorem State.beginRun_outcnt (s : State) (p : Code3) :
    (s.beginRun p).outcnt = if s.size = 0 then s.outcnt else 0 := by
  unfold State.beginRun; split <;> rfl
@[simp] theorem State.beginRun_phase (s : State) (p : Code3) :
    (s.beginRun p).phase = if s.size = 0 then Phase.error else p := by
  unfold State.beginRun; split <;> rfl
@[simp] theorem State.beginRun_seq (s : State) (p : Code3) :
    (s.beginRun p).seq = if s.size = 0 then s.seq else Seq.hdr := by
  unfold State.beginRun; split <;> rfl
@[simp] theorem State.beginRun_cerr (s : State) (p : Code3) :
    (s.beginRun p).cerr = s.cerr := by
  unfold State.beginRun; split <;> rfl
@[simp] theorem State.beginRun_szerr (s : State) (p : Code3) :
    (s.beginRun p).szerr = if s.size = 0 then true else false := by
  unfold State.beginRun; split <;> rfl
@[simp] theorem State.beginRun_spend (s : State) (p : Code3) :
    (s.beginRun p).spend = if s.size = 0 then s.spend else false := by
  unfold State.beginRun; split <;> rfl
@[simp] theorem State.beginRun_out (s : State) (p : Code3) :
    (s.beginRun p).out = s.out := by
  unfold State.beginRun; split <;> rfl
@[simp] theorem State.beginRun_outReady (s : State) (p : Code3) :
    (s.beginRun p).outReady = s.outReady := by
  unfold State.beginRun; split <;> rfl
@[simp] theorem State.beginRun_events (s : State) (p : Code3) :
    (s.beginRun p).events = s.events := by
  unfold State.beginRun; split <;> rfl
@[simp] theorem State.beginRun_reads (s : State) (p : Code3) :
    (s.beginRun p).reads = s.reads := by
  unfold State.beginRun; split <;> rfl

end Sys2Proof.Machine
end

