-- ==== Sys2Proof/Laws/Ops.lean ====
section
/-! SUPPORT. What each shared operation can do, said once: a claim cites these lemmas and does not unfold the operation. -/

namespace Sys2Proof.Machine

open Host

/-! ### Counts -/

theorem fit_of_lt {w n : Nat} (h : n < 2 ^ w) : fit w n = BitVec.ofNat w n := by simp [fit, h]

theorem fit_toNat {w n : Nat} (h : n < 2 ^ w) : (fit w n).toNat = n := by
  rw [fit_of_lt h, BitVec.toNat_ofNat, Nat.mod_eq_of_lt h]

/-- A count that goes up by one and fits is the register plus one. -/
theorem fit_succ {w : Nat} {v : BitVec w} (h : v.toNat + 1 < 2 ^ w) : fit w (v.toNat + 1) = v + 1 := by
  apply BitVec.eq_of_toNat_eq
  rw [fit_toNat h]
  simp [BitVec.toNat_add, Nat.mod_eq_of_lt h]

/-! ### Codes and phases -/

theorem State.granted_iff (s : State) :
    s.granted = true ↔ s.phase = Phase.run ∨ (s.phase = Phase.halt ∧ s.spend = true) := by
  simp [State.granted]

theorem State.active_iff (s : State) : s.active = true ↔ s.phase = Phase.run ∨ s.phase = Phase.halt := by
  simp [State.active]

theorem State.noRun_iff (s : State) :
    s.noRun = true ↔ s.phase = Phase.idle ∨ s.phase = Phase.done ∨ s.phase = Phase.error := by
  simp [State.noRun, or_assoc]

theorem State.emits_iff (s : State) :
    s.emits = true ↔ s.seq = Seq.hdr ∨ (s.seq = Seq.push ∧ s.bit = 1) ∨
      (s.seq = Seq.rowend ∧ s.bit ≠ Config.bitInit) := by
  simp [State.emits, or_assoc]

theorem State.enabled_iff (s : State) :
    s.enabled = true ↔ s.granted = true ∧ (s.emits = true → s.outReady = true) := by
  unfold State.enabled
  cases s.granted <;> cases s.emits <;> simp

theorem State.active_of_granted {s : State} (h : s.granted = true) : s.active = true := by
  rcases (s.granted_iff).1 h with h | ⟨h, -⟩ <;> simp [State.active, h]

theorem State.phaseHeld_of_active {s : State} (h : s.active = true) : s.phaseHeld = true := by
  rcases (s.active_iff).1 h with h | h <;> simp [State.phaseHeld, h]

theorem State.phaseHeld_of_noRun {s : State} (h : s.noRun = true) : s.phaseHeld = true := by
  rcases (s.noRun_iff).1 h with h | h | h <;> simp [State.phaseHeld, h]

theorem State.not_active_of_noRun {s : State} (h : s.noRun = true) : s.active = false := by
  rcases (s.noRun_iff).1 h with h | h | h <;> simp [State.active, h]

/-- In a held phase code the run is active or none is: the two halves of R31. -/
theorem State.noRun_eq_not_active {s : State} (h : s.phaseHeld = true) : s.noRun = !s.active := by
  obtain ⟨n, hn⟩ : ∃ n, s.phase.toNat = n := ⟨_, rfl⟩
  have h4 : n ≤ 4 := by simpa [State.phaseHeld, hn] using h
  have hp : s.phase = BitVec.ofNat 3 n := by
    rw [← hn]; simp
  interval_cases n <;> simp [State.noRun, State.active, hp]

/-! ### A decoded command -/

/-- What a command's frame can answer: its effect where it is legal, the sticky flag where it is not. -/
theorem performCommand_next {i : Instr} {act : State → State} {s t : State}
    (h : performCommand i act s = .next t) :
    s.phaseHeld = true ∧ ((legal s i = true ∧ t = act s) ∨ (legal s i = false ∧ t = s.reject)) := by
  unfold performCommand at h
  split at h
  · rename_i hp
    refine ⟨hp, ?_⟩
    split at h
    · rename_i hl; cases h; exact .inl ⟨hl, rfl⟩
    · rename_i hl; cases h; exact .inr ⟨by simpa using hl, rfl⟩
  · cases h

theorem performCommand_of_legal {i : Instr} {act : State → State} {s : State} (hp : s.phaseHeld = true)
    (hl : legal s i = true) : performCommand i act s = .next (act s) := by simp [performCommand, hp, hl]

theorem performCommand_of_not_legal {i : Instr} {act : State → State} {s : State} (hp : s.phaseHeld = true)
    (hl : legal s i = false) : performCommand i act s = .next s.reject := by simp [performCommand, hp, hl]

theorem performCommand_of_phase {i : Instr} {act : State → State} {s : State} (hp : s.phaseHeld = false) :
    performCommand i act s = .fault (.unreachablePhase s.phase) := by simp [performCommand, hp]

/-! ### A micro-step -/

/-- What a micro-step's frame can answer: the effect with R165's bookkeeping where it is enabled and in turn, else the
state as it is. -/
theorem performMicro_next {code : Code3} {act : State → State} {s t : State}
    (h : performMicro code act s = .next t) :
    s.phaseHeld = true ∧
      ((s.seqHeld = true ∧ s.seq = code ∧ s.enabled = true ∧ t = s.endMicro (act s)) ∨
        (¬(s.seq = code ∧ s.enabled = true) ∧ t = s)) := by
  unfold performMicro at h
  split at h
  · rename_i hp
    refine ⟨hp, ?_⟩
    split at h
    · split at h
      · rename_i hs
        split at h
        · rename_i he; cases h; exact .inl ⟨hs, he.1, he.2, rfl⟩
        · rename_i he; cases h; exact .inr ⟨he, rfl⟩
      · cases h
    · rename_i hg
      cases h
      refine .inr ⟨fun he => hg ?_, rfl⟩
      exact ((s.enabled_iff).1 he.2).1
  · cases h

theorem performMicro_of_enabled {code : Code3} {act : State → State} {s : State} (hc : s.seqHeld = true)
    (hs : s.seq = code) (he : s.enabled = true) : performMicro code act s = .next (s.endMicro (act s)) := by
  have hg : s.granted = true := ((s.enabled_iff).1 he).1
  have hp : s.phaseHeld = true := State.phaseHeld_of_active (State.active_of_granted hg)
  simp [performMicro, hp, hg, hc, hs, he]

theorem performMicro_of_not_enabled {code : Code3} {act : State → State} {s : State} (hp : s.phaseHeld = true)
    (hc : s.granted = true → s.seqHeld = true) (he : ¬(s.seq = code ∧ s.enabled = true)) :
    performMicro code act s = .next s := by
  unfold performMicro
  by_cases hg : s.granted = true
  · simp [hp, hg, hc hg, he]
  · simp [hp, hg]

theorem performMicro_of_seq {code : Code3} {act : State → State} {s : State} (hg : s.granted = true)
    (hc : s.seqHeld = false) : performMicro code act s = .fault (.unreachableSeq s.seq) := by
  have hp : s.phaseHeld = true := State.phaseHeld_of_active (State.active_of_granted hg)
  simp [performMicro, hp, hg, hc]

theorem performMicro_of_phase {code : Code3} {act : State → State} {s : State} (hp : s.phaseHeld = false) :
    performMicro code act s = .fault (.unreachablePhase s.phase) := by simp [performMicro, hp]

/-! ### A start -/

theorem State.beginRun_of_zero {s : State} (p : Code3) (h : s.size = 0) : s.beginRun p = s.refuseSize := if_pos h

theorem State.beginRun_of_ne {s : State} (p : Code3) (h : s.size ≠ 0) : s.beginRun p = s.initRun p := if_neg h

end Sys2Proof.Machine
end

