-- ==== Sys2Proof/Laws/Effects.lean ====
section
/-! SUPPORT. The fields of what each micro-step writes: one lemma per field, changed or not. The proofs split the state
first, so that `simp` uses each as an equation with a proof and leaves no definitional check to the kernel: comparing two
states field by field would make it evaluate binary64 arithmetic on variables. -/

namespace Sys2Proof.Machine

/-! ### `hdrEffect` -/

@[simp] theorem hdrEffect_size (s : State) : (hdrEffect s).size =
    s.size := by cases s; rfl
@[simp] theorem hdrEffect_x (s : State) : (hdrEffect s).x =
    s.x := by cases s; rfl
@[simp] theorem hdrEffect_y (s : State) : (hdrEffect s).y =
    s.y := by cases s; rfl
@[simp] theorem hdrEffect_cRe (s : State) : (hdrEffect s).cRe =
    s.cRe := by cases s; rfl
@[simp] theorem hdrEffect_cIm (s : State) : (hdrEffect s).cIm =
    s.cIm := by cases s; rfl
@[simp] theorem hdrEffect_zRe (s : State) : (hdrEffect s).zRe =
    s.zRe := by cases s; rfl
@[simp] theorem hdrEffect_zIm (s : State) : (hdrEffect s).zIm =
    s.zIm := by cases s; rfl
@[simp] theorem hdrEffect_iter (s : State) : (hdrEffect s).iter =
    s.iter := by cases s; rfl
@[simp] theorem hdrEffect_m (s : State) : (hdrEffect s).m =
    s.m := by cases s; rfl
@[simp] theorem hdrEffect_byteAcc (s : State) : (hdrEffect s).byteAcc =
    s.byteAcc := by cases s; rfl
@[simp] theorem hdrEffect_bit (s : State) : (hdrEffect s).bit =
    s.bit := by cases s; rfl
@[simp] theorem hdrEffect_hidx (s : State) : (hdrEffect s).hidx =
    fit 4 (s.hidx.toNat + 1) := by cases s; rfl
@[simp] theorem hdrEffect_outcnt (s : State) : (hdrEffect s).outcnt =
    s.outcnt + 1 := by cases s; rfl
@[simp] theorem hdrEffect_phase (s : State) : (hdrEffect s).phase =
    s.phase := by cases s; rfl
@[simp] theorem hdrEffect_seq (s : State) : (hdrEffect s).seq =
    if s.hidx.toNat + 1 = (headerBytes s.size).length then Seq.map else s.seq := by cases s; rfl
@[simp] theorem hdrEffect_cerr (s : State) : (hdrEffect s).cerr =
    s.cerr := by cases s; rfl
@[simp] theorem hdrEffect_szerr (s : State) : (hdrEffect s).szerr =
    s.szerr := by cases s; rfl
@[simp] theorem hdrEffect_spend (s : State) : (hdrEffect s).spend =
    s.spend := by cases s; rfl
@[simp] theorem hdrEffect_out (s : State) : (hdrEffect s).out =
    s.out ++ [headerByte s.size s.hidx.toNat] := by cases s; rfl
@[simp] theorem hdrEffect_outReady (s : State) : (hdrEffect s).outReady =
    s.outReady := by cases s; rfl
@[simp] theorem hdrEffect_events (s : State) : (hdrEffect s).events =
    s.events := by cases s; rfl
@[simp] theorem hdrEffect_reads (s : State) : (hdrEffect s).reads =
    s.reads := by cases s; rfl

/-! ### `mapEffect` -/

@[simp] theorem mapEffect_size (N : Numerics) (s : State) : (mapEffect N s).size =
    s.size := by cases s; rfl
@[simp] theorem mapEffect_x (N : Numerics) (s : State) : (mapEffect N s).x =
    s.x := by cases s; rfl
@[simp] theorem mapEffect_y (N : Numerics) (s : State) : (mapEffect N s).y =
    s.y := by cases s; rfl
@[simp] theorem mapEffect_cRe (N : Numerics) (s : State) : (mapEffect N s).cRe =
    (mapC N s.x.toNat s.y.toNat s.size.toNat).1 := by cases s; rfl
@[simp] theorem mapEffect_cIm (N : Numerics) (s : State) : (mapEffect N s).cIm =
    (mapC N s.x.toNat s.y.toNat s.size.toNat).2 := by cases s; rfl
@[simp] theorem mapEffect_zRe (N : Numerics) (s : State) : (mapEffect N s).zRe =
    Config.zero := by cases s; rfl
@[simp] theorem mapEffect_zIm (N : Numerics) (s : State) : (mapEffect N s).zIm =
    Config.zero := by cases s; rfl
@[simp] theorem mapEffect_iter (N : Numerics) (s : State) : (mapEffect N s).iter =
    0 := by cases s; rfl
@[simp] theorem mapEffect_m (N : Numerics) (s : State) : (mapEffect N s).m =
    false := by cases s; rfl
@[simp] theorem mapEffect_byteAcc (N : Numerics) (s : State) : (mapEffect N s).byteAcc =
    s.byteAcc := by cases s; rfl
@[simp] theorem mapEffect_bit (N : Numerics) (s : State) : (mapEffect N s).bit =
    s.bit := by cases s; rfl
@[simp] theorem mapEffect_hidx (N : Numerics) (s : State) : (mapEffect N s).hidx =
    s.hidx := by cases s; rfl
@[simp] theorem mapEffect_outcnt (N : Numerics) (s : State) : (mapEffect N s).outcnt =
    s.outcnt := by cases s; rfl
@[simp] theorem mapEffect_phase (N : Numerics) (s : State) : (mapEffect N s).phase =
    s.phase := by cases s; rfl
@[simp] theorem mapEffect_seq (N : Numerics) (s : State) : (mapEffect N s).seq =
    Seq.iterate := by cases s; rfl
@[simp] theorem mapEffect_cerr (N : Numerics) (s : State) : (mapEffect N s).cerr =
    s.cerr := by cases s; rfl
@[simp] theorem mapEffect_szerr (N : Numerics) (s : State) : (mapEffect N s).szerr =
    s.szerr := by cases s; rfl
@[simp] theorem mapEffect_spend (N : Numerics) (s : State) : (mapEffect N s).spend =
    s.spend := by cases s; rfl
@[simp] theorem mapEffect_out (N : Numerics) (s : State) : (mapEffect N s).out =
    s.out := by cases s; rfl
@[simp] theorem mapEffect_outReady (N : Numerics) (s : State) : (mapEffect N s).outReady =
    s.outReady := by cases s; rfl
@[simp] theorem mapEffect_events (N : Numerics) (s : State) : (mapEffect N s).events =
    s.events := by cases s; rfl
@[simp] theorem mapEffect_reads (N : Numerics) (s : State) : (mapEffect N s).reads =
    s.reads := by cases s; rfl

/-! ### `iterateEffect` -/

@[simp] theorem iterateEffect_size (N : Numerics) (s : State) : (iterateEffect N s).size =
    s.size := by cases s; rfl
@[simp] theorem iterateEffect_x (N : Numerics) (s : State) : (iterateEffect N s).x =
    s.x := by cases s; rfl
@[simp] theorem iterateEffect_y (N : Numerics) (s : State) : (iterateEffect N s).y =
    s.y := by cases s; rfl
@[simp] theorem iterateEffect_cRe (N : Numerics) (s : State) : (iterateEffect N s).cRe =
    s.cRe := by cases s; rfl
@[simp] theorem iterateEffect_cIm (N : Numerics) (s : State) : (iterateEffect N s).cIm =
    s.cIm := by cases s; rfl
@[simp] theorem iterateEffect_zRe (N : Numerics) (s : State) : (iterateEffect N s).zRe =
    (stepZ N (s.zRe, s.zIm) (s.cRe, s.cIm)).1 := by cases s; rfl
@[simp] theorem iterateEffect_zIm (N : Numerics) (s : State) : (iterateEffect N s).zIm =
    (stepZ N (s.zRe, s.zIm) (s.cRe, s.cIm)).2 := by cases s; rfl
@[simp] theorem iterateEffect_iter (N : Numerics) (s : State) : (iterateEffect N s).iter =
    fit 6 (s.iter.toNat + 1) := by cases s; rfl
@[simp] theorem iterateEffect_m (N : Numerics) (s : State) : (iterateEffect N s).m =
    (if escaped N (stepZ N (s.zRe, s.zIm) (s.cRe, s.cIm)) then false
      else if s.iter.toNat + 1 = Config.maxIter then true else s.m) := by cases s; rfl
@[simp] theorem iterateEffect_byteAcc (N : Numerics) (s : State) : (iterateEffect N s).byteAcc =
    s.byteAcc := by cases s; rfl
@[simp] theorem iterateEffect_bit (N : Numerics) (s : State) : (iterateEffect N s).bit =
    s.bit := by cases s; rfl
@[simp] theorem iterateEffect_hidx (N : Numerics) (s : State) : (iterateEffect N s).hidx =
    s.hidx := by cases s; rfl
@[simp] theorem iterateEffect_outcnt (N : Numerics) (s : State) : (iterateEffect N s).outcnt =
    s.outcnt := by cases s; rfl
@[simp] theorem iterateEffect_phase (N : Numerics) (s : State) : (iterateEffect N s).phase =
    s.phase := by cases s; rfl
@[simp] theorem iterateEffect_seq (N : Numerics) (s : State) : (iterateEffect N s).seq =
    (if escaped N (stepZ N (s.zRe, s.zIm) (s.cRe, s.cIm)) ∨ s.iter.toNat + 1 = Config.maxIter then Seq.push
      else Seq.iterate) := by cases s; rfl
@[simp] theorem iterateEffect_cerr (N : Numerics) (s : State) : (iterateEffect N s).cerr =
    s.cerr := by cases s; rfl
@[simp] theorem iterateEffect_szerr (N : Numerics) (s : State) : (iterateEffect N s).szerr =
    s.szerr := by cases s; rfl
@[simp] theorem iterateEffect_spend (N : Numerics) (s : State) : (iterateEffect N s).spend =
    s.spend := by cases s; rfl
@[simp] theorem iterateEffect_out (N : Numerics) (s : State) : (iterateEffect N s).out =
    s.out := by cases s; rfl
@[simp] theorem iterateEffect_outReady (N : Numerics) (s : State) : (iterateEffect N s).outReady =
    s.outReady := by cases s; rfl
@[simp] theorem iterateEffect_events (N : Numerics) (s : State) : (iterateEffect N s).events =
    s.events := by cases s; rfl
@[simp] theorem iterateEffect_reads (N : Numerics) (s : State) : (iterateEffect N s).reads =
    s.reads := by cases s; rfl

/-! ### `packBit` -/

@[simp] theorem packBit_size (s : State) : (packBit s).size =
    s.size := by
  unfold packBit; split <;> rfl
@[simp] theorem packBit_x (s : State) : (packBit s).x =
    s.x := by
  unfold packBit; split <;> rfl
@[simp] theorem packBit_y (s : State) : (packBit s).y =
    s.y := by
  unfold packBit; split <;> rfl
@[simp] theorem packBit_cRe (s : State) : (packBit s).cRe =
    s.cRe := by
  unfold packBit; split <;> rfl
@[simp] theorem packBit_cIm (s : State) : (packBit s).cIm =
    s.cIm := by
  unfold packBit; split <;> rfl
@[simp] theorem packBit_zRe (s : State) : (packBit s).zRe =
    s.zRe := by
  unfold packBit; split <;> rfl
@[simp] theorem packBit_zIm (s : State) : (packBit s).zIm =
    s.zIm := by
  unfold packBit; split <;> rfl
@[simp] theorem packBit_iter (s : State) : (packBit s).iter =
    s.iter := by
  unfold packBit; split <;> rfl
@[simp] theorem packBit_m (s : State) : (packBit s).m =
    s.m := by
  unfold packBit; split <;> rfl
@[simp] theorem packBit_byteAcc (s : State) : (packBit s).byteAcc =
    if s.bit = 1 then Config.accInit else pushedAcc s := by
  unfold packBit; split <;> rfl
@[simp] theorem packBit_bit (s : State) : (packBit s).bit =
    if s.bit = 1 then Config.bitInit else s.bit >>> 1 := by
  unfold packBit; split <;> rfl
@[simp] theorem packBit_hidx (s : State) : (packBit s).hidx =
    s.hidx := by
  unfold packBit; split <;> rfl
@[simp] theorem packBit_outcnt (s : State) : (packBit s).outcnt =
    if s.bit = 1 then s.outcnt + 1 else s.outcnt := by
  unfold packBit; split <;> rfl
@[simp] theorem packBit_phase (s : State) : (packBit s).phase =
    s.phase := by
  unfold packBit; split <;> rfl
@[simp] theorem packBit_seq (s : State) : (packBit s).seq =
    s.seq := by
  unfold packBit; split <;> rfl
@[simp] theorem packBit_cerr (s : State) : (packBit s).cerr =
    s.cerr := by
  unfold packBit; split <;> rfl
@[simp] theorem packBit_szerr (s : State) : (packBit s).szerr =
    s.szerr := by
  unfold packBit; split <;> rfl
@[simp] theorem packBit_spend (s : State) : (packBit s).spend =
    s.spend := by
  unfold packBit; split <;> rfl
@[simp] theorem packBit_out (s : State) : (packBit s).out =
    if s.bit = 1 then s.out ++ [pushedAcc s] else s.out := by
  unfold packBit; split <;> rfl
@[simp] theorem packBit_outReady (s : State) : (packBit s).outReady =
    s.outReady := by
  unfold packBit; split <;> rfl
@[simp] theorem packBit_events (s : State) : (packBit s).events =
    s.events := by
  unfold packBit; split <;> rfl
@[simp] theorem packBit_reads (s : State) : (packBit s).reads =
    s.reads := by
  unfold packBit; split <;> rfl

/-! ### `pushEffect` -/

@[simp] theorem pushEffect_size (s : State) : (pushEffect s).size =
    s.size := packBit_size s
@[simp] theorem pushEffect_x (s : State) : (pushEffect s).x =
    fit 16 (s.x.toNat + 1) := by cases s; rfl
@[simp] theorem pushEffect_y (s : State) : (pushEffect s).y =
    s.y := packBit_y s
@[simp] theorem pushEffect_cRe (s : State) : (pushEffect s).cRe =
    s.cRe := packBit_cRe s
@[simp] theorem pushEffect_cIm (s : State) : (pushEffect s).cIm =
    s.cIm := packBit_cIm s
@[simp] theorem pushEffect_zRe (s : State) : (pushEffect s).zRe =
    s.zRe := packBit_zRe s
@[simp] theorem pushEffect_zIm (s : State) : (pushEffect s).zIm =
    s.zIm := packBit_zIm s
@[simp] theorem pushEffect_iter (s : State) : (pushEffect s).iter =
    s.iter := packBit_iter s
@[simp] theorem pushEffect_m (s : State) : (pushEffect s).m =
    s.m := packBit_m s
@[simp] theorem pushEffect_byteAcc (s : State) : (pushEffect s).byteAcc =
    (if s.bit = 1 then Config.accInit else pushedAcc s) := packBit_byteAcc s
@[simp] theorem pushEffect_bit (s : State) : (pushEffect s).bit =
    (if s.bit = 1 then Config.bitInit else s.bit >>> 1) := packBit_bit s
@[simp] theorem pushEffect_hidx (s : State) : (pushEffect s).hidx =
    s.hidx := packBit_hidx s
@[simp] theorem pushEffect_outcnt (s : State) : (pushEffect s).outcnt =
    (if s.bit = 1 then s.outcnt + 1 else s.outcnt) := packBit_outcnt s
@[simp] theorem pushEffect_phase (s : State) : (pushEffect s).phase =
    s.phase := packBit_phase s
@[simp] theorem pushEffect_seq (s : State) : (pushEffect s).seq =
    (if s.x.toNat + 1 = s.size.toNat then Seq.rowend else Seq.map) := by cases s; rfl
@[simp] theorem pushEffect_cerr (s : State) : (pushEffect s).cerr =
    s.cerr := packBit_cerr s
@[simp] theorem pushEffect_szerr (s : State) : (pushEffect s).szerr =
    s.szerr := packBit_szerr s
@[simp] theorem pushEffect_spend (s : State) : (pushEffect s).spend =
    s.spend := packBit_spend s
@[simp] theorem pushEffect_out (s : State) : (pushEffect s).out =
    (if s.bit = 1 then s.out ++ [pushedAcc s] else s.out) := packBit_out s
@[simp] theorem pushEffect_outReady (s : State) : (pushEffect s).outReady =
    s.outReady := packBit_outReady s
@[simp] theorem pushEffect_events (s : State) : (pushEffect s).events =
    s.events := packBit_events s
@[simp] theorem pushEffect_reads (s : State) : (pushEffect s).reads =
    s.reads := packBit_reads s

/-! ### `flushRow` -/

@[simp] theorem flushRow_size (s : State) : (flushRow s).size =
    s.size := by
  unfold flushRow; by_cases h : s.bit = 128#8 <;> simp [h]
@[simp] theorem flushRow_x (s : State) : (flushRow s).x =
    s.x := by
  unfold flushRow; by_cases h : s.bit = 128#8 <;> simp [h]
@[simp] theorem flushRow_y (s : State) : (flushRow s).y =
    s.y := by
  unfold flushRow; by_cases h : s.bit = 128#8 <;> simp [h]
@[simp] theorem flushRow_cRe (s : State) : (flushRow s).cRe =
    s.cRe := by
  unfold flushRow; by_cases h : s.bit = 128#8 <;> simp [h]
@[simp] theorem flushRow_cIm (s : State) : (flushRow s).cIm =
    s.cIm := by
  unfold flushRow; by_cases h : s.bit = 128#8 <;> simp [h]
@[simp] theorem flushRow_zRe (s : State) : (flushRow s).zRe =
    s.zRe := by
  unfold flushRow; by_cases h : s.bit = 128#8 <;> simp [h]
@[simp] theorem flushRow_zIm (s : State) : (flushRow s).zIm =
    s.zIm := by
  unfold flushRow; by_cases h : s.bit = 128#8 <;> simp [h]
@[simp] theorem flushRow_iter (s : State) : (flushRow s).iter =
    s.iter := by
  unfold flushRow; by_cases h : s.bit = 128#8 <;> simp [h]
@[simp] theorem flushRow_m (s : State) : (flushRow s).m =
    s.m := by
  unfold flushRow; by_cases h : s.bit = 128#8 <;> simp [h]
@[simp] theorem flushRow_byteAcc (s : State) : (flushRow s).byteAcc =
    Config.accInit := by cases s; rfl
@[simp] theorem flushRow_bit (s : State) : (flushRow s).bit =
    Config.bitInit := by cases s; rfl
@[simp] theorem flushRow_hidx (s : State) : (flushRow s).hidx =
    s.hidx := by
  unfold flushRow; by_cases h : s.bit = 128#8 <;> simp [h]
@[simp] theorem flushRow_outcnt (s : State) : (flushRow s).outcnt =
    if s.bit = Config.bitInit then s.outcnt else s.outcnt + 1 := by
  unfold flushRow; by_cases h : s.bit = 128#8 <;> simp [h]
@[simp] theorem flushRow_phase (s : State) : (flushRow s).phase =
    s.phase := by
  unfold flushRow; by_cases h : s.bit = 128#8 <;> simp [h]
@[simp] theorem flushRow_seq (s : State) : (flushRow s).seq =
    s.seq := by
  unfold flushRow; by_cases h : s.bit = 128#8 <;> simp [h]
@[simp] theorem flushRow_cerr (s : State) : (flushRow s).cerr =
    s.cerr := by
  unfold flushRow; by_cases h : s.bit = 128#8 <;> simp [h]
@[simp] theorem flushRow_szerr (s : State) : (flushRow s).szerr =
    s.szerr := by
  unfold flushRow; by_cases h : s.bit = 128#8 <;> simp [h]
@[simp] theorem flushRow_spend (s : State) : (flushRow s).spend =
    s.spend := by
  unfold flushRow; by_cases h : s.bit = 128#8 <;> simp [h]
@[simp] theorem flushRow_out (s : State) : (flushRow s).out =
    if s.bit = Config.bitInit then s.out else s.out ++ [s.byteAcc] := by
  unfold flushRow; by_cases h : s.bit = 128#8 <;> simp [h]
@[simp] theorem flushRow_outReady (s : State) : (flushRow s).outReady =
    s.outReady := by
  unfold flushRow; by_cases h : s.bit = 128#8 <;> simp [h]
@[simp] theorem flushRow_events (s : State) : (flushRow s).events =
    s.events := by
  unfold flushRow; by_cases h : s.bit = 128#8 <;> simp [h]
@[simp] theorem flushRow_reads (s : State) : (flushRow s).reads =
    s.reads := by
  unfold flushRow; by_cases h : s.bit = 128#8 <;> simp [h]

/-! ### `rowendEffect` -/

@[simp] theorem rowendEffect_size (s : State) : (rowendEffect s).size =
    s.size := by
  unfold rowendEffect; split <;> simp_all
@[simp] theorem rowendEffect_x (s : State) : (rowendEffect s).x =
    0 := by
  unfold rowendEffect; split <;> simp_all
@[simp] theorem rowendEffect_y (s : State) : (rowendEffect s).y =
    fit 16 (s.y.toNat + 1) := by
  unfold rowendEffect; split <;> simp_all
@[simp] theorem rowendEffect_cRe (s : State) : (rowendEffect s).cRe =
    s.cRe := by
  unfold rowendEffect; split <;> simp_all
@[simp] theorem rowendEffect_cIm (s : State) : (rowendEffect s).cIm =
    s.cIm := by
  unfold rowendEffect; split <;> simp_all
@[simp] theorem rowendEffect_zRe (s : State) : (rowendEffect s).zRe =
    s.zRe := by
  unfold rowendEffect; split <;> simp_all
@[simp] theorem rowendEffect_zIm (s : State) : (rowendEffect s).zIm =
    s.zIm := by
  unfold rowendEffect; split <;> simp_all
@[simp] theorem rowendEffect_iter (s : State) : (rowendEffect s).iter =
    s.iter := by
  unfold rowendEffect; split <;> simp_all
@[simp] theorem rowendEffect_m (s : State) : (rowendEffect s).m =
    s.m := by
  unfold rowendEffect; split <;> simp_all
@[simp] theorem rowendEffect_byteAcc (s : State) : (rowendEffect s).byteAcc =
    Config.accInit := by
  unfold rowendEffect; split <;> simp_all
@[simp] theorem rowendEffect_bit (s : State) : (rowendEffect s).bit =
    Config.bitInit := by
  unfold rowendEffect; split <;> simp_all
@[simp] theorem rowendEffect_hidx (s : State) : (rowendEffect s).hidx =
    s.hidx := by
  unfold rowendEffect; split <;> simp_all
@[simp] theorem rowendEffect_outcnt (s : State) : (rowendEffect s).outcnt =
    if s.bit = Config.bitInit then s.outcnt else s.outcnt + 1 := by
  unfold rowendEffect; split <;> simp_all
@[simp] theorem rowendEffect_phase (s : State) : (rowendEffect s).phase =
    if s.y.toNat + 1 = s.size.toNat then Phase.done else s.phase := by
  unfold rowendEffect; split <;> simp_all
@[simp] theorem rowendEffect_seq (s : State) : (rowendEffect s).seq =
    if s.y.toNat + 1 = s.size.toNat then s.seq else Seq.map := by
  unfold rowendEffect; split <;> simp_all
@[simp] theorem rowendEffect_cerr (s : State) : (rowendEffect s).cerr =
    s.cerr := by
  unfold rowendEffect; split <;> simp_all
@[simp] theorem rowendEffect_szerr (s : State) : (rowendEffect s).szerr =
    s.szerr := by
  unfold rowendEffect; split <;> simp_all
@[simp] theorem rowendEffect_spend (s : State) : (rowendEffect s).spend =
    if s.y.toNat + 1 = s.size.toNat then false else s.spend := by
  unfold rowendEffect; split <;> simp_all
@[simp] theorem rowendEffect_out (s : State) : (rowendEffect s).out =
    if s.bit = Config.bitInit then s.out else s.out ++ [s.byteAcc] := by
  unfold rowendEffect; split <;> simp_all
@[simp] theorem rowendEffect_outReady (s : State) : (rowendEffect s).outReady =
    s.outReady := by
  unfold rowendEffect; split <;> simp_all
@[simp] theorem rowendEffect_events (s : State) : (rowendEffect s).events =
    s.events := by
  unfold rowendEffect; split <;> simp_all
@[simp] theorem rowendEffect_reads (s : State) : (rowendEffect s).reads =
    s.reads := by
  unfold rowendEffect; split <;> simp_all

end Sys2Proof.Machine
end

