-- ==== Sys2Proof/Laws/Step.lean ====
section
/-! SUPPORT. What one step can do, said once: the meaning of every instruction as a frame around an effect, the decoder's
answers, and the inversion of a step into the cases of spec/42_sequencer.md R163. -/

namespace Sys2Proof.Machine

open Host

/-! ### The state an event meets -/

@[simp] theorem State.takeTurn_size (s : State) : s.takeTurn.size = s.size := rfl
@[simp] theorem State.takeTurn_x (s : State) : s.takeTurn.x = s.x := rfl
@[simp] theorem State.takeTurn_y (s : State) : s.takeTurn.y = s.y := rfl
@[simp] theorem State.takeTurn_cRe (s : State) : s.takeTurn.cRe = s.cRe := rfl
@[simp] theorem State.takeTurn_cIm (s : State) : s.takeTurn.cIm = s.cIm := rfl
@[simp] theorem State.takeTurn_zRe (s : State) : s.takeTurn.zRe = s.zRe := rfl
@[simp] theorem State.takeTurn_zIm (s : State) : s.takeTurn.zIm = s.zIm := rfl
@[simp] theorem State.takeTurn_iter (s : State) : s.takeTurn.iter = s.iter := rfl
@[simp] theorem State.takeTurn_m (s : State) : s.takeTurn.m = s.m := rfl
@[simp] theorem State.takeTurn_byteAcc (s : State) : s.takeTurn.byteAcc = s.byteAcc := rfl
@[simp] theorem State.takeTurn_bit (s : State) : s.takeTurn.bit = s.bit := rfl
@[simp] theorem State.takeTurn_hidx (s : State) : s.takeTurn.hidx = s.hidx := rfl
@[simp] theorem State.takeTurn_outcnt (s : State) : s.takeTurn.outcnt = s.outcnt := rfl
@[simp] theorem State.takeTurn_phase (s : State) : s.takeTurn.phase = s.phase := rfl
@[simp] theorem State.takeTurn_seq (s : State) : s.takeTurn.seq = s.seq := rfl
@[simp] theorem State.takeTurn_cerr (s : State) : s.takeTurn.cerr = s.cerr := rfl
@[simp] theorem State.takeTurn_szerr (s : State) : s.takeTurn.szerr = s.szerr := rfl
@[simp] theorem State.takeTurn_spend (s : State) : s.takeTurn.spend = s.spend := rfl
@[simp] theorem State.takeTurn_out (s : State) : s.takeTurn.out = s.out := rfl
@[simp] theorem State.takeTurn_outReady (s : State) : s.takeTurn.outReady = s.outReady := rfl
@[simp] theorem State.takeTurn_events (s : State) : s.takeTurn.events = s.events.tail := rfl
@[simp] theorem State.takeTurn_reads (s : State) : s.takeTurn.reads = s.reads := rfl

@[simp] theorem State.takeTurn_active (s : State) : s.takeTurn.active = s.active := rfl
@[simp] theorem State.takeTurn_noRun (s : State) : s.takeTurn.noRun = s.noRun := rfl
@[simp] theorem State.takeTurn_granted (s : State) : s.takeTurn.granted = s.granted := rfl
@[simp] theorem State.takeTurn_emits (s : State) : s.takeTurn.emits = s.emits := rfl
@[simp] theorem State.takeTurn_enabled (s : State) : s.takeTurn.enabled = s.enabled := rfl
@[simp] theorem State.takeTurn_phaseHeld (s : State) : s.takeTurn.phaseHeld = s.phaseHeld := rfl
@[simp] theorem State.takeTurn_seqHeld (s : State) : s.takeTurn.seqHeld = s.seqHeld := rfl

/-! ### The meanings, as effects in their frames -/

/-- The effect of a command where it is legal (R193 to R199). -/
def commandEffect : Instr → State → State
  | .nop, t => t
  | .setsize n, t => { t with size := n }
  | .start, t => t.beginRun Phase.run
  | .startstep, t => t.beginRun Phase.halt
  | .step, t => { t with spend := true }
  | .pause, t => { t with phase := Phase.halt, spend := false }
  | .resume, t => { t with phase := Phase.run, spend := false }
  | .hdr, t => t
  | .map, t => t
  | .iterate, t => t
  | .push, t => t
  | .rowend, t => t

/-- The effect of a micro-step where it is enabled (R107, R108, R133 to R135). -/
def microEffect : Instr → State → State
  | .hdr, t => hdrEffect t
  | .map, t => mapEffect binary64 t
  | .iterate, t => iterateEffect binary64 t
  | .push, t => pushEffect t
  | .rowend, t => rowendEffect t
  | .nop, t => t
  | .setsize _, t => t
  | .start, t => t
  | .startstep, t => t
  | .step, t => t
  | .pause, t => t
  | .resume, t => t

theorem exec_of_command {i : Instr} (h : i.space = .command) (s : State) :
    exec i s = performCommand i (commandEffect i) s := by
  cases i <;> first | rfl | cases h

theorem decodeSeq_cases {c : Code3} {i : Instr} (h : decodeSeq c = .ok i) :
    (c = Seq.hdr ∧ i = .hdr) ∨ (c = Seq.map ∧ i = .map) ∨ (c = Seq.iterate ∧ i = .iterate) ∨
      (c = Seq.push ∧ i = .push) ∨ (c = Seq.rowend ∧ i = .rowend) := by
  obtain ⟨n, hn⟩ : ∃ n, c.toNat = n := ⟨_, rfl⟩
  have hc : c = BitVec.ofNat 3 n := by rw [← hn]; simp
  have h8 : n < 8 := by have := c.isLt; omega
  subst hc
  interval_cases n <;> revert h <;> simp [decodeSeq] <;> exact fun h => h.symm

theorem decodeSeq_error_iff (c : Code3) : (∃ e, decodeSeq c = .error e) ↔ 5 ≤ c.toNat := by
  obtain ⟨n, hn⟩ : ∃ n, c.toNat = n := ⟨_, rfl⟩
  have hc : c = BitVec.ofNat 3 n := by rw [← hn]; simp
  have h8 : n < 8 := by have := c.isLt; omega
  subst hc
  interval_cases n <;> simp [decodeSeq]

/-- The micro-step that `SEQ` names, run in its frame. -/
theorem exec_of_seq {i : Instr} {s : State} (h : decodeSeq s.seq = .ok i) :
    exec i s = performMicro s.seq (microEffect i) s := by
  rcases decodeSeq_cases h with ⟨hc, rfl⟩ | ⟨hc, rfl⟩ | ⟨hc, rfl⟩ | ⟨hc, rfl⟩ | ⟨hc, rfl⟩ <;> rw [hc] <;> rfl

/-- A decoded command word names a command (R88: no command word names a micro-step). -/
theorem decodeCommand_space {w : Word32} {i : Instr} (h : decodeCommand w = .ok i) : i.space = .command := by
  unfold decodeCommand at h
  repeat' split at h
  all_goals cases h
  all_goals rfl

/-! ### The block's turn -/

/-- What the block's turn can answer: the enabled micro-step's effect, or the state as it is. -/
theorem microStep_next {s t : State} (h : microStep s = .next t) :
    s.phaseHeld = true ∧
      ((∃ i, decodeSeq s.seq = .ok i ∧ s.enabled = true ∧ t = s.endMicro (microEffect i s)) ∨
        (s.enabled = false ∧ t = s)) := by
  unfold microStep at h
  split at h
  · rename_i i hi
    rw [exec_of_seq hi] at h
    obtain ⟨hp, ⟨-, -, he, ht⟩ | ⟨he, ht⟩⟩ := performMicro_next h
    · exact ⟨hp, .inl ⟨i, hi, he, ht⟩⟩
    · exact ⟨hp, .inr ⟨by simpa using he, ht⟩⟩
  · obtain ⟨hp, ⟨hs, -, -, -⟩ | ⟨he, ht⟩⟩ := performMicro_next h
    · rename_i e hi
      have := (decodeSeq_error_iff s.seq).1 ⟨e, hi⟩
      simp [State.seqHeld] at hs
      omega
    · exact ⟨hp, .inr ⟨by simpa using he, ht⟩⟩

/-- An enabled micro-step is performed. -/
theorem microStep_of_enabled {s : State} {i : Instr} (hi : decodeSeq s.seq = .ok i) (he : s.enabled = true) :
    microStep s = .next (s.endMicro (microEffect i s)) := by
  have hs : s.seqHeld = true := by
    by_contra hn
    have : ¬ (5 ≤ s.seq.toNat) := fun h5 => by
      obtain ⟨e, h⟩ := (decodeSeq_error_iff s.seq).2 h5
      rw [hi] at h; cases h
    simp [State.seqHeld] at hn
    omega
  simp only [microStep, hi, exec_of_seq hi]
  exact performMicro_of_enabled hs rfl he

/-! ### One step -/

/-- A step is the next event, met by the state with that event taken off its queue. -/
theorem step_eq (s : State) : step s = performEvent s.nextEvent s.takeTurn := by
  rcases s with ⟨_, _, _, _, _, _, _, _, _, _, _, _, _, _, _, _, _, _, _, _, events, _⟩
  cases events <;> rfl

/-- What a host write can do (R191, R192). -/
theorem hostWrite_next {i : RegIndex} {w : Word32} {s t : State} (h : hostWrite i w s = .next t) :
    (i ≠ 0 ∧ t = s) ∨
    (i = 0 ∧ ∃ e, decodeCommand w = .error e ∧ t = s.reject) ∨
    (i = 0 ∧ ∃ c, decodeCommand w = .ok c ∧ s.phaseHeld = true ∧
      ((legal s c = true ∧ t = commandEffect c s) ∨ (legal s c = false ∧ t = s.reject))) := by
  unfold hostWrite at h
  split at h
  · rename_i hi
    unfold command at h
    split at h
    · rename_i e he; cases h; exact .inr (.inl ⟨hi, e, he, rfl⟩)
    · rename_i c hc
      rw [exec_of_command (decodeCommand_space hc)] at h
      exact .inr (.inr ⟨hi, c, hc, performCommand_next h⟩)
  · rename_i hi; cases h; exact .inl ⟨hi, rfl⟩

/-- Everything one step can do. -/
theorem step_next {s t : State} (h : step s = .next t) :
    (∃ i, s.nextEvent = .hostRead i ∧ t = hostRead i s.takeTurn) ∨
    (∃ i w, s.nextEvent = .hostWrite i w ∧ hostWrite i w s.takeTurn = .next t) ∨
    (s.nextEvent = .blockTurn ∧ microStep s.takeTurn = .next t) ∨
    (∃ r, s.nextEvent = .sinkReady r ∧ t = s.takeTurn.setReady r) ∨
    (s.nextEvent = .reset ∧ t = s.takeTurn.applyReset) := by
  rw [step_eq] at h
  cases he : s.nextEvent with
  | hostRead i => rw [he] at h; cases h; exact .inl ⟨i, rfl, rfl⟩
  | hostWrite i w => rw [he] at h; exact .inr (.inl ⟨i, w, rfl, h⟩)
  | blockTurn => rw [he] at h; exact .inr (.inr (.inl ⟨rfl, h⟩))
  | sinkReady r => rw [he] at h; cases h; exact .inr (.inr (.inr (.inl ⟨r, rfl, rfl⟩)))
  | reset => rw [he] at h; cases h; exact .inr (.inr (.inr (.inr ⟨rfl, rfl⟩)))

end Sys2Proof.Machine
end

