-- ==== Sys2Proof/Laws/Evaluator.lean ====
section
/-! SUPPORT. The evaluator over ANY `NUMERICS` record: what `MAP` and `ITERATE` answer, and how the loop of `EVAL` stands to
the orbit. Work over a variable `N` and put `binary64` in last: unfolding `binary64` inside a definitional check makes the
kernel evaluate the arithmetic. -/

namespace Sys2Proof.Machine

open Host

variable (N : Numerics)

/-! ### The functions, one rounding at a time -/

theorem mapC_eq (x y size : Nat) :
    mapC N x y size =
      (N.sub (N.div (N.ofNat (2 * x)) (N.ofNat size)) 0x3FF8000000000000,
       N.sub (N.div (N.ofNat (2 * y)) (N.ofNat size)) 0x3FF0000000000000) := rfl

theorem stepZ_eq (z c : F64 × F64) :
    stepZ N z c =
      (N.add (N.sub (N.mul z.1 z.1) (N.mul z.2 z.2)) c.1,
       N.add (N.add (N.mul z.1 z.2) (N.mul z.1 z.2)) c.2) := rfl

theorem escaped_eq (z : F64 × F64) :
    escaped N z = N.ge (N.add (N.mul z.1 z.1) (N.mul z.2 z.2)) 0x4010000000000000 := rfl

/-! ### The two micro-steps -/

theorem enabled_of_runs {s : State} (hr : s.Runs) (ho : s.emits = true → s.outReady = true) : s.enabled = true :=
  (s.enabled_iff).2 ⟨(s.granted_iff).2 hr, ho⟩

theorem performMicro_of_runs {code : Code3} {act : State → State} {s : State} (hc : code.toNat ≤ 4) (hs : s.seq = code)
    (hr : s.Runs) (ho : s.emits = true → s.outReady = true) :
    performMicro code act s = .next (s.endMicro (act s)) :=
  performMicro_of_enabled (by simpa [State.seqHeld, hs] using hc) hs (enabled_of_runs hr ho)

theorem endMicro_mapEffect (s : State) :
    s.endMicro (mapEffect N s) =
      { s with
        cRe := (mapC N s.x.toNat s.y.toNat s.size.toNat).1
        cIm := (mapC N s.x.toNat s.y.toNat s.size.toNat).2
        zRe := 0, zIm := 0, iter := 0, m := false, seq := Seq.iterate, spend := s.spendAfter } := by
  unfold State.endMicro State.spendAfter; split <;> rfl

theorem endMicro_iterateEffect (s : State) (hi : s.iter.toNat < 50) :
    s.endMicro (iterateEffect N s) =
      { s with
        zRe := (stepZ N (s.zRe, s.zIm) (s.cRe, s.cIm)).1
        zIm := (stepZ N (s.zRe, s.zIm) (s.cRe, s.cIm)).2
        iter := s.iter + 1
        m := if escaped N (stepZ N (s.zRe, s.zIm) (s.cRe, s.cIm)) then false
          else if s.iter.toNat + 1 = 50 then true else s.m
        seq := if escaped N (stepZ N (s.zRe, s.zIm) (s.cRe, s.cIm)) ∨ s.iter.toNat + 1 = 50 then Seq.push
          else Seq.iterate
        spend := s.spendAfter } := by
  unfold State.endMicro State.spendAfter iterateEffect
  rw [fit_succ (by omega)]
  split <;> rfl

/-! ### `EVAL` and the orbit -/

theorem orbit_succ (c : F64 × F64) (k : Nat) : orbit N c (k + 1) = stepZ N (orbit N c k) c := rfl

/-- From an iterate that has not escaped, the loop goes on to the next one. -/
theorem evalLoop_of_not_escaped (c : F64 × F64) {left k : Nat} {z : F64 × F64}
    (h : escaped N (stepZ N z c) = false) :
    evalLoop N c (left + 1) k z = evalLoop N c left (k + 1) (stepZ N z c) := by simp [evalLoop, h]

/-- At an iterate that escapes, the loop ends outside the set. -/
theorem evalLoop_of_escaped (c : F64 × F64) {left k : Nat} {z : F64 × F64}
    (h : escaped N (stepZ N z c) = true) :
    evalLoop N c (left + 1) k z = ⟨false, k + 1, stepZ N z c⟩ := by simp [evalLoop, h]

/-- What the loop returns: an iterate of the orbit, with its number, which escapes exactly when the pixel is outside; none
before it escaped; and inside the set all iterations were done. -/
theorem evalLoop_spec (c : F64 × F64) (left k : Nat) :
    let r := evalLoop N c left k (orbit N c k)
    k ≤ r.k ∧ r.k ≤ k + left ∧ (1 ≤ left → k + 1 ≤ r.k) ∧ r.z = orbit N c r.k ∧
    (r.m = true → r.k = k + left) ∧ (r.m = false → escaped N (orbit N c r.k) = true) ∧
    (∀ j, k < j → j < r.k → escaped N (orbit N c j) = false) ∧
    (r.m = true → ∀ j, k < j → j ≤ r.k → escaped N (orbit N c j) = false) := by
  induction left generalizing k with
  | zero =>
    refine ⟨le_refl _, le_refl _, fun h => absurd h (by omega), rfl, fun _ => rfl,
      fun h => by simp [evalLoop] at h, ?_, ?_⟩
    · intro j h1 h2; exact absurd h2 (by simp only [evalLoop]; omega)
    · intro _ j h1 h2; exact absurd h2 (by simp only [evalLoop]; omega)
  | succ left ih =>
    by_cases he : escaped N (orbit N c (k + 1)) = true
    · have hr := evalLoop_of_escaped N c (left := left) (k := k) (z := orbit N c k) he
      simp only [hr]
      refine ⟨by omega, by omega, fun _ => le_refl _, rfl, fun h => by simp at h, fun _ => he, ?_, fun h => by simp at h⟩
      intro j h1 h2; omega
    · have he' : escaped N (orbit N c (k + 1)) = false := by simpa using he
      have hr := evalLoop_of_not_escaped N c (left := left) (k := k) (z := orbit N c k) he'
      simp only [hr]
      obtain ⟨h1, h2, -, h4, h5, h6, h7, h8⟩ := ih (k + 1)
      refine ⟨by simp only [orbit] at h1 ⊢; omega, by simp only [orbit] at h2 ⊢; omega, fun _ => h1, h4, fun h => ?_, h6, ?_, ?_⟩
      · have := h5 h; simp only [orbit] at this ⊢; omega
      · intro j hj hj'
        by_cases hk : j = k + 1
        · exact hk ▸ he'
        · exact h7 j (by omega) hj'
      · intro hm j hj hj'
        by_cases hk : j = k + 1
        · exact hk ▸ he'
        · exact h8 hm j (by omega) hj'

end Sys2Proof.Machine
end

