-- ==== Sys2Proof/Laws/Float.lean ====
section
/-! SUPPORT. Binary64 patterns as magnitudes, and what `roundMag` returns: the pattern of the representable magnitude
nearest to a fraction of units. -/

namespace Sys2Proof.Machine

/-! ### Patterns -/

/-- The magnitude pattern of a value: its bits 62..0. -/
def low63 (x : F64) : Nat := x.toNat % 2 ^ 63

/-- The magnitude, in units, that a magnitude pattern stands for. -/
def patMag (p : Nat) : Nat := if p / 2 ^ 52 = 0 then p % 2 ^ 52 else (2 ^ 52 + p % 2 ^ 52) * 2 ^ (p / 2 ^ 52 - 1)

theorem low63_lt (x : F64) : low63 x < 2 ^ 63 := Nat.mod_lt _ (by norm_num)

theorem f64Exp_eq (x : F64) : f64Exp x = low63 x / 2 ^ 52 := by
  simp only [f64Exp, low63, BitVec.extractLsb'_toNat, Nat.shiftRight_eq_div_pow]
  omega

theorem f64Frac_eq (x : F64) : f64Frac x = low63 x % 2 ^ 52 := by
  simp only [f64Frac, low63, BitVec.extractLsb'_toNat, Nat.shiftRight_eq_div_pow]
  omega

theorem f64Mag_eq (x : F64) : f64Mag x = patMag (low63 x) := by
  unfold f64Mag patMag
  rw [f64Exp_eq, f64Frac_eq]

theorem f64Sign_eq (x : F64) : f64Sign x = decide (2 ^ 63 ≤ x.toNat) := by
  simp [f64Sign, BitVec.msb_eq_decide]

theorem f64Pack_toNat (sign : Bool) {m : Nat} (h : m < 2 ^ 63) :
    (f64Pack sign m).toNat = if sign then 2 ^ 63 + m else m := by
  cases sign <;> simp only [f64Pack, BitVec.toNat_ofNat, if_true, Bool.false_eq_true, if_false] <;>
    exact Nat.mod_eq_of_lt (by omega)

theorem low63_pack (sign : Bool) {m : Nat} (h : m < 2 ^ 63) : low63 (f64Pack sign m) = m := by
  rw [low63, f64Pack_toNat sign h]
  split <;> omega

theorem f64Sign_pack (sign : Bool) {m : Nat} (h : m < 2 ^ 63) : f64Sign (f64Pack sign m) = sign := by
  rw [f64Sign_eq, f64Pack_toNat sign h]
  cases sign <;> simp
  omega

theorem f64Mag_pack (sign : Bool) {m : Nat} (h : m < 2 ^ 63) : f64Mag (f64Pack sign m) = patMag m := by
  rw [f64Mag_eq, low63_pack sign h]

/-- A value is its sign and its magnitude pattern. -/
theorem f64Pack_self (x : F64) : f64Pack (f64Sign x) (low63 x) = x := by
  apply BitVec.eq_of_toNat_eq
  rw [f64Pack_toNat _ (low63_lt x), f64Sign_eq, low63]
  have := x.isLt
  by_cases h : 2 ^ 63 ≤ x.toNat <;> simp only [h, decide_true, decide_false, if_true, Bool.false_eq_true, if_false] <;>
    omega

theorem f64IsFinite_iff (x : F64) : f64IsFinite x = true ↔ low63 x < infMag := by
  have := low63_lt x
  simp only [f64IsFinite, f64Exp_eq, infMag, bne_iff_ne, ne_eq]
  omega

theorem f64IsInf_iff (x : F64) : f64IsInf x = true ↔ low63 x = infMag := by
  have := low63_lt x
  simp only [f64IsInf, f64Exp_eq, f64Frac_eq, infMag, Bool.and_eq_true, beq_iff_eq]
  omega

theorem f64IsNaN_iff (x : F64) : f64IsNaN x = true ↔ infMag < low63 x := by
  have := low63_lt x
  simp only [f64IsNaN, f64Exp_eq, f64Frac_eq, infMag, Bool.and_eq_true, beq_iff_eq, bne_iff_ne, ne_eq]
  omega

/-! ### Magnitudes grow with their patterns -/

theorem patMag_succ_lt (p : Nat) : patMag p < patMag (p + 1) := by
  have hpow : ∀ k : Nat, 0 < 2 ^ k := fun k => Nat.two_pow_pos k
  unfold patMag
  by_cases hc : p % 2 ^ 52 + 1 = 2 ^ 52
  · have h1 : (p + 1) / 2 ^ 52 = p / 2 ^ 52 + 1 := by omega
    have h2 : (p + 1) % 2 ^ 52 = 0 := by omega
    rw [h1, h2]
    by_cases h0 : p / 2 ^ 52 = 0
    · simp only [h0, if_true]; simp; omega
    · obtain ⟨k, hk⟩ : ∃ k, p / 2 ^ 52 = k + 1 := ⟨_, (Nat.succ_pred_eq_of_ne_zero h0).symm⟩
      rw [hk]
      simp only [Nat.add_one_ne_zero, if_false, Nat.add_sub_cancel]
      have h3 : p % 2 ^ 52 = 2 ^ 52 - 1 := by omega
      rw [pow_succ 2 k, h3]
      have := hpow k
      generalize 2 ^ k = t at this ⊢
      omega
  · have h1 : (p + 1) / 2 ^ 52 = p / 2 ^ 52 := by omega
    have h2 : (p + 1) % 2 ^ 52 = p % 2 ^ 52 + 1 := by omega
    rw [h1, h2]
    split
    · omega
    · exact Nat.mul_lt_mul_of_pos_right (by omega) (hpow _)

theorem patMag_strictMono : StrictMono patMag := strictMono_nat_of_lt_succ patMag_succ_lt

/-! ### Rounding to an integer -/

/-- `roundDiv n d` is nearest to `n / d`, stated without fractions, with the tie going to the even integer. -/
theorem roundDiv_spec (n : Nat) {d : Nat} (hd : 0 < d) :
    2 * n ≤ (2 * roundDiv n d + 1) * d ∧ 2 * roundDiv n d * d ≤ 2 * n + d ∧
    (2 * n = (2 * roundDiv n d + 1) * d → roundDiv n d % 2 = 0) ∧
    (2 * roundDiv n d * d = 2 * n + d → roundDiv n d % 2 = 0) := by
  have hn : d * (n / d) + n % d = n := Nat.div_add_mod n d
  have hr : n % d < d := Nat.mod_lt n hd
  generalize n / d = q at hn ⊢
  generalize hrr : n % d = r at hn hr ⊢
  subst hn
  unfold roundDiv
  have hq : (d * q + r) / d = q := by
    rw [Nat.add_comm, Nat.add_mul_div_left _ _ hd, Nat.div_eq_of_lt hr, Nat.zero_add]
  have hm : (d * q + r) % d = r := by rw [Nat.mul_add_mod, Nat.mod_eq_of_lt hr]
  rw [hq, hm]
  have hc : q * d = d * q := Nat.mul_comm _ _
  split
  · rename_i h
    refine ⟨by nlinarith, by rcases h with h | h <;> nlinarith, fun h' => ?_, fun h' => ?_⟩
    · exfalso; nlinarith
    · rcases h with h | h
      · exfalso; nlinarith
      · omega
  · rename_i h
    refine ⟨by push Not at h; nlinarith [h.1], by nlinarith, fun h' => ?_, fun h' => ?_⟩
    · push Not at h
      have h2 : 2 * r = d := by nlinarith
      have := h.2 h2
      omega
    · exfalso; nlinarith

theorem roundDiv_mono_ge {n d k : Nat} (hd : 0 < d) (h : k * d ≤ n) : k ≤ roundDiv n d := by
  have := (roundDiv_spec n hd).1
  by_contra hlt
  have h2 : roundDiv n d + 1 ≤ k := by omega
  have h3 : (roundDiv n d + 1) * d ≤ k * d := Nat.mul_le_mul_right d h2
  nlinarith

theorem roundDiv_mono_le {n d k : Nat} (hd : 0 < d) (h : n ≤ k * d) : roundDiv n d ≤ k := by
  have := (roundDiv_spec n hd).2.1
  by_contra hlt
  have h2 : k + 1 ≤ roundDiv n d := by omega
  have h3 : (k + 1) * d ≤ roundDiv n d * d := Nat.mul_le_mul_right d h2
  nlinarith

/-! ### Rounding to a pattern -/

/-- Where the step between neighbouring values is more than one unit, the magnitude has at least 53 bits of it. -/
theorem ulpExp_pos_le {q : Nat} (h : 0 < ulpExp q) : 2 ^ (52 + ulpExp q) ≤ q := by
  unfold ulpExp at h ⊢
  split at h
  · omega
  · rename_i hq
    rw [if_neg hq]
    have hq0 : q ≠ 0 := by rintro rfl; norm_num at hq
    rw [show 52 + (Nat.log2 q - 52) = Nat.log2 q by omega]
    exact Nat.log2_self_le hq0

theorem lt_ulpExp (q : Nat) : q < 2 ^ (53 + ulpExp q) := by
  unfold ulpExp
  split
  · simpa using ‹q < 2 ^ 53›
  · rename_i hq
    have hq0 : q ≠ 0 := by rintro rfl; norm_num at hq
    have h53 : 53 ≤ Nat.log2 q := (Nat.le_log2 hq0).2 (by omega)
    rw [show 53 + (Nat.log2 q - 52) = Nat.log2 q + 1 by omega]
    exact Nat.lt_log2_self

/-- The rounded count of steps is within one binade, so the pattern built from it stands for that count of steps. -/
theorem patMag_of_steps {e r : Nat} (hr : r ≤ 2 ^ 53) (he : 0 < e → 2 ^ 52 ≤ r) :
    patMag (e * 2 ^ 52 + r) = r * 2 ^ e := by
  unfold patMag
  by_cases h53 : r = 2 ^ 53
  · subst h53
    have h1 : (e * 2 ^ 52 + 2 ^ 53) / 2 ^ 52 = e + 2 := by omega
    have h2 : (e * 2 ^ 52 + 2 ^ 53) % 2 ^ 52 = 0 := by omega
    rw [h1, h2, if_neg (by omega), show e + 2 - 1 = e + 1 by omega, pow_succ]
    ring
  · by_cases h52 : 2 ^ 52 ≤ r
    · have h1 : (e * 2 ^ 52 + r) / 2 ^ 52 = e + 1 := by omega
      have h2 : (e * 2 ^ 52 + r) % 2 ^ 52 = r - 2 ^ 52 := by omega
      rw [h1, h2, if_neg (by omega), Nat.add_sub_cancel, Nat.add_sub_cancel' h52]
    · have he0 : e = 0 := by
        by_contra h
        exact h52 (he (Nat.pos_of_ne_zero h))
      subst he0
      have h1 : (0 * 2 ^ 52 + r) / 2 ^ 52 = 0 := by omega
      have h2 : (0 * 2 ^ 52 + r) % 2 ^ 52 = r := by omega
      rw [h1, h2, if_pos rfl, pow_zero, Nat.mul_one]

/-- The count of steps `roundMag` forms: at most a full binade, and at least half of one above the lowest binade. -/
theorem steps_bounds (n : Nat) {d : Nat} (hd : 0 < d) :
    roundDiv n (d * 2 ^ ulpExp (n / d)) ≤ 2 ^ 53 ∧
    (0 < ulpExp (n / d) → 2 ^ 52 ≤ roundDiv n (d * 2 ^ ulpExp (n / d))) := by
  have hD : 0 < d * 2 ^ ulpExp (n / d) := Nat.mul_pos hd (Nat.two_pow_pos _)
  constructor
  · apply roundDiv_mono_le hD
    have h := lt_ulpExp (n / d)
    have h' : n < d * 2 ^ (53 + ulpExp (n / d)) := by
      rw [Nat.mul_comm]; exact (Nat.div_lt_iff_lt_mul hd).1 h
    rw [pow_add] at h'
    nlinarith
  · intro he
    apply roundDiv_mono_ge hD
    have h := (Nat.le_div_iff_mul_le hd).1 (ulpExp_pos_le he)
    rw [pow_add] at h
    nlinarith

/-- The pattern before it is cut off at infinity. -/
def roundMagRaw (n d : Nat) : Nat := ulpExp (n / d) * 2 ^ 52 + roundDiv n (d * 2 ^ ulpExp (n / d))

theorem roundMag_eq (n d : Nat) : roundMag n d = min infMag (roundMagRaw n d) := rfl

theorem roundMag_le_infMag (n d : Nat) : roundMag n d ≤ infMag := Nat.min_le_left _ _

theorem roundMag_lt (n d : Nat) : roundMag n d < 2 ^ 63 :=
  lt_of_le_of_lt (roundMag_le_infMag n d) (by norm_num [infMag])

theorem patMag_roundMagRaw (n : Nat) {d : Nat} (hd : 0 < d) :
    patMag (roundMagRaw n d) = roundDiv n (d * 2 ^ ulpExp (n / d)) * 2 ^ ulpExp (n / d) :=
  patMag_of_steps (steps_bounds n hd).1 (steps_bounds n hd).2

/-- Every pattern stands for a multiple of a step, or for less than the binade that has that step. -/
theorem patMag_grid (p e : Nat) : (∃ k, patMag p = k * 2 ^ e) ∨ patMag p < 2 ^ (52 + e) := by
  unfold patMag
  have hf : p % 2 ^ 52 < 2 ^ 52 := Nat.mod_lt _ (by norm_num)
  split
  · right
    calc p % 2 ^ 52 < 2 ^ 52 := hf
      _ ≤ 2 ^ (52 + e) := Nat.pow_le_pow_right (by norm_num) (by omega)
  · rename_i hE
    by_cases h : e ≤ p / 2 ^ 52 - 1
    · left
      refine ⟨(2 ^ 52 + p % 2 ^ 52) * 2 ^ (p / 2 ^ 52 - 1 - e), ?_⟩
      rw [Nat.mul_assoc, ← pow_add, Nat.sub_add_cancel h]
    · right
      calc (2 ^ 52 + p % 2 ^ 52) * 2 ^ (p / 2 ^ 52 - 1) < 2 ^ 53 * 2 ^ (p / 2 ^ 52 - 1) :=
            Nat.mul_lt_mul_of_pos_right (by omega) (Nat.two_pow_pos _)
        _ = 2 ^ (53 + (p / 2 ^ 52 - 1)) := (pow_add _ _ _).symm
        _ ≤ 2 ^ (52 + e) := Nat.pow_le_pow_right (by norm_num) (by omega)

/-- A representable magnitude at or above the fraction is at or above the rounded one. -/
theorem roundMagRaw_le {n d p : Nat} (hd : 0 < d) (h : n ≤ patMag p * d) : roundMagRaw n d ≤ p := by
  rw [← patMag_strictMono.le_iff_le, patMag_roundMagRaw n hd]
  have hD : 0 < d * 2 ^ ulpExp (n / d) := Nat.mul_pos hd (Nat.two_pow_pos _)
  rcases patMag_grid p (ulpExp (n / d)) with ⟨k, hk⟩ | hlt
  · rw [hk] at h ⊢
    exact Nat.mul_le_mul_right _ (roundDiv_mono_le hD (by rw [← Nat.mul_assoc]; nlinarith))
  · by_cases he : 0 < ulpExp (n / d)
    · exfalso
      have h1 := (Nat.le_div_iff_mul_le hd).1 (ulpExp_pos_le he)
      have h2 : patMag p * d < 2 ^ (52 + ulpExp (n / d)) * d := Nat.mul_lt_mul_of_pos_right hlt hd
      omega
    · have he0 : ulpExp (n / d) = 0 := by omega
      rw [he0] at hD ⊢
      simp only [pow_zero, Nat.mul_one] at hD ⊢
      exact roundDiv_mono_le hD h

/-- A representable magnitude at or below the fraction is at or below the rounded one. -/
theorem le_roundMagRaw {n d p : Nat} (hd : 0 < d) (h : patMag p * d ≤ n) : p ≤ roundMagRaw n d := by
  rw [← patMag_strictMono.le_iff_le, patMag_roundMagRaw n hd]
  have hD : 0 < d * 2 ^ ulpExp (n / d) := Nat.mul_pos hd (Nat.two_pow_pos _)
  rcases patMag_grid p (ulpExp (n / d)) with ⟨k, hk⟩ | hlt
  · rw [hk] at h ⊢
    exact Nat.mul_le_mul_right _ (roundDiv_mono_ge hD (by rw [← Nat.mul_assoc]; nlinarith))
  · by_cases he : 0 < ulpExp (n / d)
    · have h1 := (steps_bounds n hd).2 he
      calc patMag p ≤ 2 ^ (52 + ulpExp (n / d)) := hlt.le
        _ = 2 ^ 52 * 2 ^ ulpExp (n / d) := pow_add _ _ _
        _ ≤ _ := Nat.mul_le_mul_right _ h1
    · have he0 : ulpExp (n / d) = 0 := by omega
      rw [he0] at hD ⊢
      simp only [pow_zero, Nat.mul_one] at hD ⊢
      exact roundDiv_mono_ge hD h

/-- A representable fraction is not changed by rounding. -/
theorem roundMagRaw_exact {n d p : Nat} (hd : 0 < d) (h : n = patMag p * d) : roundMagRaw n d = p :=
  le_antisymm (roundMagRaw_le hd h.le) (le_roundMagRaw hd h.ge)

theorem roundMag_le {n d p : Nat} (hd : 0 < d) (h : n ≤ patMag p * d) : roundMag n d ≤ p :=
  le_trans (Nat.min_le_right _ _) (roundMagRaw_le hd h)

theorem le_roundMag {n d p : Nat} (hd : 0 < d) (hp : p ≤ infMag) (h : patMag p * d ≤ n) : p ≤ roundMag n d :=
  le_min hp (le_roundMagRaw hd h)

theorem roundMag_exact {n d p : Nat} (hd : 0 < d) (hp : p ≤ infMag) (h : n = patMag p * d) : roundMag n d = p := by
  rw [roundMag_eq, roundMagRaw_exact hd h, Nat.min_eq_right hp]

/-- No representable magnitude is nearer to the fraction than the rounded one, and of two equally near ones the rounded one
has the even pattern. -/
theorem roundMagRaw_nearest (n : Nat) {d : Nat} (hd : 0 < d) (p : Nat) :
    |(n : ℤ) - patMag (roundMagRaw n d) * d| ≤ |(n : ℤ) - patMag p * d| ∧
    (|(n : ℤ) - patMag (roundMagRaw n d) * d| = |(n : ℤ) - patMag p * d| →
      patMag p = patMag (roundMagRaw n d) ∨ roundMagRaw n d % 2 = 0) := by
  have hD : 0 < d * 2 ^ ulpExp (n / d) := Nat.mul_pos hd (Nat.two_pow_pos _)
  have hspec := roundDiv_spec n hD
  have hpat := patMag_roundMagRaw n hd
  have hpar : roundMagRaw n d % 2 = roundDiv n (d * 2 ^ ulpExp (n / d)) % 2 := by
    unfold roundMagRaw; omega
  have hpos := @ulpExp_pos_le (n / d)
  have hgrid := patMag_grid p (ulpExp (n / d))
  rw [hpar, hpat]
  generalize ulpExp (n / d) = e at hD hspec hpos hgrid ⊢
  generalize roundDiv n (d * 2 ^ e) = r at hspec ⊢
  generalize hDe : d * 2 ^ e = D at hD hspec
  have hDz : (0 : ℤ) < D := by exact_mod_cast hD
  have hDe' : (2 : ℤ) ^ e * d = D := by exact_mod_cast (Nat.mul_comm _ _).trans hDe
  have e1 : ((r * 2 ^ e : ℕ) : ℤ) * d = r * D := by push_cast; rw [mul_assoc, hDe']
  rw [e1]
  obtain ⟨s1, s2, s3, s4⟩ := hspec
  have z1 : 2 * (n : ℤ) ≤ (2 * r + 1) * D := by exact_mod_cast s1
  have z2 : 2 * (r : ℤ) * D ≤ 2 * n + D := by exact_mod_cast s2
  have hnear : |(n : ℤ) - r * D| * 2 ≤ D := by
    rcases abs_cases ((n : ℤ) - r * D) with ⟨h, -⟩ | ⟨h, -⟩ <;> rw [h] <;> nlinarith
  -- the fraction against another multiple of the step
  have hmult : ∀ k : ℕ, |(n : ℤ) - r * D| ≤ |(n : ℤ) - k * D| ∧
      (|(n : ℤ) - r * D| = |(n : ℤ) - k * D| → k = r ∨ r % 2 = 0) := by
    intro k
    rcases lt_trichotomy k r with hk | hk | hk
    · have hkz : ((k : ℤ) + 1) * D ≤ r * D := mul_le_mul_of_nonneg_right (by exact_mod_cast hk) hDz.le
      have hfar : (D : ℤ) - |(n : ℤ) - r * D| ≤ |(n : ℤ) - k * D| := by
        have := neg_abs_le ((n : ℤ) - r * D)
        have := le_abs_self ((n : ℤ) - k * D)
        nlinarith
      refine ⟨by linarith, fun heq => .inr (s4 ?_)⟩
      have h2 : |(n : ℤ) - r * D| * 2 = D := by linarith
      rcases abs_cases ((n : ℤ) - r * D) with ⟨h, hs⟩ | ⟨h, hs⟩
      · exfalso
        have := le_abs_self ((n : ℤ) - k * D)
        nlinarith
      · rw [h] at h2
        have : 2 * (r : ℤ) * D = 2 * n + D := by linarith
        exact_mod_cast this
    · subst hk; exact ⟨le_refl _, fun _ => .inl rfl⟩
    · have hkz : ((r : ℤ) + 1) * D ≤ k * D := mul_le_mul_of_nonneg_right (by exact_mod_cast hk) hDz.le
      have hfar : (D : ℤ) - |(n : ℤ) - r * D| ≤ |(n : ℤ) - k * D| := by
        have := le_abs_self ((n : ℤ) - r * D)
        have := neg_abs_le ((n : ℤ) - k * D)
        nlinarith
      refine ⟨by linarith, fun heq => .inr (s3 ?_)⟩
      have h2 : |(n : ℤ) - r * D| * 2 = D := by linarith
      rcases abs_cases ((n : ℤ) - r * D) with ⟨h, hs⟩ | ⟨h, hs⟩
      · rw [h] at h2
        have : 2 * (n : ℤ) = (2 * r + 1) * D := by linarith
        exact_mod_cast this
      · exfalso
        have := neg_abs_le ((n : ℤ) - k * D)
        nlinarith
  have hk : ∀ k : ℕ, patMag p = k * 2 ^ e → ((patMag p : ℕ) : ℤ) * d = k * D := by
    intro k h; rw [h]; push_cast; rw [mul_assoc, hDe']
  have hback : ∀ k : ℕ, patMag p = k * 2 ^ e → (k = r ∨ r % 2 = 0) → patMag p = r * 2 ^ e ∨ r % 2 = 0 := by
    rintro k h (rfl | h2)
    · exact .inl h
    · exact .inr h2
  rcases hgrid with ⟨k, hpk⟩ | hlt
  · rw [hk k hpk]
    exact ⟨(hmult k).1, fun h => hback k hpk ((hmult k).2 h)⟩
  · by_cases he : 0 < e
    · have hbig : 2 ^ (52 + e) * d ≤ n := (Nat.le_div_iff_mul_le hd).1 (hpos he)
      have h1 : ((2 ^ 52 : ℕ) : ℤ) * D ≤ n := by
        rw [pow_add, Nat.mul_assoc, Nat.mul_comm (2 ^ e) d, hDe] at hbig
        exact_mod_cast hbig
      have h2 : ((patMag p : ℕ) : ℤ) * d < ((2 ^ 52 : ℕ) : ℤ) * D := by
        have := Nat.mul_lt_mul_of_pos_right hlt hd
        rw [pow_add, Nat.mul_assoc, Nat.mul_comm (2 ^ e) d, hDe] at this
        exact_mod_cast this
      have h3 := (hmult (2 ^ 52)).1
      rw [abs_of_nonneg (by linarith : (0 : ℤ) ≤ n - ((2 ^ 52 : ℕ) : ℤ) * D)] at h3
      rw [abs_of_nonneg (by linarith : (0 : ℤ) ≤ n - ((patMag p : ℕ) : ℤ) * d)]
      exact ⟨by linarith, fun h => by exfalso; linarith⟩
    · have he0 : e = 0 := by omega
      subst he0
      have hpk : patMag p = patMag p * 2 ^ 0 := by simp
      rw [hk _ hpk]
      exact ⟨(hmult _).1, fun h => hback _ hpk ((hmult _).2 h)⟩

end Sys2Proof.Machine
end

