-- ==== Sys2Proof/Laws/PerInstr.lean ====
section
/-! SUPPORT. The family of statements made for every instruction: its code stands in the space the instruction belongs to,
and the instruction is well formed there and nowhere else (spec/30_encoding.md R83, R88). -/

namespace Sys2Proof.Laws.EncodedInOwnSpace

/-- The code of the instruction is of the instruction's own space, the only one it is well formed in. -/
def Statement (i : Instr) : Prop :=
  (encode i).space = i.space ∧ ∀ sp : Space, i.wellFormedIn sp = true ↔ sp = (encode i).space

theorem nop : Statement .nop := ⟨rfl, fun sp => by cases sp <;> decide⟩
theorem setsize (n : Dim) : Statement (.setsize n) := ⟨rfl, fun sp => by cases sp <;> simp [Instr.wellFormedIn, Instr.space, encode, Code.space]⟩
theorem start : Statement .start := ⟨rfl, fun sp => by cases sp <;> decide⟩
theorem startstep : Statement .startstep := ⟨rfl, fun sp => by cases sp <;> decide⟩
theorem step : Statement .step := ⟨rfl, fun sp => by cases sp <;> decide⟩
theorem pause : Statement .pause := ⟨rfl, fun sp => by cases sp <;> decide⟩
theorem resume : Statement .resume := ⟨rfl, fun sp => by cases sp <;> decide⟩
theorem hdr : Statement .hdr := ⟨rfl, fun sp => by cases sp <;> decide⟩
theorem map : Statement .map := ⟨rfl, fun sp => by cases sp <;> decide⟩
theorem iterate : Statement .iterate := ⟨rfl, fun sp => by cases sp <;> decide⟩
theorem push : Statement .push := ⟨rfl, fun sp => by cases sp <;> decide⟩
theorem rowend : Statement .rowend := ⟨rfl, fun sp => by cases sp <;> decide⟩

end Sys2Proof.Laws.EncodedInOwnSpace
end

