-- ==== Sys2Proof/Tests/Slice0.lean ====
section
/-! SUPPORT. The model's own tests: the well-formedness smoke tests, every constructor's decoding from a word written out bit
by bit from the spec's tables (spec/30_encoding.md R81, R83, R88), vectors of spec/95_test_vectors.md, and for every
statement with hypotheses a witness that meets them. -/

namespace Sys2Proof.Tests

open Sys2Proof.Machine

-- Each theorem checked asynchronously takes a thread, and a thread more address space than the memory limit has to spare.
set_option Elab.async false

/-! ### Small states -/

/-- The next state, where there is one. -/
def nextOf (o : Host.Outcome State Fault Refusal) : Option State :=
  match o with
  | .next t => some t
  | .fault _ => none
  | .refused _ => none

/-- Dimension 9, no run. -/
def idle9 : State := { State.reset with size := 9 }

/-- A running run of dimension 9 past its header, at the given micro-step. -/
def running (c : Code3) : State := { idle9 with phase := Phase.run, seq := c, hidx := 7, outcnt := 7 }

/-- The same run in `HALT`, a step pending. -/
def stepping (c : Code3) : State := { running c with phase := Phase.halt, spend := true }

/-- The state with one event to come. -/
def facing (s : State) (e : Event) : State := { s with events := [e] }

/-! ### Well-formedness: each check refuses an ill-formed term -/

theorem test_micro_step_is_no_command : Instr.hdr.wellFormedIn .command = false := by decide

theorem test_command_is_no_seq_code : Instr.start.wellFormedIn .sequencer = false := by decide

/-! ### Decoding, words written out from R81 (`IMM` 16 bits, `RSV` 12 bits, `OP` 4 bits) and R88 -/

theorem test_decode_nop : decodeTableWord 32 0b0000000000000000_000000000000_0000 = some .nop := by decide

theorem test_decode_setsize :
    decodeTableWord 32 0b1000000000000101_000000000000_0001 = some (.setsize 0x8005) := by decide

theorem test_decode_start : decodeTableWord 32 0b0000000000000000_000000000000_0010 = some .start := by decide

theorem test_decode_startstep : decodeTableWord 32 0b0000000000000000_000000000000_0011 = some .startstep := by decide

theorem test_decode_step : decodeTableWord 32 0b0000000000000000_000000000000_0100 = some .step := by decide

theorem test_decode_pause : decodeTableWord 32 0b0000000000000000_000000000000_0101 = some .pause := by decide

theorem test_decode_resume : decodeTableWord 32 0b0000000000000000_000000000000_0110 = some .resume := by decide

theorem test_decode_hdr : decodeTableWord 8 0b000 = some .hdr := by decide

theorem test_decode_map : decodeTableWord 8 0b001 = some .map := by decide

theorem test_decode_iterate : decodeTableWord 8 0b010 = some .iterate := by decide

theorem test_decode_push : decodeTableWord 8 0b011 = some .push := by decide

theorem test_decode_rowend : decodeTableWord 8 0b100 = some .rowend := by decide

/-- V-C10: illegal words, with the reason of R85. -/
theorem test_decode_illegal :
    [0x00000007, 0x0000000F, 0x00000012, 0x00010002, 0x00010000, 0x00050004, 0xFFFFFFFF].map decodeCommand =
      [.error .reservedOpcode, .error .reservedOpcode, .error .reservedBits, .error .immediateNotZero,
       .error .immediateNotZero, .error .immediateNotZero, .error .reservedBits] := by decide

theorem test_decode_reserved_seq :
    [5, 6, 7].map decodeSeq = [.error .reservedSeq, .error .reservedSeq, .error .reservedSeq] := by decide

/-- The table's words run as the first instruction after reset: `START` meets `SIZE = 0` (V-C8), `ITERATE` iterates. -/
theorem test_fetch_word :
    (nextOf (Machine.step (State.reset.withFetchWord 32 2))).map State.statusWord = some 0x00000204 ∧
    (nextOf (Machine.step (State.reset.withFetchWord 8 2))).map State.itstatWord = some 1 := by decide +kernel

/-! ### Binary64 (95_test_vectors Part 2) -/

/-- V-M8, V-M9, V-M10. -/
theorem test_map_rounds :
    mapC binary64 1 0 3 = (0xBFEAAAAAAAAAAAAB, 0xBFF0000000000000) ∧
    mapC binary64 2 1 3 = (0xBFC5555555555558, 0xBFD5555555555556) ∧
    mapC binary64 65534 65534 65535 = (0x3FDFFF7FFF7FFF80, 0x3FEFFFBFFFBFFFC0) := by decide +kernel

/-- V-I7: signed zeros do not survive the adds. -/
theorem test_stepz_signed_zero : stepZ binary64 (0x8000000000000000, 0) (0, 0) = (0, 0) := by decide +kernel

/-- V-E2, V-E3, V-E4, V-E5, V-E6 and the first and last rows of V-X3. -/
theorem test_escaped :
    [(0x3FFFFFFFFFFFFFFF, 0), (0, 0x4000000000000000), (0xC000000000000000, 0x8000000000000000),
     (0x3FF6A09E667F3BCD, 0x3FF6A09E667F3BCD), (0x3FF3333333333333, 0x3FF999999999999A),
     (0xBFF9FE345C18DE9C, 0x3FF2AA1E98534DC0), (0xBFCBF635AEF470B0, 0x3FFFCEFCB5132901)].map (escaped binary64) =
      [false, true, true, true, true, true, false] := by decide +kernel

/-- Subnormal and overflowing results, from the IEEE 754 rules R100 names: the smallest subnormal halved is a tie to even
and gives zero, three halves of it round up to two of it, and the largest value doubled overflows. -/
theorem test_edges_of_the_format :
    f64Mul 1 0x3FE0000000000000 = 0 ∧ f64Mul 1 0x3FF8000000000000 = 2 ∧
    f64Add 0x7FEFFFFFFFFFFFFF 0x7FEFFFFFFFFFFFFF = 0x7FF0000000000000 := by decide +kernel

/-- V-I8: the first pixel of every size escapes on iteration 2. -/
theorem test_eval_pixel :
    evalPixel binary64 0 0 7 = ⟨false, 2, (0xBFD0000000000000, 0x4000000000000000)⟩ := by decide +kernel

/-! ### Commands (95_test_vectors Part 2, host commands) -/

/-- V-C1. -/
theorem test_reset_words :
    (List.range 16).map (fun i => State.reset.readRegister (BitVec.ofNat 4 i)) =
      [0, 0, 0, 0, 0, 0x8000, 0, 0, 0, 0, 0, 0, 0, 0, 0, 0] := by decide +kernel

/-- V-C2 and V-C14. -/
theorem test_setsize :
    nextOf (Machine.step (facing State.reset (.hostWrite 0 0x00090001))) = some idle9 ∧
    nextOf (Machine.step (facing (running 1) (.hostWrite 0 0x00050001))) = some { running 1 with cerr := true } := by
  decide +kernel

/-- V-C3 and V-C8. -/
theorem test_start :
    (nextOf (execStart { State.reset with size := 1 })).map State.statusWord = some 0x00000001 ∧
    (nextOf (execStart State.reset)).map State.statusWord = some 0x00000204 := by decide +kernel

/-- V-C4. -/
theorem test_startstep :
    (nextOf (execStartstep { State.reset with size := 1 })).map State.statusWord = some 0x00000002 := by decide +kernel

/-- V-C5 and V-C6. -/
theorem test_step_command :
    (nextOf (execStep { State.reset with phase := Phase.halt })).map State.statusWord = some 0x00000402 ∧
    (nextOf (execStep { State.reset with phase := Phase.halt, spend := true })).map State.statusWord =
      some 0x00000502 := by decide +kernel

/-- V-C15 and V-C16. -/
theorem test_pause :
    nextOf (execPause { running 2 with iter := 3 }) = some { running 2 with iter := 3, phase := Phase.halt } ∧
    nextOf (execPause (stepping 2)) = some { stepping 2 with cerr := true } := by decide +kernel

/-- V-C17 and V-C18. -/
theorem test_resume :
    nextOf (execResume (stepping 2)) = some (running 2) ∧
    nextOf (execResume { running 4 with phase := Phase.done }) =
      some { running 4 with phase := Phase.done, cerr := true } := by decide +kernel

/-- R193: `NOP` during a run. -/
theorem test_nop : nextOf (execNop (running 2)) = some (running 2) := by decide +kernel

/-- V-C12: a write to a read-only index. -/
theorem test_write_elsewhere :
    nextOf (Machine.step (facing (running 2) (.hostWrite 15 0xFFFFFFFF))) = some (running 2) := by decide +kernel

/-- The end-of-run registers of `s = 1` (95_test_vectors Part 2) give the words shown there. -/
theorem test_register_words :
    let s : State :=
      { State.reset with
        phase := Phase.done, seq := Seq.rowend, hidx := 7, y := 1, iter := 2, zRe := 0xBFD0000000000000, outcnt := 8 }
    [1, 3, 4, 5, 6, 7, 14].map s.readRegister =
      [0x00070043, 0x00010000, 0x00000002, 0x00008000, 0, 0xBFD00000, 8] := by decide +kernel

/-! ### Micro-steps (95_test_vectors Part 2) -/

/-- V-H4 and V-H5. -/
theorem test_hdr :
    let s : State := { State.reset with phase := Phase.run, size := 1 }
    (nextOf (execHdr { s with hidx := 3 })).map (fun t => (t.out, t.hidx, t.seq)) = some ([0x31], 4, 0) ∧
    (nextOf (execHdr { s with hidx := 6 })).map (fun t => (t.out, t.hidx, t.seq)) = some ([0x0A], 7, 1) := by
  decide +kernel

/-- V-M7. -/
theorem test_map :
    (nextOf (execMap { running 1 with x := 8, y := 8 })).map (fun t => (t.cRe, t.cIm, t.seq)) =
      some (0x3FD1C71C71C71C70, 0x3FE8E38E38E38E38, 2) := by decide +kernel

/-- V-I4 and V-I5: a signed zero in the product, and an escape on the fiftieth iteration. -/
theorem test_iterate :
    (nextOf (execIterate { running 2 with zRe := 0xBFF0000000000000, cRe := 0xBFF0000000000000, iter := 1 })).map
        (fun t => (t.zRe, t.zIm, t.iter, t.seq)) = some (0, 0, 2, 2) ∧
    (nextOf (execIterate
        { running 2 with
          zRe := 0x3FF1FB9FA8136CC6, zIm := 0x3FF5D0BB310FE8A3, cRe := 0x3FD45D1745D1745C
          cIm := 0xBFDD1745D1745D18, iter := 49 })).map (fun t => (t.zRe, t.zIm, t.iter, t.m, t.seq)) =
      some (0xBFD1C480B90D0A7C, 0x4004E1F251F2665A, 50, false, 3) := by decide +kernel

/-- V-P1 and V-P2. -/
theorem test_push :
    (nextOf (execPush { running 3 with m := true, bit := 2, byteAcc := 0x0C, x := 6 })).map
        (fun t => (t.out, t.bit, t.byteAcc, t.x, t.seq)) = some ([], 1, 0x0E, 7, 1) ∧
    (nextOf (execPush { running 3 with m := true, bit := 1, byteAcc := 0x0E, x := 7 })).map
        (fun t => (t.out, t.bit, t.byteAcc, t.x, t.seq)) = some ([0x0F], 128, 0, 8, 1) := by decide +kernel

/-- V-R1 and V-R5. -/
theorem test_rowend :
    nextOf (execRowend { running 4 with bit := 64, byteAcc := 0x80, x := 9 }) =
      some { running 1 with out := [0x80], outcnt := 8, y := 1 } ∧
    nextOf (execRowend { stepping 4 with bit := 64, x := 1, size := 1 }) =
      some { stepping 4 with size := 1, out := [0], outcnt := 8, y := 1, phase := Phase.done, spend := false, bit := 128 } := by
  decide +kernel

/-- V-H6 and V-P8: an emitting step is held while the sink is not ready, another is not. -/
theorem test_hold :
    nextOf (execHdr { running 0 with outReady := false }) = some { running 0 with outReady := false } ∧
    (nextOf (execPush { running 3 with bit := 4, outReady := false })).map (fun t => t.bit) = some 2 := by
  decide +kernel

/-- R163: a sink change, each way, during a run. -/
theorem test_sink_change :
    nextOf (Machine.step (facing { running 0 with outReady := false } (.sinkReady true))) = some (running 0) ∧
    nextOf (Machine.step (facing (running 0) (.sinkReady false))) = some { running 0 with outReady := false } := by
  decide +kernel

/-- V-F1: the contract functions give the output of `s = 1`. -/
theorem test_contract_of_size_one :
    imageBytes 1 = [0x50, 0x34, 0x0A, 0x31, 0x20, 0x31, 0x0A, 0x00] := by decide +kernel

/-! ### Witnesses: for every statement with hypotheses, concrete values that meet them together -/

/-- An outcome whose next state passes a check is a next state. -/
theorem next_of (o : Host.Outcome State Fault Refusal) (p : State → Bool) (h : (nextOf o).any p = true) :
    ∃ t, o = .next t ∧ p t = true := by
  cases o with
  | next t => exact ⟨t, rfl, h⟩
  | fault f => cases h
  | refused r => cases h

theorem running_runs (c : Code3) : (running c).Runs := .inl rfl

theorem stepping_runs (c : Code3) : (stepping c).Runs := .inr ⟨rfl, rfl⟩

theorem test_witness_EncodeOfDecodeIsIdentity :
    decode (.command 0xFFFF0001) = .ok (.setsize 65535) ∧ decode (.sequencer 4) = .ok .rowend := by decide +kernel

theorem test_witness_CommandDecodeFollowsFields :
    ((0xFFFF0001 : Word32).toNat / 16 % 4096 = 0 ∧ (0xFFFF0001 : Word32).toNat % 16 = 1) ∧
    ((0 : Word32).toNat / 16 % 4096 = 0 ∧ (0 : Word32).toNat / 65536 = 0 ∧ (0 : Word32).toNat % 16 = 0) ∧
    (6 : Word32).toNat / 16 % 4096 = 0 ∧ (6 : Word32).toNat / 65536 = 0 ∧ (6 : Word32).toNat % 16 = 6 := by decide +kernel

theorem test_witness_SeqCodesNameMicroSteps :
    5 ≤ (5 : Code3).toNat ∧ 5 ≤ (7 : Code3).toNat ∧ decodeCommand 6 = .ok .resume := by decide +kernel

theorem test_witness_StepRunsDecodedInstruction :
    ((facing idle9 (.hostWrite 0 2)).events = [.hostWrite 0 2] ∧ decodeCommand 2 = .ok .start) ∧
    ((facing (running 4) .blockTurn).events = [.blockTurn] ∧
      decodeSeq (facing (running 4) .blockTurn).seq = .ok .rowend) ∧
    (running 0).events = [] ∧ decodeSeq (running 0).seq = .ok .hdr := by decide +kernel

theorem test_witness_HostWriteReachesOnlyCmd :
    (facing idle9 (.hostWrite 1 2)).events = [.hostWrite 1 2] ∧ (1 : RegIndex) ≠ 0 ∧
    (facing idle9 (.hostWrite 15 2)).events = [.hostWrite 15 2] ∧ (15 : RegIndex) ≠ 0 ∧
    (facing idle9 (.hostWrite 0 2)).events = [.hostWrite 0 2] := by decide +kernel

theorem test_witness_RejectionSetsStickyCerr :
    (∃ e, decodeCommand 7 = .error e) ∧
    (decodeCommand 5 = .ok .pause ∧ ({ idle9 with phase := Phase.error } : State).phase.toNat ≤ 4 ∧
      legal { idle9 with phase := Phase.error } .pause = false) ∧
    (∃ t, step (facing { idle9 with cerr := true } (.hostWrite 0 2)) = .next t ∧ true = true) ∧
    (facing { idle9 with cerr := true } (.hostWrite 0 2)).cerr = true ∧
    (facing { idle9 with cerr := true } (.hostWrite 0 2)).nextEvent ≠ .reset :=
  ⟨⟨.reservedOpcode, by decide +kernel⟩, by decide +kernel, next_of _ (fun _ => true) (by decide +kernel), by decide +kernel, by decide +kernel⟩

theorem test_witness_HostReadOnlyReturnsWord :
    (facing (running 2) (.hostRead 0)).events = [.hostRead 0] ∧
    (facing (running 2) (.hostRead 15)).events = [.hostRead 15] := by decide +kernel

theorem test_witness_RegisterWordsMatchTables : (1 : RegIndex) ≠ 0 ∧ (15 : RegIndex) ≠ 0 := by decide +kernel

theorem test_witness_ResetEventRestoresBlock :
    (facing (stepping 3) .reset).events = [.reset] ∧ (facing { idle9 with cerr := true } .reset).events = [.reset] := by
  decide +kernel

theorem test_witness_BlockTurnHoldsWhenNotEnabled :
    (∀ p ∈ ([0, 2, 3, 4] : List Code3),
      let s : State := { running 4 with phase := p }
      s.nextEvent = .blockTurn ∧ s.phase.toNat ≤ 4 ∧ s.seq.toNat ≤ 4 ∧
        ¬ (s.phase = Phase.run ∨ (s.phase = Phase.halt ∧ s.spend = true))) ∧
    ∀ c ∈ ([0, 3, 4] : List Code3),
      let s : State := { running c with bit := if c = 3 then 1 else 64, outReady := false }
      s.nextEvent = .blockTurn ∧ s.phase.toNat ≤ 4 ∧ s.seq.toNat ≤ 4 ∧ s.outReady = false ∧
        (s.seq = Seq.hdr ∨ (s.seq = Seq.push ∧ s.bit = 1) ∨ (s.seq = Seq.rowend ∧ s.bit ≠ 128)) := by decide +kernel

theorem test_witness_UnreachableSeqFaults :
    ((running 5).nextEvent = .blockTurn ∧ (running 5).Runs ∧ 5 ≤ (running 5).seq.toNat) ∧
    ((stepping 7).nextEvent = .blockTurn ∧ (stepping 7).Runs ∧ 5 ≤ (stepping 7).seq.toNat) :=
  ⟨⟨by decide +kernel, running_runs 5, by decide +kernel⟩, by decide +kernel, stepping_runs 7, by decide +kernel⟩

theorem test_witness_UnreachablePhaseFaults :
    (5 ≤ ({ running 2 with phase := 5 } : State).phase.toNat ∧
      ({ running 2 with phase := 5 } : State).nextEvent = .blockTurn) ∧
    5 ≤ (facing { idle9 with phase := 7 } (.hostWrite 0 0)).phase.toNat ∧
    (facing { idle9 with phase := 7 } (.hostWrite 0 0)).nextEvent = .hostWrite 0 0 ∧
    decodeCommand 0 = .ok .nop := by decide +kernel

theorem test_witness_NopChangesNothing :
    ({ idle9 with phase := Phase.error } : State).phase.toNat ≤ 4 ∧ (stepping 2).phase.toNat ≤ 4 ∧
    (0x00000010 : Word32).toNat % 16 = 0 ∧ (0x00000010 : Word32) ≠ 0 := by decide +kernel

/-- The phases a start or `SETSIZE` is legal in, with a dimension, and those of a run. -/
theorem test_witness_SetsizeWritesOnlySize :
    idle9.phase = Phase.idle ∧ ({ idle9 with phase := Phase.error } : State).phase = Phase.error ∧
    (running 0).phase = Phase.run ∧ (stepping 4).phase = Phase.halt := by decide +kernel

theorem test_witness_StartInitialisesRun :
    idle9.phase = Phase.idle ∧ idle9.size ≠ 0 ∧ ({ running 4 with phase := Phase.done } : State).phase = Phase.done ∧
    ({ running 4 with phase := Phase.done } : State).size ≠ 0 := by decide +kernel

theorem test_witness_StartWithSizeZeroFails :
    State.reset.phase = Phase.idle ∧ State.reset.size = 0 ∧
    ({ State.reset with phase := Phase.error } : State).phase = Phase.error ∧
    ({ State.reset with phase := Phase.error } : State).size = 0 := by decide +kernel

theorem test_witness_StepRequestsOneMicroStep :
    (({ stepping 2 with spend := false } : State).phase = Phase.halt ∧
      ({ stepping 2 with spend := false } : State).spend = false) ∧
    ((stepping 2).phase = Phase.halt ∧ (stepping 2).spend = true) ∧
    ({ idle9 with phase := Phase.error } : State).phase.toNat ≤ 4 ∧
    ({ idle9 with phase := Phase.error } : State).phase ≠ Phase.halt := by decide +kernel

theorem test_witness_PauseHaltsRun :
    (running 2).phase = Phase.run ∧ (stepping 2).phase.toNat ≤ 4 ∧ (stepping 2).phase ≠ Phase.run := by decide +kernel

theorem test_witness_ResumeContinuesRun :
    (stepping 2).phase = Phase.halt ∧ (idle9.phase.toNat ≤ 4 ∧ idle9.phase ≠ Phase.halt) ∧
    ((running 2).phase = Phase.run ∧ (running 2).spend = false ∧
      ∃ t, exec .pause (running 2) = .next t ∧ true = true) :=
  ⟨by decide +kernel, by decide +kernel, by decide +kernel, by decide +kernel, next_of _ (fun _ => true) (by decide +kernel)⟩

theorem test_witness_CommandLegalityTable :
    ∀ i ∈ [Instr.nop, .setsize 65535, .start, .startstep, .step, .pause, .resume],
      i.wellFormedIn .command = true ∧
      ∀ s ∈ [idle9, running 2, { stepping 2 with spend := false }, stepping 2, { idle9 with phase := Phase.done },
        { idle9 with phase := Phase.error }], s.phase.toNat ≤ 4 := by decide +kernel

theorem test_witness_StartForgetsThePast :
    let s := idle9
    let t : State := { running 4 with x := 3, bit := 64, byteAcc := 0x80, phase := Phase.done }
    s.phase = Phase.idle ∧ t.phase = Phase.done ∧ s.size ≠ 0 ∧ s.size = t.size ∧ s.cerr = t.cerr ∧ s.out = t.out ∧
      s.outReady = t.outReady ∧ s.events = t.events ∧ s.reads = t.reads := by decide +kernel

/-- The first and the last byte of the header. -/
theorem test_witness_HdrEmitsHeaderByte :
    ∀ n ∈ ([0, 6] : List (BitVec 4)),
      let s : State := { running 0 with hidx := n }
      s.hidx.toNat < (headerBytes s.size).length ∧ s.seq = Seq.hdr ∧
        (s.phase = Phase.run ∨ (s.phase = Phase.halt ∧ s.spend = true)) ∧ s.outReady = true ∧ s.size ≠ 0 := by
  decide +kernel

theorem test_witness_MapComputesPoint : (running 1).seq = Seq.map ∧ (running 1).Runs ∧ (stepping 1).Runs :=
  ⟨rfl, running_runs 1, stepping_runs 1⟩

theorem test_witness_IterateAdvancesOrbit :
    ({ running 2 with iter := 49 } : State).seq = Seq.iterate ∧ ({ running 2 with iter := 49 } : State).Runs ∧
    ({ running 2 with iter := 49 } : State).iter.toNat < 50 ∧ (running 2).iter.toNat < 50 :=
  ⟨rfl, .inl rfl, by decide +kernel, by decide +kernel⟩

/-- The eighth pixel of a byte at the row's end, and a pixel that emits nothing. -/
theorem test_witness_PushPacksPixel :
    (let s : State := { stepping 3 with size := 8, x := 7, bit := 1 }
     s.seq = Seq.push ∧ s.Runs ∧ s.x.toNat < s.size.toNat ∧ s.bit = 1 ∧ s.outReady = true) ∧
    (let s : State := { running 3 with x := 8, outReady := false }
     s.seq = Seq.push ∧ s.Runs ∧ s.x.toNat < s.size.toNat ∧ s.bit ≠ 1) :=
  ⟨⟨rfl, .inr ⟨rfl, rfl⟩, by decide, rfl, rfl⟩, rfl, .inl rfl, by decide, by decide⟩

/-- The last row with a byte to flush, and the first without one, the sink not ready. -/
theorem test_witness_RowendFlushesRow :
    (let s : State := { stepping 4 with y := 8, bit := 64 }
     s.seq = Seq.rowend ∧ s.Runs ∧ s.y.toNat < s.size.toNat ∧ (s.bit ≠ 128 → s.outReady = true)) ∧
    (let s : State := { running 4 with outReady := false }
     s.seq = Seq.rowend ∧ s.Runs ∧ s.y.toNat < s.size.toNat ∧ (s.bit ≠ 128 → s.outReady = true)) :=
  ⟨⟨rfl, .inr ⟨rfl, rfl⟩, by decide, fun _ => rfl⟩, rfl, .inl rfl, by decide, fun h => absurd rfl h⟩

theorem test_witness_EmissionMatchesRule :
    (∀ c ∈ ([0, 3, 4] : List Code3),
      let s : State := { running c with bit := if c = 3 then 1 else 64 }
      s.nextEvent = .blockTurn ∧ s.phase = Phase.run ∧ s.seq.toNat ≤ 4 ∧ s.outReady = true ∧
        (s.seq = Seq.hdr ∨ (s.seq = Seq.push ∧ s.bit = 1) ∨ (s.seq = Seq.rowend ∧ s.bit ≠ 128))) ∧
    ∀ c ∈ ([1, 2, 3, 4] : List Code3),
      let s : State := stepping c
      s.nextEvent = .blockTurn ∧ s.phase = Phase.halt ∧ s.spend = true ∧ s.seq.toNat ≤ 4 ∧
        ¬ (s.seq = Seq.hdr ∨ (s.seq = Seq.push ∧ s.bit = 1) ∨ (s.seq = Seq.rowend ∧ s.bit ≠ 128)) := by decide +kernel

theorem test_witness_StepAllowsOneMicroStep :
    ((stepping 3).nextEvent = .blockTurn ∧ (stepping 3).enabled = true ∧ (stepping 3).phase = Phase.halt ∧
      ∃ t, step (stepping 3) = .next t ∧ decide (t.nextEvent = .blockTurn) = true) ∧
    ({ running 4 with y := 8 } : State).nextEvent = .blockTurn ∧ ({ running 4 with y := 8 } : State).enabled = true ∧
    ∃ t, step { running 4 with y := 8 } = .next t ∧ decide (t.phase = Phase.done) = true :=
  ⟨⟨by decide +kernel, by decide +kernel, by decide +kernel, next_of _ _ (by decide +kernel)⟩, by decide +kernel, by decide +kernel,
    next_of _ _ (by decide +kernel)⟩

/-- For each row of the table a state that the row is about, at the last value where its condition is a bound. -/
theorem test_witness_SeqTransitionTable :
    (∀ s ∈ [{ running 0 with hidx := 5 }, { running 0 with hidx := 6 }, stepping 1, running 2,
        { running 3 with x := 7 }, { running 3 with x := 8 }, { running 4 with y := 7 }, { running 4 with y := 8 }],
      s.nextEvent = .blockTurn ∧ s.enabled = true ∧ (nextOf (step s)).isSome = true) ∧
    (5 + 1 < (headerBytes 9).length ∧ 6 + 1 = (headerBytes 9).length) ∧
    (let s : State := { running 2 with zRe := 0xBFF8000000000000, zIm := 0xBFF0000000000000, cRe := 0xBFF8000000000000
                                       cIm := 0xBFF0000000000000, iter := 1 }
     escaped binary64 (stepZ binary64 (s.zRe, s.zIm) (s.cRe, s.cIm)) = true) ∧
    escaped binary64 (stepZ binary64 ((running 2).zRe, (running 2).zIm) ((running 2).cRe, (running 2).cIm)) = false ∧
    ({ running 2 with iter := 49 } : State).iter.toNat + 1 = 50 ∧
    ({ running 2 with iter := 48 } : State).iter.toNat + 1 < 50 := by decide +kernel

theorem test_witness_StreamIsAppendOnlyAndNeverRead :
    ∃ t, step (running 0) = .next t ∧ decide (t.out ≠ (running 0).out) = true :=
  next_of _ _ (by decide +kernel)

theorem test_witness_ConstantWriters :
    (∃ t, step { running 1 with x := 8, y := 8 } = .next t ∧
      decide ((t.cRe, t.cIm) ≠ ((running 1).cRe, (running 1).cIm)) = true) ∧
    ∃ t, step (facing { idle9 with cRe := 1 } (.hostWrite 0 3)) = .next t ∧ decide ((t.cRe, t.cIm) ≠ (1, 0)) = true :=
  ⟨next_of _ _ (by decide +kernel), next_of _ _ (by decide +kernel)⟩

theorem test_witness_ControlRegisterWriters :
    (∃ t, step (facing idle9 (.hostWrite 0 0x00050001)) = .next t ∧ decide (t.size ≠ idle9.size) = true) ∧
    (∃ t, step { running 4 with x := 9 } = .next t ∧ decide ((t.x, t.y) ≠ (9, 0)) = true) ∧
    ∃ t, step { running 4 with y := 8 } = .next t ∧ decide (t.phase ≠ Phase.run) = true :=
  ⟨next_of _ _ (by decide +kernel), next_of _ _ (by decide +kernel), next_of _ _ (by decide +kernel)⟩

theorem test_witness_PendingStepWriters :
    (({ stepping 3 with spend := false } : State).spend = false ∧
      ∃ t, step (facing { stepping 3 with spend := false } (.hostWrite 0 4)) = .next t ∧ t.spend = true) ∧
    (stepping 3).spend = true ∧ ∃ t, step (stepping 3) = .next t ∧ (!t.spend) = true :=
  ⟨⟨by decide +kernel, next_of _ _ (by decide +kernel)⟩, by decide +kernel, next_of _ _ (by decide +kernel)⟩

/-- The largest finite value and the smallest one that is not zero. -/
theorem test_witness_ArithmeticRoundsToNearestEven :
    f64IsFinite 0x7FEFFFFFFFFFFFFF = true ∧ f64IsFinite 1 = true ∧ f64Units 1 ≠ 0 := by decide +kernel

theorem test_witness_ConversionExactAndOrderOrdered :
    2 ^ 53 - 1 < 2 ^ 53 ∧ (f64IsFinite 0x7FEFFFFFFFFFFFFF = true ∧ f64IsFinite 0x8000000000000000 = true) ∧
    f64IsNaN 0x7FF8000000000000 = true := by decide +kernel

theorem test_witness_MapNeverGivesNegativeZero :
    f64IsFinite 0xFFEFFFFFFFFFFFFF = true ∧ 65534 < 65535 ∧ 0 < 1 ∧ 65535 ≤ 65535 := by decide +kernel

theorem test_witness_MapStaysInRegion : 0 < 1 ∧ 65534 < 65535 ∧ 65535 ≤ 65535 := by decide +kernel

theorem test_witness_ScalingCommutesWithDivision : 65535 ≤ 65535 ∧ 1 ≤ 1 ∧ 1 ≤ 65535 := by decide +kernel

theorem test_witness_KnownPoints :
    (1 ≤ 16383 ∧ 4 * 16383 ≤ 65535) ∧ mapC binary64 3 2 4 = (0, 0) ∧ 0 < 1 ∧ 65534 < 65535 := by decide +kernel

/-- A run of dimension 9 at its first pixel, about to perform its first or second iteration: it has every invariant. -/
def iterating (k : BitVec 6) : State :=
  { running 2 with
    cRe := 0xBFF8000000000000, cIm := 0xBFF0000000000000, iter := k
    zRe := if k = 0 then 0 else 0xBFF8000000000000, zIm := if k = 0 then 0 else 0xBFF0000000000000 }

theorem test_iterating_bounded : ∀ k ∈ ([0, 1] : List (BitVec 6)), (iterating k).Inv ∧ (iterating k).FloatsBounded := by
  have codes : ∀ k ∈ ([0, 1] : List (BitVec 6)), (iterating k).CodesLegal := by
    unfold State.CodesLegal; decide +kernel
  have position : ∀ k ∈ ([0, 1] : List (BitVec 6)), (iterating k).PositionOk := by
    unfold State.PositionOk State.OnPixel; decide +kernel
  have packer : ∀ k ∈ ([0, 1] : List (BitVec 6)), (iterating k).PackerOk := by
    unfold State.PackerOk State.OnPixel; decide +kernel
  have count : ∀ k ∈ ([0, 1] : List (BitVec 6)), (iterating k).CountOk := by
    unfold State.CountOk State.OnPixel; decide +kernel
  have iteration : ∀ k ∈ ([0, 1] : List (BitVec 6)), (iterating k).IterOk := by
    unfold State.IterOk; decide +kernel
  have floats : ∀ k ∈ ([0, 1] : List (BitVec 6)), (iterating k).FloatsBounded := by
    unfold State.FloatsBounded f64AbsLe; decide +kernel
  exact fun k h => ⟨⟨codes k h, position k h, packer k h, count k h, iteration k h⟩, floats k h⟩

theorem test_witness_IterateComputesFiniteValues :
    (iterating 1).active = true ∧ (iterating 1).seq = Seq.iterate ∧ (iterating 1).FloatsBounded :=
  ⟨by decide +kernel, by decide +kernel, (test_iterating_bounded 1 (by decide +kernel)).2⟩

theorem test_witness_FloatBoundsKept :
    (iterating 0).Inv ∧ (iterating 0).FloatsBounded ∧ ∃ t, step (iterating 0) = .next t ∧ true = true :=
  ⟨(test_iterating_bounded 0 (by decide +kernel)).1, (test_iterating_bounded 0 (by decide +kernel)).2,
    next_of _ (fun _ => true) (by decide +kernel)⟩

theorem test_witness_MicroStepsComputeEval :
    (running 1).phase = Phase.run ∧ (running 1).seq = Seq.map ∧ (running 1).events = [] := by decide +kernel

theorem test_witness_HeaderIsDecimalText : (1 : Dim) ≠ 0 ∧ (65535 : Dim) ≠ 0 := by decide +kernel

theorem test_witness_OutputLength : (1 : Dim) ≠ 0 ∧ (65535 : Dim) ≠ 0 := by decide +kernel

/-- The only pixel of the dimension 1, and the first and the last pad bit of its byte. -/
theorem test_witness_PixelBitPlacement :
    0 < (1 : Dim).toNat ∧ (rowBytes 1 0)[0]? = some 0 ∧ 1 < 8 ∧ 7 < 8 ∧ (1 : Dim).toNat ≤ 8 * 0 + 1 := by decide +kernel

theorem test_witness_CodesLegalAlways :
    (stepping 3).CodesLegal ∧ ∃ t, step (stepping 3) = .next t ∧ true = true :=
  ⟨by unfold State.CodesLegal; decide, next_of _ (fun _ => true) (by decide +kernel)⟩

theorem test_witness_InvariantsKept : (iterating 1).Inv ∧ ∃ t, step (iterating 1) = .next t ∧ true = true :=
  ⟨(test_iterating_bounded 1 (by decide +kernel)).1, next_of _ (fun _ => true) (by decide +kernel)⟩

theorem test_witness_InvariantStatesNeverStop : (iterating 0).Inv := (test_iterating_bounded 0 (by decide +kernel)).1

theorem test_witness_RunInvariantAtStart :
    idle9.phase = Phase.idle ∧ idle9.size ≠ 0 ∧ (∃ t, exec .start idle9 = .next t ∧ true = true) ∧
    ∃ t, exec .startstep idle9 = .next t ∧ true = true :=
  ⟨by decide +kernel, by decide +kernel, next_of _ (fun _ => true) (by decide +kernel), next_of _ (fun _ => true) (by decide +kernel)⟩

/-- The run of dimension 1 at its first header byte, and at its one `ROWEND`. -/
def atHeader : State := { State.reset with size := 1, phase := Phase.run }

/-- See `atHeader`. -/
def atLastRow : State :=
  { State.reset with
    size := 1, phase := Phase.run, seq := Seq.rowend, hidx := 7, x := 1, bit := 64, outcnt := 7
    out := [0x50, 0x34, 0x0A, 0x31, 0x20, 0x31, 0x0A] }

theorem test_run_invariant_of_size_one : ∀ s ∈ [atHeader, atLastRow], s.RunInv [] := by
  have codes : ∀ s ∈ [atHeader, atLastRow], s.CodesLegal := by unfold State.CodesLegal; decide +kernel
  have position : ∀ s ∈ [atHeader, atLastRow], s.PositionOk := by
    unfold State.PositionOk State.OnPixel; decide +kernel
  have packer : ∀ s ∈ [atHeader, atLastRow], s.PackerOk := by unfold State.PackerOk State.OnPixel; decide +kernel
  have count : ∀ s ∈ [atHeader, atLastRow], s.CountOk := by unfold State.CountOk State.OnPixel; decide +kernel
  have iteration : ∀ s ∈ [atHeader, atLastRow], s.IterOk := by unfold State.IterOk; decide +kernel
  have stream : ∀ s ∈ [atHeader, atLastRow], s.StreamOk [] := by unfold State.StreamOk State.OnPixel; decide +kernel
  have seq : ∀ s ∈ [atHeader, atLastRow], s.seq ≠ Seq.iterate ∧ s.seq ≠ Seq.push := by decide +kernel
  exact fun s h =>
    ⟨⟨codes s h, position s h, packer s h, count s h, iteration s h⟩,
      fun _ => ⟨fun e => absurd e (seq s h).1, fun e => absurd e (seq s h).2⟩, stream s h⟩

theorem test_witness_RunInvariantKept :
    atHeader.RunInv [] ∧ atHeader.active = true ∧ ∃ t, step atHeader = .next t ∧ t.active = true :=
  ⟨test_run_invariant_of_size_one _ (by simp), by decide +kernel, next_of _ _ (by decide +kernel)⟩

theorem test_witness_FinishedRunAppendedWholeImage :
    atLastRow.RunInv [] ∧ atLastRow.active = true ∧
    ∃ t, step atLastRow = .next t ∧ decide (t.phase = Phase.done) = true :=
  ⟨test_run_invariant_of_size_one _ (by simp), by decide +kernel, next_of _ _ (by decide +kernel)⟩

theorem test_witness_StartedRunCompletes :
    idle9.phase = Phase.idle ∧ idle9.size ≠ 0 ∧ idle9.events = [] ∧ idle9.outReady = true ∧
    ∃ t, exec .start idle9 = .next t ∧ true = true :=
  ⟨by decide +kernel, by decide +kernel, by decide +kernel, by decide +kernel, next_of _ (fun _ => true) (by decide +kernel)⟩

/-- A sink change each way: to ready it meets a held micro-step, in `RUN` and in `HALT`, and changes `OUT_READY`. -/
theorem test_witness_SinkChangeAloneWritesOutReady :
    (∀ c ∈ ([0, 3, 4] : List Code3),
      let s : State := facing { running c with outReady := false } (.sinkReady true)
      s.events = [.sinkReady true] ∧ s.nextEvent = .sinkReady true ∧ s.phase = Phase.run) ∧
    (let s : State := facing { stepping 0 with outReady := false } (.sinkReady true)
     s.nextEvent = .sinkReady true ∧ s.phase = Phase.halt ∧ s.spend = true) ∧
    (facing (running 0) (.sinkReady false)).events = [.sinkReady false] ∧
    (∃ t, step (facing { running 0 with outReady := false } (.sinkReady true)) = .next t ∧
      decide (t.outReady ≠ false) = true) ∧
    ∃ t, step (facing (running 0) (.sinkReady false)) = .next t ∧ decide (t.outReady ≠ true) = true :=
  ⟨by decide +kernel, by decide +kernel, by decide +kernel, next_of _ _ (by decide +kernel),
    next_of _ _ (by decide +kernel)⟩

end Sys2Proof.Tests
end

section
/-! The host's register words (10_state.md section 2) as numbers: a word written as its fields side by side is the sum of
the fields at their places, and reset leaves the words that section 4 states. -/

namespace Sys2Proof.Machine

/-! ### Fields side by side, as numbers -/

/-- The field on the left of a concatenation counts in units of the field on its right. -/
theorem toNat_append_eq_mul_add {m n : Nat} (hi : BitVec m) (lo : BitVec n) :
    (hi ++ lo).toNat = hi.toNat * 2 ^ n + lo.toNat := by
  rw [BitVec.toNat_append, ← Nat.shiftLeft_add_eq_or_of_lt lo.isLt, Nat.shiftLeft_eq]

@[simp] theorem toNat_flagBit (b : Bool) : (flagBit b).toNat = b.toNat := BitVec.toNat_ofBool b

theorem State.statusWord_toNat (s : State) :
    s.statusWord.toNat =
      s.phase.toNat + s.seq.toNat * 2 ^ 4 + s.cerr.toNat * 2 ^ 8 + s.szerr.toNat * 2 ^ 9 +
        s.spend.toNat * 2 ^ 10 + s.hidx.toNat * 2 ^ 16 := by
  simp only [State.statusWord, toNat_append_eq_mul_add, toNat_flagBit, BitVec.toNat_zero]
  ring

theorem State.sizeWord_toNat (s : State) : s.sizeWord.toNat = s.size.toNat := by
  simp only [State.sizeWord, toNat_append_eq_mul_add, BitVec.toNat_zero]
  ring

theorem State.posWord_toNat (s : State) : s.posWord.toNat = s.x.toNat + s.y.toNat * 2 ^ 16 := by
  rw [State.posWord, toNat_append_eq_mul_add, Nat.add_comm]

theorem State.itstatWord_toNat (s : State) : s.itstatWord.toNat = s.iter.toNat + s.m.toNat * 2 ^ 8 := by
  simp only [State.itstatWord, toNat_append_eq_mul_add, toNat_flagBit, BitVec.toNat_zero]
  ring

theorem State.packWord_toNat (s : State) : s.packWord.toNat = s.byteAcc.toNat + s.bit.toNat * 2 ^ 8 := by
  simp only [State.packWord, toNat_append_eq_mul_add, BitVec.toNat_zero]
  ring

/-! ### Accesses -/

/-- R191: only a write to `CMD` does anything. -/
theorem hostWrite_of_ne {i : RegIndex} (hi : i ≠ 0) (w : Word32) (s : State) : hostWrite i w s = .next s := if_neg hi

/-- Settles O11: each word is the sum of its fields, and every index but `CMD` is read-only. -/
theorem registerWordsMatchTables : Obligations.RegisterWordsMatchTables := fun s =>
  ⟨s.statusWord_toNat, s.sizeWord_toNat, s.posWord_toNat, s.itstatWord_toNat, s.packWord_toNat, rfl, rfl, rfl,
    fun _ w hi => hostWrite_of_ne hi w s⟩

/-! ### The words after reset -/

/-- R51, its sentence on the register words: of all components only `BIT` is not 0, and `PACK` alone shows it. -/
theorem reset_readRegister (i : RegIndex) :
    State.reset.readRegister i = if i = 5 then 0x00008000 else 0 := by
  revert i
  decide

/-- Settles O14: the components by the reset table, the words by evaluating the sixteen reads. -/
theorem resetStateAndRegisterWords : Obligations.ResetStateAndRegisterWords :=
  ⟨⟨rfl, rfl, rfl, rfl, rfl, rfl, rfl, rfl, rfl, rfl, rfl, rfl, rfl, rfl, rfl, rfl, rfl, rfl⟩, reset_readRegister⟩

end Sys2Proof.Machine
end

section
/-! R50, one kind of event at a time: held codes, a pending step only in `HALT` and a size error only in `ERROR` are kept
by every command, every micro-step and every event around the block. -/

namespace Sys2Proof.Machine

/-! ### What R50 says of a phase -/

/-- A run is not active in `ERROR`, so it carries no size error. -/
theorem State.CodesLegal.szerr_of_active {s : State} (h : s.CodesLegal) (ha : s.active = true) : s.szerr = false := by
  obtain ⟨-, -, -, hszerr⟩ := h
  rw [← Bool.not_eq_true]
  intro he
  have : s.active = false := by simp [State.active, hszerr he]
  simp [this] at ha

/-- Outside a run the phase is not `HALT`, so no step is pending. -/
theorem State.CodesLegal.spend_of_noRun {s : State} (h : s.CodesLegal) (hn : s.noRun = true) : s.spend = false := by
  obtain ⟨-, -, hspend, -⟩ := h
  rw [← Bool.not_eq_true]
  intro hs
  simp [State.noRun, hspend hs] at hn

/-- R50 speaks of four components only. -/
theorem State.CodesLegal.of_same_codes {s t : State} (h : s.CodesLegal) (hphase : t.phase = s.phase)
    (hseq : t.seq = s.seq) (hspend : t.spend = s.spend) (hszerr : t.szerr = s.szerr) : t.CodesLegal := by
  simpa only [State.CodesLegal, hphase, hseq, hspend, hszerr] using h

theorem reset_codesLegal : State.reset.CodesLegal := by simp [State.CodesLegal, State.reset]

theorem applyReset_codesLegal (s : State) : s.applyReset.CodesLegal :=
  reset_codesLegal.of_same_codes rfl rfl rfl rfl

theorem State.CodesLegal.reject {s : State} (h : s.CodesLegal) : s.reject.CodesLegal :=
  h.of_same_codes rfl rfl rfl rfl

/-! ### Commands -/

/-- A start is accepted or refused: the run begins with both flags clear, or `SZERR` is set together with `ERROR`. -/
theorem beginRun_codesLegal {s : State} (h : s.CodesLegal) (hn : s.noRun = true) {p : Code3} (hp : p.toNat ≤ 4) :
    (s.beginRun p).CodesLegal := by
  have hspend := h.spend_of_noRun hn
  obtain ⟨-, hseq, -, -⟩ := h
  by_cases hz : s.size = 0
  · rw [State.beginRun_of_zero p hz]
    exact ⟨by simp, hseq, by simp [hspend], by simp⟩
  · rw [State.beginRun_of_ne p hz]
    exact ⟨hp, by simp, by simp, by simp⟩

/-- What `PAUSE` and `RESUME` do to an active run, which carries no size error. -/
theorem changePhase_codesLegal {s : State} (h : s.CodesLegal) (ha : s.active = true) {p : Code3} (hp : p.toNat ≤ 4) :
    ({ s with phase := p, spend := false } : State).CodesLegal := by
  have hnoerr := h.szerr_of_active ha
  obtain ⟨-, hseq, -, -⟩ := h
  exact ⟨hp, hseq, by simp, by simp [hnoerr]⟩

theorem commandEffect_codesLegal {s : State} (h : s.CodesLegal) {i : Instr} (hl : legal s i = true) :
    (commandEffect i s).CodesLegal := by
  cases i with
  | start => exact beginRun_codesLegal h hl (by simp)
  | startstep => exact beginRun_codesLegal h hl (by simp)
  | step =>
    obtain ⟨hhalt, -⟩ : s.phase = Phase.halt ∧ s.spend = false := by simpa [legal] using hl
    obtain ⟨hphase, hseq, -, hszerr⟩ := h
    exact ⟨hphase, hseq, fun _ => hhalt, hszerr⟩
  | pause =>
    have hrun : s.phase = Phase.run := by simpa [legal] using hl
    exact changePhase_codesLegal h ((s.active_iff).2 (.inl hrun)) (by simp)
  | resume =>
    have hhalt : s.phase = Phase.halt := by simpa [legal] using hl
    exact changePhase_codesLegal h ((s.active_iff).2 (.inr hhalt)) (by simp)
  | nop | setsize n | hdr | map | iterate | push | rowend => exact h

theorem hostWrite_codesLegal {s t : State} (h : s.CodesLegal) {i : RegIndex} {w : Word32}
    (hw : hostWrite i w s = .next t) : t.CodesLegal := by
  obtain ⟨-, rfl⟩ | ⟨-, -, -, rfl⟩ | ⟨-, c, -, -, ⟨hl, rfl⟩ | ⟨-, rfl⟩⟩ := hostWrite_next hw
  · exact h
  · exact h.reject
  · exact commandEffect_codesLegal h hl
  · exact h.reject

/-! ### Micro-steps -/

/-- R166: each micro-step names a held code as the next one. -/
theorem microEffect_seq_le (i : Instr) {s : State} (h : s.seq.toNat ≤ 4) : (microEffect i s).seq.toNat ≤ 4 := by
  cases i with
  | hdr => simp only [microEffect, hdrEffect_seq]; split <;> simp [h]
  | map => simp [microEffect]
  | iterate => simp only [microEffect, iterateEffect_seq]; split <;> simp
  | push => simp only [microEffect, pushEffect_seq]; split <;> simp
  | rowend => simp only [microEffect, rowendEffect_seq]; split <;> simp [h]
  | nop | setsize n | start | startstep | step | pause | resume => exact h

@[simp] theorem microEffect_szerr (i : Instr) (s : State) : (microEffect i s).szerr = s.szerr := by
  cases i <;> simp [microEffect]

/-- A micro-step's effect touches `PHASE` and `SPEND` only where it ends the run (R135). -/
theorem microEffect_phase_spend (i : Instr) (s : State) :
    ((microEffect i s).phase = s.phase ∧ (microEffect i s).spend = s.spend) ∨
      ((microEffect i s).phase = Phase.done ∧ (microEffect i s).spend = false) := by
  cases i with
  | rowend =>
    by_cases hlast : s.y.toNat + 1 = s.size.toNat
    · exact .inr (by simp [microEffect, hlast])
    · exact .inl (by simp [microEffect, hlast])
  | hdr | map | iterate | push => exact .inl (by simp [microEffect])
  | nop | setsize n | start | startstep | step | pause | resume => exact .inl ⟨rfl, rfl⟩

/-- An enabled micro-step with R165's bookkeeping: `SPEND` is cleared in `HALT` and was clear elsewhere. -/
theorem endMicro_microEffect_codesLegal {s : State} (h : s.CodesLegal) (ha : s.active = true) (i : Instr) :
    (s.endMicro (microEffect i s)).CodesLegal := by
  have hnoerr := h.szerr_of_active ha
  obtain ⟨hphase, hseq, hspend, -⟩ := h
  have hseq' : (s.endMicro (microEffect i s)).seq.toNat ≤ 4 := by simpa using microEffect_seq_le i hseq
  have hszerr' : (s.endMicro (microEffect i s)).szerr = true → (s.endMicro (microEffect i s)).phase = Phase.error := by
    simp [hnoerr]
  obtain ⟨hp, hs⟩ | ⟨hp, hs⟩ := microEffect_phase_spend i s
  · exact ⟨by simpa [hp] using hphase, hseq', by simpa [hp, hs] using fun _ => hspend, hszerr'⟩
  · exact ⟨by simp [hp], hseq', by simp [hs], hszerr'⟩

theorem microStep_codesLegal {s t : State} (h : s.CodesLegal) (hm : microStep s = .next t) : t.CodesLegal := by
  obtain ⟨-, ⟨i, -, he, rfl⟩ | ⟨-, rfl⟩⟩ := microStep_next hm
  · have hg : s.granted = true := ((s.enabled_iff).1 he).1
    exact endMicro_microEffect_codesLegal h (State.active_of_granted hg) i
  · exact h

/-! ### Every event -/

theorem step_codesLegal {s t : State} (h : s.CodesLegal) (hs : step s = .next t) : t.CodesLegal := by
  have hturn : s.takeTurn.CodesLegal := h.of_same_codes rfl rfl rfl rfl
  obtain ⟨i, -, rfl⟩ | ⟨i, w, -, hw⟩ | ⟨-, hm⟩ | ⟨r, -, rfl⟩ | ⟨-, rfl⟩ := step_next hs
  · exact hturn.of_same_codes rfl rfl rfl rfl
  · exact hostWrite_codesLegal hturn hw
  · exact microStep_codesLegal hturn hm
  · exact hturn.of_same_codes rfl rfl rfl rfl
  · exact applyReset_codesLegal s.takeTurn

/-- Settles O51: R50 holds at reset, and each of the five events of R163 keeps it. -/
theorem codesLegalAlways : Obligations.CodesLegalAlways := ⟨reset_codesLegal, fun _ _ => step_codesLegal⟩

end Sys2Proof.Machine
end

section
/-! R62, carried from the effects up through the frames of the model to one step: whatever runs appends at most one byte to
the stream, and the stream's contents decide neither that byte nor anything else. One predicate says both, so that each
layer is passed once. -/

namespace Sys2Proof.Machine

open Host

/-! ### A stream put in place of another -/

/-- The same block with other contents in the sink's stream. -/
def State.withOut (s : State) (l : List Byte) : State := { s with out := l }

@[simp] theorem State.withOut_out (s : State) (l : List Byte) : (s.withOut l).out = l := rfl
@[simp] theorem State.withOut_self (s : State) : s.withOut s.out = s := rfl
@[simp] theorem State.withOut_phase (s : State) (l : List Byte) : (s.withOut l).phase = s.phase := rfl
@[simp] theorem State.withOut_seq (s : State) (l : List Byte) : (s.withOut l).seq = s.seq := rfl
@[simp] theorem State.withOut_size (s : State) (l : List Byte) : (s.withOut l).size = s.size := rfl
@[simp] theorem State.withOut_phaseHeld (s : State) (l : List Byte) : (s.withOut l).phaseHeld = s.phaseHeld := rfl
@[simp] theorem State.withOut_seqHeld (s : State) (l : List Byte) : (s.withOut l).seqHeld = s.seqHeld := rfl
@[simp] theorem State.withOut_granted (s : State) (l : List Byte) : (s.withOut l).granted = s.granted := rfl
@[simp] theorem State.withOut_enabled (s : State) (l : List Byte) : (s.withOut l).enabled = s.enabled := rfl
@[simp] theorem State.withOut_nextEvent (s : State) (l : List Byte) : (s.withOut l).nextEvent = s.nextEvent := rfl
@[simp] theorem State.withOut_takeTurn (s : State) (l : List Byte) :
    (s.withOut l).takeTurn = s.takeTurn.withOut l := rfl
@[simp] theorem State.withOut_reject (s : State) (l : List Byte) : (s.withOut l).reject = s.reject.withOut l := rfl

@[simp] theorem legal_withOut (s : State) (l : List Byte) (i : Instr) : legal (s.withOut l) i = legal s i := by
  cases i <;> rfl

theorem State.endMicro_withOut (s t : State) (l l' : List Byte) :
    (s.withOut l).endMicro (t.withOut l') = (s.endMicro t).withOut l' := by
  unfold State.endMicro
  rw [State.withOut_phase]
  split_ifs <;> rfl

/-! ### The predicate, for an effect and for what answers an outcome -/

/-- R62 for an effect: on any stream it appends the same byte, or none, and does the same otherwise. -/
def EffectAppends (f : State → State) : Prop :=
  ∀ s, ∃ b : Option Byte, ∀ l, f (s.withOut l) = (f s).withOut (l ++ b.toList)

/-- R62 for an outcome, at one state: where there is a next state, there is one on any other stream, and it differs in
the stream only, by what stood there before. -/
def AppendsAt (f : State → Outcome State Fault Refusal) (s : State) : Prop :=
  ∀ t, f s = .next t → ∃ b : Option Byte, ∀ l, f (s.withOut l) = .next (t.withOut (l ++ b.toList))

theorem effectAppends_of_commutes {f : State → State} (h : ∀ s l, f (s.withOut l) = (f s).withOut l) :
    EffectAppends f := fun s => ⟨none, fun l => by simp [h s l]⟩

theorem EffectAppends.next {f : State → State} (h : EffectAppends f) (s : State) :
    AppendsAt (fun u => .next (f u)) s := by
  rintro t ⟨⟩
  obtain ⟨b, hb⟩ := h s
  exact ⟨b, fun l => congrArg Outcome.next (hb l)⟩

theorem effectAppends_id : EffectAppends (fun s => s) := effectAppends_of_commutes fun _ _ => rfl

theorem effectAppends_reject : EffectAppends State.reject := effectAppends_of_commutes State.withOut_reject

/-! ### Effects -/

/-- R201 and R232: a start, accepted or refused, keeps the stream. -/
theorem effectAppends_beginRun (p : Code3) : EffectAppends (fun s => s.beginRun p) :=
  effectAppends_of_commutes fun s l => by
    by_cases hz : s.size = 0
    · rw [State.beginRun_of_zero p hz, State.beginRun_of_zero p (by simpa using hz)]
      rfl
    · rw [State.beginRun_of_ne p hz, State.beginRun_of_ne p (by simpa using hz)]
      rfl

theorem commandEffect_appends (i : Instr) : EffectAppends (commandEffect i) := by
  cases i with
  | start => exact effectAppends_beginRun Phase.run
  | startstep => exact effectAppends_beginRun Phase.halt
  | setsize n => exact effectAppends_of_commutes fun _ _ => rfl
  | step | pause | resume => exact effectAppends_of_commutes fun _ _ => rfl
  | nop | hdr | map | iterate | push | rowend => exact effectAppends_id

theorem mapEffect_appends (N : Numerics) : EffectAppends (mapEffect N) := effectAppends_of_commutes fun _ _ => rfl

theorem iterateEffect_appends (N : Numerics) : EffectAppends (iterateEffect N) :=
  effectAppends_of_commutes fun _ _ => rfl

theorem hdrEffect_appends : EffectAppends hdrEffect := fun s =>
  ⟨some (headerByte s.size s.hidx.toNat), fun _ => rfl⟩

/-- R134, the eighth bit: the accumulator goes out and starts afresh. -/
theorem packBit_of_eighth {s : State} (h : s.bit = 1) :
    packBit s = { s.emit (pushedAcc s) with byteAcc := Config.accInit, bit := Config.bitInit } := if_pos h

/-- R134, an earlier bit: it stays in the accumulator. -/
theorem packBit_of_earlier {s : State} (h : s.bit ≠ 1) :
    packBit s = { s with byteAcc := pushedAcc s, bit := s.bit >>> 1 } := if_neg h

theorem packBit_appends : EffectAppends packBit := fun s => by
  by_cases h : s.bit = 1
  · refine ⟨some (pushedAcc s), fun l => ?_⟩
    rw [packBit_of_eighth h, packBit_of_eighth (s := s.withOut l) h]
    rfl
  · refine ⟨none, fun l => ?_⟩
    rw [packBit_of_earlier h, packBit_of_earlier (s := s.withOut l) h, Option.toList_none, List.append_nil]
    rfl

theorem pushEffect_appends : EffectAppends pushEffect := fun s => by
  obtain ⟨b, hb⟩ := packBit_appends s
  refine ⟨b, fun l => ?_⟩
  rw [pushEffect, hb l]
  rfl

/-- R135, a row that ends on a byte boundary: nothing is left to flush. -/
theorem flushRow_of_whole {s : State} (h : s.bit = Config.bitInit) :
    flushRow s = { s with byteAcc := Config.accInit, bit := Config.bitInit } := by
  rw [flushRow, if_neg (not_not.2 h)]

/-- R135, a row that ends within a byte: the byte goes out padded. -/
theorem flushRow_of_padded {s : State} (h : s.bit ≠ Config.bitInit) :
    flushRow s = { s.emit s.byteAcc with byteAcc := Config.accInit, bit := Config.bitInit } := by
  rw [flushRow, if_pos h]

theorem flushRow_appends : EffectAppends flushRow := fun s => by
  by_cases h : s.bit = Config.bitInit
  · refine ⟨none, fun l => ?_⟩
    rw [flushRow_of_whole h, flushRow_of_whole (s := s.withOut l) h, Option.toList_none, List.append_nil]
    rfl
  · refine ⟨some s.byteAcc, fun l => ?_⟩
    rw [flushRow_of_padded h, flushRow_of_padded (s := s.withOut l) h]
    rfl

theorem rowendEffect_appends : EffectAppends rowendEffect := fun s => by
  obtain ⟨b, hb⟩ := flushRow_appends s
  refine ⟨b, fun l => ?_⟩
  rw [rowendEffect, hb l]
  by_cases hlast : s.y.toNat + 1 = s.size.toNat <;> simp [rowendEffect, hlast, State.withOut]

theorem microEffect_appends (i : Instr) : EffectAppends (microEffect i) := by
  cases i with
  | hdr => exact hdrEffect_appends
  | map => exact mapEffect_appends binary64
  | iterate => exact iterateEffect_appends binary64
  | push => exact pushEffect_appends
  | rowend => exact rowendEffect_appends
  | nop | setsize n | start | startstep | step | pause | resume => exact effectAppends_id

/-! ### The frames -/

theorem performCommand_appends {i : Instr} {act : State → State} (h : EffectAppends act) (s : State) :
    AppendsAt (performCommand i act) s := by
  intro t ht
  obtain ⟨hp, ⟨hl, rfl⟩ | ⟨hl, rfl⟩⟩ := performCommand_next ht
  · obtain ⟨b, hb⟩ := h s
    refine ⟨b, fun l => ?_⟩
    rw [performCommand_of_legal (by simpa using hp) (by simpa using hl), hb l]
  · obtain ⟨b, hb⟩ := effectAppends_reject s
    refine ⟨b, fun l => ?_⟩
    rw [performCommand_of_not_legal (by simpa using hp) (by simpa using hl), hb l]

theorem performMicro_appends {code : Code3} {act : State → State} (h : EffectAppends act) (s : State) :
    AppendsAt (performMicro code act) s := by
  intro t ht
  obtain ⟨hp, ⟨hheld, hseq, he, rfl⟩ | ⟨hoff, rfl⟩⟩ := performMicro_next ht
  · obtain ⟨b, hb⟩ := h s
    refine ⟨b, fun l => ?_⟩
    rw [performMicro_of_enabled (by simpa using hheld) (by simpa using hseq) (by simpa using he), hb l,
      State.endMicro_withOut]
  · have hheld : t.granted = true → t.seqHeld = true := by
      intro hg
      by_contra hn
      rw [performMicro_of_seq hg (by simpa using hn)] at ht
      cases ht
    refine ⟨none, fun l => ?_⟩
    rw [performMicro_of_not_enabled (by simpa using hp) (by simpa using hheld) (by simpa using hoff)]
    simp

/-! ### Events -/

theorem command_appends (w : Word32) (s : State) : AppendsAt (command w) s := by
  cases hd : decodeCommand w with
  | error e =>
    have hcommand : command w = fun u => .next u.reject := funext fun u => by rw [command, hd]
    rw [hcommand]
    exact effectAppends_reject.next s
  | ok c =>
    have hcommand : command w = performCommand c (commandEffect c) := funext fun u => by
      rw [command, hd]
      exact exec_of_command (decodeCommand_space hd) u
    rw [hcommand]
    exact performCommand_appends (commandEffect_appends c) s

theorem hostWrite_appends (i : RegIndex) (w : Word32) (s : State) : AppendsAt (hostWrite i w) s := by
  by_cases hi : i = 0
  · subst hi
    exact command_appends w s
  · rw [show hostWrite i w = .next from funext (hostWrite_of_ne hi w)]
    exact effectAppends_id.next s

/-- The block's turn: `SEQ`, not the stream, names the micro-step, so the same one runs on every stream. -/
theorem microStep_appends (s : State) : AppendsAt microStep s := by
  obtain ⟨act, hact, hturn⟩ : ∃ act, EffectAppends act ∧
      ∀ l, microStep (s.withOut l) = performMicro s.seq act (s.withOut l) := by
    cases hd : decodeSeq s.seq with
    | error e => exact ⟨_, effectAppends_id, fun l => by rw [microStep, State.withOut_seq, hd]⟩
    | ok i =>
      refine ⟨_, microEffect_appends i, fun l => ?_⟩
      rw [microStep, State.withOut_seq, hd]
      exact exec_of_seq (s := s.withOut l) hd
  intro t ht
  obtain ⟨b, hb⟩ := performMicro_appends hact s t (hturn s.out ▸ ht)
  exact ⟨b, fun l => (hturn l).trans (hb l)⟩

/-- R190: no register word shows the stream. -/
theorem hostRead_appends (i : RegIndex) : EffectAppends (hostRead i) := effectAppends_of_commutes fun _ _ => rfl

theorem performEvent_appends (e : Event) (s : State) : AppendsAt (performEvent e) s := by
  cases e with
  | hostRead i => exact (hostRead_appends i).next s
  | hostWrite i w => exact hostWrite_appends i w s
  | blockTurn => exact microStep_appends s
  | sinkReady r => exact (effectAppends_of_commutes (f := fun u => u.setReady r) fun _ _ => rfl).next s
  | reset => exact (effectAppends_of_commutes (f := State.applyReset) fun _ _ => rfl).next s

theorem step_appends (s : State) : AppendsAt step s := by
  intro t ht
  rw [step_eq] at ht
  obtain ⟨b, hb⟩ := performEvent_appends s.nextEvent s.takeTurn t ht
  refine ⟨b, fun l => ?_⟩
  rw [step_eq, State.withOut_nextEvent, State.withOut_takeTurn, hb l]

/-- What a step appends, read off at the stream the state holds. -/
theorem step_out_eq_append {s t : State} (hs : step s = .next t) :
    ∃ b : Option Byte, t.out = s.out ++ b.toList ∧
      ∀ l, step (s.withOut l) = .next (t.withOut (l ++ b.toList)) := by
  obtain ⟨b, hb⟩ := step_appends s t hs
  have hself : t = t.withOut (s.out ++ b.toList) := by
    have := hb s.out
    rw [State.withOut_self, hs] at this
    exact Outcome.next.inj this
  exact ⟨b, congrArg State.out hself, hb⟩

/-- Settles O35: both halves from the one byte, or none, that a step appends to any stream. -/
theorem streamIsAppendOnlyAndNeverRead : Obligations.StreamIsAppendOnlyAndNeverRead := by
  refine ⟨fun s t hs => ?_, fun s t l hs => ?_⟩
  · obtain ⟨b, hout, -⟩ := step_out_eq_append hs
    cases b with
    | none => exact .inl (by simpa using hout)
    | some b => exact .inr ⟨b, hout⟩
  · obtain ⟨b, hout, hstep⟩ := step_out_eq_append hs
    rw [hout, List.drop_left]
    exact hstep l

end Sys2Proof.Machine
end

section
/-! The command decoder of R84 on the words of R89: what it answers on the word of a command (R82, R83), and the
reason of R85 by which it rejects a word. -/

namespace Sys2Proof

/-! ### The fields of a word built from its fields (R81) -/

@[simp] theorem cmdOp_commandWord (imm : Dim) (op : BitVec 4) : cmdOp (commandWord imm op) = op := by
  unfold cmdOp commandWord
  rw [BitVec.extractLsb'_append_eq_of_add_le (by decide), BitVec.extractLsb'_append_eq_of_add_le (by decide),
    BitVec.extractLsb'_eq_self]

@[simp] theorem cmdRsv_commandWord (imm : Dim) (op : BitVec 4) : cmdRsv (commandWord imm op) = 0 := by
  unfold cmdRsv commandWord
  rw [BitVec.extractLsb'_append_eq_of_add_le (by decide), BitVec.extractLsb'_append_eq_left]
  rfl

@[simp] theorem cmdImm_commandWord (imm : Dim) (op : BitVec 4) : cmdImm (commandWord imm op) = imm :=
  BitVec.extractLsb'_append_eq_left

/-! ### The words that decode -/

/-- The one opcode with an immediate, for every value of it. -/
theorem decodeCommand_commandWord_setsize (n : Dim) : decodeCommand (commandWord n 1) = .ok (.setsize n) := by
  simp [decodeCommand]

/-- Decoding undoes the encoder on the command words: the seven rows of R83. -/
theorem decodeCommand_of_encode {i : Instr} {w : Word32} (h : encode i = .command w) : decodeCommand w = .ok i := by
  cases i with
  | setsize n => cases h; exact decodeCommand_commandWord_setsize n
  | nop | start | startstep | step | pause | resume => cases h; rfl
  | hdr | map | iterate | push | rowend => cases h

/-! ### The words that are rejected, in the order of the tests -/

theorem decodeCommand_of_reservedBits {w : Word32} (hrsv : cmdRsv w ≠ 0) :
    decodeCommand w = .error .reservedBits := if_pos hrsv

theorem decodeCommand_of_reservedOpcode {w : Word32} (hrsv : cmdRsv w = 0) (hop : 7 ≤ (cmdOp w).toNat) :
    decodeCommand w = .error .reservedOpcode := by
  rw [decodeCommand, if_neg (not_not.2 hrsv), if_pos hop]

theorem decodeCommand_of_immediateNotZero {w : Word32} (hrsv : cmdRsv w = 0) (hop : (cmdOp w).toNat < 7)
    (hset : cmdOp w ≠ 1) (himm : cmdImm w ≠ 0) : decodeCommand w = .error .immediateNotZero := by
  rw [decodeCommand, if_neg (not_not.2 hrsv), if_neg (Nat.not_le.2 hop), if_neg hset, if_pos himm]

/-! ### The table of examples -/

/-- Settles O5: each legal word is the code of its command, and each illegal one fails the test of its reason. -/
theorem exampleWordsDecode : Obligations.ExampleWordsDecode := by
  unfold Obligations.ExampleWordsDecode
  refine ⟨?nop, ?setsize1, ?setsize9, ?setsize0, ?setsizeMax, ?start, ?startstep, ?step, ?pause, ?resume,
    ?reservedOpcode, ?reservedBits, ?immediateNotZero⟩
  case reservedOpcode => exact decodeCommand_of_reservedOpcode (by decide) (by decide)
  case reservedBits => exact decodeCommand_of_reservedBits (by decide)
  case immediateNotZero =>
    exact decodeCommand_of_immediateNotZero (by decide) (by decide) (by decide) (by decide)
  all_goals exact decodeCommand_of_encode rfl

end Sys2Proof
end

section
/-! R100 on finite operands: each operation of `binary64` is one rounding of the exact result. A bound on the exact result
by a representable magnitude is a bound on the rounded one, and an exact result that is representable is returned as it
is. -/

namespace Sys2Proof.Machine

/-! ### The operations of the record -/

@[simp] theorem binary64_ofNat (n : Nat) : binary64.ofNat n = f64OfNat n := rfl
@[simp] theorem binary64_add (a b : F64) : binary64.add a b = f64Add a b := rfl
@[simp] theorem binary64_sub (a b : F64) : binary64.sub a b = f64Sub a b := rfl
@[simp] theorem binary64_mul (a b : F64) : binary64.mul a b = f64Mul a b := rfl
@[simp] theorem binary64_div (a b : F64) : binary64.div a b = f64Div a b := rfl
@[simp] theorem binary64_ge (a b : F64) : binary64.ge a b = f64Ge a b := rfl

/-! ### Finite values -/

theorem f64IsNaN_of_finite {x : F64} (h : f64IsFinite x = true) : f64IsNaN x = false := by
  rw [← Bool.not_eq_true, f64IsNaN_iff]
  exact ((f64IsFinite_iff x).1 h).le.not_gt

theorem f64IsInf_of_finite {x : F64} (h : f64IsFinite x = true) : f64IsInf x = false := by
  rw [← Bool.not_eq_true, f64IsInf_iff]
  exact ((f64IsFinite_iff x).1 h).ne

@[simp] theorem f64Units_natAbs (x : F64) : (f64Units x).natAbs = f64Mag x := by
  unfold f64Units
  split <;> simp

theorem f64Units_of_nonneg {x : F64} (h : f64Sign x = false) : f64Units x = f64Mag x := by
  simp [f64Units, h]

theorem f64Mag_le_iff {x y : F64} : f64Mag x ≤ f64Mag y ↔ low63 x ≤ low63 y := by
  rw [f64Mag_eq, f64Mag_eq, patMag_strictMono.le_iff_le]

/-- Among finite values a bound on the magnitude is a bound on its pattern. -/
theorem f64AbsLe_iff {v b : F64} (hb : f64IsFinite b = true) : f64AbsLe v b ↔ low63 v ≤ low63 b := by
  rw [f64AbsLe, f64Units_natAbs, f64Units_natAbs, f64Mag_le_iff, f64IsFinite_iff]
  exact and_iff_right_of_imp fun h => h.trans_lt ((f64IsFinite_iff b).1 hb)

/-! ### The other sign -/

theorem f64Sign_neg (x : F64) : f64Sign (f64Neg x) = !f64Sign x := by
  have htop : (0x8000000000000000 : F64).msb = true := by decide
  rw [f64Sign, f64Sign, f64Neg, BitVec.msb_xor, htop, Bool.xor_true]

theorem low63_neg (x : F64) : low63 (f64Neg x) = low63 x := by
  have htop : (0x8000000000000000 : F64).toNat % 2 ^ 63 = 0 := by decide
  rw [low63, low63, f64Neg, BitVec.toNat_xor, Nat.xor_mod_two_pow, htop, Nat.xor_zero]

theorem f64IsFinite_neg (x : F64) : f64IsFinite (f64Neg x) = f64IsFinite x := by
  rw [Bool.eq_iff_iff, f64IsFinite_iff, f64IsFinite_iff, low63_neg]

theorem f64Units_neg (x : F64) : f64Units (f64Neg x) = -f64Units x := by
  unfold f64Units
  rw [f64Sign_neg, f64Mag_eq, f64Mag_eq, low63_neg]
  cases f64Sign x <;> simp

/-! ### One rounding -/

theorem low63_roundSigned (sign : Bool) (n d : Nat) : low63 (roundSigned sign n d) = roundMag n d :=
  low63_pack sign (roundMag_lt n d)

theorem f64Sign_roundSigned (sign : Bool) (n d : Nat) : f64Sign (roundSigned sign n d) = sign :=
  f64Sign_pack sign (roundMag_lt n d)

/-- Rounding does not pass a representable bound. -/
theorem roundMag_le_low63 {n d : Nat} {b : F64} (hd : 0 < d) (h : n ≤ f64Mag b * d) : roundMag n d ≤ low63 b :=
  roundMag_le hd (by rwa [← f64Mag_eq])

/-- A representable result is returned as it is. -/
theorem roundSigned_exact {n d : Nat} {b : F64} (hb : f64IsFinite b = true) (hd : 0 < d) (h : n = f64Mag b * d) :
    roundSigned (f64Sign b) n d = b := by
  rw [roundSigned, roundMag_exact hd ((f64IsFinite_iff b).1 hb).le (by rwa [← f64Mag_eq]), f64Pack_self]

theorem roundMag_zero_one : roundMag 0 1 = 0 := roundMag_exact Nat.one_pos (Nat.zero_le _) rfl

/-- A sum of finite values has the magnitude of the exact sum, rounded: an exact zero included. -/
theorem low63_f64Sum {a b : F64} (nan : F64) (ha : f64IsFinite a = true) (hb : f64IsFinite b = true) :
    low63 (f64Sum nan a b) = roundMag (f64Units a + f64Units b).natAbs 1 := by
  rw [f64Sum, if_neg (by simp [f64IsInf_of_finite ha]), if_neg (by simp [f64IsInf_of_finite hb])]
  split
  · next hz => rw [hz, Int.natAbs_zero, roundMag_zero_one, low63_pack _ (by norm_num)]
  · exact low63_roundSigned _ _ _

theorem low63_f64Add {a b : F64} (ha : f64IsFinite a = true) (hb : f64IsFinite b = true) :
    low63 (f64Add a b) = roundMag (f64Units a + f64Units b).natAbs 1 := by
  rw [f64Add, if_neg (by simp [f64IsNaN_of_finite, ha, hb]), low63_f64Sum _ ha hb]

theorem low63_f64Sub {a b : F64} (ha : f64IsFinite a = true) (hb : f64IsFinite b = true) :
    low63 (f64Sub a b) = roundMag (f64Units a - f64Units b).natAbs 1 := by
  rw [f64Sub, if_neg (by simp [f64IsNaN_of_finite, ha, hb]), low63_f64Sum _ ha (by rwa [f64IsFinite_neg]), f64Units_neg,
    sub_eq_add_neg]

theorem f64Mul_of_finite {a b : F64} (ha : f64IsFinite a = true) (hb : f64IsFinite b = true) :
    f64Mul a b = roundSigned (f64Sign a != f64Sign b) (f64Mag a * f64Mag b) unitScale := by
  rw [f64Mul, if_neg (by simp [f64IsNaN_of_finite, ha, hb]), if_neg (by simp [f64IsInf_of_finite, ha, hb])]

theorem f64Div_of_finite {a b : F64} (ha : f64IsFinite a = true) (hb : f64IsFinite b = true) (h0 : f64Mag b ≠ 0) :
    f64Div a b = roundSigned (f64Sign a != f64Sign b) (f64Mag a * unitScale) (f64Mag b) := by
  rw [f64Div, if_neg (by simp [f64IsNaN_of_finite, ha, hb]), if_neg (by simp [f64IsInf_of_finite ha]),
    if_neg (by simp [f64IsInf_of_finite hb]), if_neg h0]

/-! ### Bounds that survive the rounding -/

theorem unitScale_pos : 0 < unitScale := by decide +kernel

theorem f64AbsLe_add {a b c : F64} (ha : f64IsFinite a = true) (hb : f64IsFinite b = true) (hc : f64IsFinite c = true)
    (h : (f64Units a + f64Units b).natAbs ≤ f64Mag c) : f64AbsLe (f64Add a b) c := by
  rw [f64AbsLe_iff hc, low63_f64Add ha hb]
  exact roundMag_le_low63 Nat.one_pos (by rwa [Nat.mul_one])

theorem f64AbsLe_sub {a b c : F64} (ha : f64IsFinite a = true) (hb : f64IsFinite b = true) (hc : f64IsFinite c = true)
    (h : (f64Units a - f64Units b).natAbs ≤ f64Mag c) : f64AbsLe (f64Sub a b) c := by
  rw [f64AbsLe_iff hc, low63_f64Sub ha hb]
  exact roundMag_le_low63 Nat.one_pos (by rwa [Nat.mul_one])

theorem f64AbsLe_mul {a b c : F64} (ha : f64IsFinite a = true) (hb : f64IsFinite b = true) (hc : f64IsFinite c = true)
    (h : f64Mag a * f64Mag b ≤ f64Mag c * unitScale) : f64AbsLe (f64Mul a b) c := by
  rw [f64AbsLe_iff hc, f64Mul_of_finite ha hb, low63_roundSigned]
  exact roundMag_le_low63 unitScale_pos h

theorem f64AbsLe_div {a b c : F64} (ha : f64IsFinite a = true) (hb : f64IsFinite b = true) (hc : f64IsFinite c = true)
    (h0 : f64Mag b ≠ 0) (h : f64Mag a * unitScale ≤ f64Mag c * f64Mag b) : f64AbsLe (f64Div a b) c := by
  rw [f64AbsLe_iff hc, f64Div_of_finite ha hb h0, low63_roundSigned]
  exact roundMag_le_low63 (Nat.pos_of_ne_zero h0) h

theorem f64AbsLe.mag_le {v b : F64} (h : f64AbsLe v b) : f64Mag v ≤ f64Mag b := by
  simpa using h.2

/-- R104: adding `+0.0` does not grow a magnitude. -/
theorem f64AbsLe.zero_add {v b : F64} (hb : f64IsFinite b = true) (h : f64AbsLe v b) : f64AbsLe (f64Add 0 v) b :=
  f64AbsLe_add (by decide +kernel) h.1 hb (by
    have hz : f64Units 0 = 0 := by decide +kernel
    rw [hz, Int.zero_add, f64Units_natAbs]
    exact h.mag_le)

/-- A square's bound is the square of the bound. -/
theorem f64AbsLe.mul_self {v b c : F64} (hc : f64IsFinite c = true) (hbc : f64Mag b * f64Mag b ≤ f64Mag c * unitScale)
    (h : f64AbsLe v b) : f64AbsLe (f64Mul v v) c :=
  f64AbsLe_mul h.1 h.1 hc (le_trans (Nat.mul_le_mul h.mag_le h.mag_le) hbc)

/-- A sum's bound is the sum of the bounds. -/
theorem f64AbsLe.add {v w b b' c : F64} (hc : f64IsFinite c = true) (hbc : f64Mag b + f64Mag b' ≤ f64Mag c)
    (hv : f64AbsLe v b) (hw : f64AbsLe w b') : f64AbsLe (f64Add v w) c :=
  f64AbsLe_add hv.1 hw.1 hc (by
    have htri := Int.natAbs_add_le (f64Units v) (f64Units w)
    have hv' := hv.mag_le
    have hw' := hw.mag_le
    rw [f64Units_natAbs, f64Units_natAbs] at htri
    omega)

/-! ### The comparison -/

theorem f64Order_le (x : F64) : f64Order x ≤ low63 x := by
  have h : (x.extractLsb' 0 63).toNat = low63 x := by simp [low63]
  rw [f64Order, h]
  split <;> omega

/-- A value bounded by less than a positive bound does not reach it. -/
theorem f64Ge_eq_false {v b e : F64} (hb : f64IsFinite b = true) (hlt : (low63 b : Int) < f64Order e)
    (hv : f64AbsLe v b) : f64Ge v e = false := by
  have hvb : low63 v ≤ low63 b := (f64AbsLe_iff hb).1 hv
  have hord : ¬ f64Order e ≤ f64Order v := by
    have := f64Order_le v
    omega
  simp [f64Ge, hord]

/-! ### Whole numbers -/

/-- A multiple of the divisor needs no rounding. -/
theorem roundDiv_mul (k : Nat) {d : Nat} (hd : 0 < d) : roundDiv (k * d) d = k :=
  le_antisymm (roundDiv_mono_le hd le_rfl) (roundDiv_mono_ge hd le_rfl)

/-- Below 2^53 a whole number is a multiple of the step between the values around it. -/
theorem ulpExp_ofNat_le {n : Nat} (hn : n < 2 ^ 53) : ulpExp (n * unitScale) ≤ 1074 := by
  by_contra hlt
  have hlow : 2 ^ (52 + ulpExp (n * unitScale)) ≤ n * unitScale := ulpExp_pos_le (by omega)
  have hbig : n * unitScale < 2 ^ (53 + 1074) := by
    calc n * unitScale < 2 ^ 53 * unitScale := Nat.mul_lt_mul_of_pos_right hn unitScale_pos
      _ = 2 ^ (53 + 1074) := by rw [unitScale, pow_add]
  have := (Nat.pow_lt_pow_iff_right (by norm_num : 1 < 2)).1 (hlow.trans_lt hbig)
  omega

/-- R100: the conversion of a whole number below 2^53 is exact and finite. -/
theorem roundMag_ofNat {n : Nat} (hn : n < 2 ^ 53) :
    roundMag (n * unitScale) 1 < infMag ∧ patMag (roundMag (n * unitScale) 1) = n * unitScale := by
  have hraw : roundMagRaw (n * unitScale) 1 < infMag := by
    have hp : patMag (1076 * 2 ^ 52) = 2 ^ 53 * unitScale := by decide +kernel
    refine (roundMagRaw_le (p := 1076 * 2 ^ 52) Nat.one_pos ?_).trans_lt (by norm_num [infMag])
    rw [hp, Nat.mul_one]
    exact Nat.mul_le_mul_right _ hn.le
  have hround : roundMag (n * unitScale) 1 = roundMagRaw (n * unitScale) 1 := Nat.min_eq_right hraw.le
  have he := ulpExp_ofNat_le hn
  have hpat := patMag_roundMagRaw (n * unitScale) Nat.one_pos
  rw [Nat.div_one, Nat.one_mul] at hpat
  have hsplit : n * unitScale =
      n * 2 ^ (1074 - ulpExp (n * unitScale)) * 2 ^ ulpExp (n * unitScale) := by
    rw [Nat.mul_assoc, ← pow_add, Nat.sub_add_cancel he, unitScale]
  refine ⟨hround ▸ hraw, ?_⟩
  rw [hround, hpat]
  generalize ulpExp (n * unitScale) = e at hsplit
  rw [hsplit, roundDiv_mul _ (Nat.two_pow_pos e)]

theorem f64IsFinite_ofNat {n : Nat} (hn : n < 2 ^ 53) : f64IsFinite (f64OfNat n) = true := by
  rw [f64IsFinite_iff, f64OfNat, low63_roundSigned]
  exact (roundMag_ofNat hn).1

theorem f64Mag_ofNat {n : Nat} (hn : n < 2 ^ 53) : f64Mag (f64OfNat n) = n * unitScale := by
  rw [f64Mag_eq, f64OfNat, low63_roundSigned]
  exact (roundMag_ofNat hn).2

theorem f64Sign_ofNat (n : Nat) : f64Sign (f64OfNat n) = false := f64Sign_roundSigned _ _ _

theorem f64Mag_ofNat_ne_zero {n : Nat} (h0 : 0 < n) (hn : n < 2 ^ 53) : f64Mag (f64OfNat n) ≠ 0 := by
  rw [f64Mag_ofNat hn]
  exact (Nat.mul_pos h0 unitScale_pos).ne'

/-- The quotient of two whole numbers is the representable value it is equal to. -/
theorem f64Div_ofNat_exact {n d : Nat} {q : F64} (hn : n < 2 ^ 53) (hd0 : 0 < d) (hd : d < 2 ^ 53)
    (hq : f64IsFinite q = true) (hpos : f64Sign q = false) (h : n * unitScale = f64Mag q * d) :
    f64Div (f64OfNat n) (f64OfNat d) = q := by
  have h0 := f64Mag_ofNat_ne_zero hd0 hd
  rw [f64Div_of_finite (f64IsFinite_ofNat hn) (f64IsFinite_ofNat hd) h0, f64Sign_ofNat, f64Sign_ofNat, bne_self_eq_false,
    ← hpos]
  refine roundSigned_exact hq (Nat.pos_of_ne_zero h0) ?_
  rw [f64Mag_ofNat hn, f64Mag_ofNat hd, h, Nat.mul_assoc]

/-- The quotient of two whole numbers is not negative and keeps a representable bound. -/
theorem f64Div_ofNat_le {n d : Nat} {b : F64} (hn : n < 2 ^ 53) (hd0 : 0 < d) (hd : d < 2 ^ 53)
    (hb : f64IsFinite b = true) (h : n * unitScale ≤ f64Mag b * d) :
    f64AbsLe (f64Div (f64OfNat n) (f64OfNat d)) b ∧ f64Sign (f64Div (f64OfNat n) (f64OfNat d)) = false := by
  have h0 := f64Mag_ofNat_ne_zero hd0 hd
  have hfn := f64IsFinite_ofNat hn
  have hfd := f64IsFinite_ofNat hd
  constructor
  · refine f64AbsLe_div hfn hfd hb h0 ?_
    rw [f64Mag_ofNat hn, f64Mag_ofNat hd, ← Nat.mul_assoc]
    exact Nat.mul_le_mul_right _ h
  · rw [f64Div_of_finite hfn hfd h0, f64Sign_roundSigned, f64Sign_ofNat, f64Sign_ofNat, bne_self_eq_false]

end Sys2Proof.Machine
end

section
/-! R114, the known points: the fixed point at the origin, the escape of `c = 2`, and that the region of R103 keeps every
pixel's first iterate within `1.5² + 1² = 3.25`. -/

namespace Sys2Proof.Machine

/-! ### The constants of R101, in units -/

theorem f64IsFinite_reOff : f64IsFinite Config.reOff = true := by decide +kernel
theorem f64IsFinite_imOff : f64IsFinite Config.imOff = true := by decide +kernel
theorem f64Sign_reOff : f64Sign Config.reOff = false := by decide +kernel
theorem f64Sign_imOff : f64Sign Config.imOff = false := by decide +kernel
theorem two_mul_f64Mag_reOff : 2 * f64Mag Config.reOff = 3 * unitScale := by decide +kernel
theorem f64Mag_imOff : f64Mag Config.imOff = unitScale := by decide +kernel

/-! ### The region of the map -/

/-- One coordinate of `MAPC`: a number between 0.0 and 2.0, less an offset of 1.0 or more, is within the offset. -/
theorem coordinate_absLe {x size : Nat} {off : F64} (hx : x < size) (hsize : size ≤ 65535)
    (hoff : f64IsFinite off = true) (hpos : f64Sign off = false) (hone : unitScale ≤ f64Mag off) :
    f64AbsLe (f64Sub (f64Div (f64OfNat (2 * x)) (f64OfNat size)) off) off := by
  have htwo : f64Mag 0x4000000000000000 = 2 * unitScale := by decide +kernel
  obtain ⟨hq, hsign⟩ := f64Div_ofNat_le (n := 2 * x) (d := size) (b := 0x4000000000000000) (by omega) (by omega) (by omega)
    (by decide +kernel) (by
      calc 2 * x * unitScale ≤ 2 * size * unitScale := Nat.mul_le_mul_right _ (by omega)
        _ = f64Mag 0x4000000000000000 * size := by rw [htwo]; ring)
  have hqmag := hq.mag_le
  refine f64AbsLe_sub hq.1 hoff hoff ?_
  rw [f64Units_of_nonneg hsign, f64Units_of_nonneg hpos]
  omega

/-- R48 and R103: every pixel's `c` is within `|re| ≤ 1.5`, `|im| ≤ 1.0`. -/
theorem mapC_absLe {x y size : Nat} (hx : x < size) (hy : y < size) (hsize : size ≤ 65535) :
    f64AbsLe (mapC binary64 x y size).1 Config.reOff ∧ f64AbsLe (mapC binary64 x y size).2 Config.imOff := by
  have hone : unitScale ≤ f64Mag Config.reOff := by
    have := two_mul_f64Mag_reOff
    omega
  simp only [mapC_eq, binary64_ofNat, binary64_div, binary64_sub]
  exact ⟨coordinate_absLe hx hsize f64IsFinite_reOff f64Sign_reOff hone,
    coordinate_absLe hy hsize f64IsFinite_imOff f64Sign_imOff f64Mag_imOff.ge⟩

/-! ### The first iterate -/

/-- From `z = 0` the products vanish and `c` is added to zero. -/
theorem stepZ_zero (c : F64 × F64) : stepZ binary64 (0, 0) c = (f64Add 0 c.1, f64Add 0 c.2) := by
  have hre : f64Sub (f64Mul 0 0) (f64Mul 0 0) = 0 := by decide +kernel
  have him : f64Add (f64Mul 0 0) (f64Mul 0 0) = 0 := by decide +kernel
  simp only [stepZ_eq, binary64_add, binary64_sub, binary64_mul, hre, him]

/-- Within the bounds of `c` the squared magnitude is at most 2.25 + 1.0 = 3.25, also as rounded. -/
theorem not_escaped_of_absLe {z : F64 × F64} (hre : f64AbsLe z.1 Config.reOff) (him : f64AbsLe z.2 Config.imOff) :
    escaped binary64 z = false := by
  have hrr : f64AbsLe (f64Mul z.1 z.1) 0x4002000000000000 := hre.mul_self (by decide +kernel) (by decide +kernel)
  have hii : f64AbsLe (f64Mul z.2 z.2) 0x3FF0000000000000 := him.mul_self f64IsFinite_imOff (by decide +kernel)
  have hsum : f64AbsLe (f64Add (f64Mul z.1 z.1) (f64Mul z.2 z.2)) 0x400A000000000000 :=
    hrr.add (by decide +kernel) (by decide +kernel) hii
  simp only [escaped_eq, binary64_ge, binary64_add, binary64_mul]
  exact f64Ge_eq_false (by decide +kernel) (by decide +kernel) hsum

/-- R114: no pixel escapes on its first iteration. -/
theorem not_escaped_first {c : F64 × F64} (hre : f64AbsLe c.1 Config.reOff) (him : f64AbsLe c.2 Config.imOff) :
    escaped binary64 (stepZ binary64 (0, 0) c) = false := by
  rw [stepZ_zero]
  exact not_escaped_of_absLe (hre.zero_add f64IsFinite_reOff) (him.zero_add f64IsFinite_imOff)

/-! ### The fixed point -/

/-- `z = 0` with `c = 0` is a fixed point of the recurrence. -/
theorem stepZ_zero_zero : stepZ binary64 (0, 0) (0, 0) = (0, 0) := by
  have hsum : f64Add 0 0 = 0 := by decide +kernel
  rw [stepZ_zero, hsum]

theorem not_escaped_zero : escaped binary64 (0, 0) = false := by decide +kernel

theorem orbit_zero (k : Nat) : orbit binary64 (0, 0) k = (0, 0) := by
  induction k with
  | zero => rfl
  | succ k ih => rw [orbit_succ, ih, stepZ_zero_zero]

/-- At a fixed point that has not escaped, the loop runs to its bound. -/
theorem evalLoop_of_fixed (N : Numerics) {c z : F64 × F64} (hfix : stepZ N z c = z) (hz : escaped N z = false)
    (left k : Nat) : evalLoop N c left k z = ⟨true, k + left, z⟩ := by
  induction left generalizing k with
  | zero => rfl
  | succ left ih => rw [evalLoop_of_not_escaped N c (by rwa [hfix]), hfix, ih, Nat.add_assoc, Nat.add_comm 1 left]

theorem evalPixel_of_origin {x y size : Nat} (h : mapC binary64 x y size = (0, 0)) :
    evalPixel binary64 x y size = ⟨true, 50, (0, 0)⟩ := by
  rw [evalPixel, h]
  exact evalLoop_of_fixed binary64 stepZ_zero_zero not_escaped_zero 50 0

/-- R114: three quarters across and half way down, the quotients are the offsets themselves. -/
theorem mapC_origin {k : Nat} (hk : 1 ≤ k) (hsize : 4 * k ≤ 65535) :
    mapC binary64 (3 * k) (2 * k) (4 * k) = (0, 0) := by
  have hre : f64Div (f64OfNat (2 * (3 * k))) (f64OfNat (4 * k)) = Config.reOff :=
    f64Div_ofNat_exact (by omega) (by omega) (by omega) f64IsFinite_reOff f64Sign_reOff (by
      calc 2 * (3 * k) * unitScale = 2 * k * (3 * unitScale) := by ring
        _ = f64Mag Config.reOff * (4 * k) := by rw [← two_mul_f64Mag_reOff]; ring)
  have him : f64Div (f64OfNat (2 * (2 * k))) (f64OfNat (4 * k)) = Config.imOff :=
    f64Div_ofNat_exact (by omega) (by omega) (by omega) f64IsFinite_imOff f64Sign_imOff (by rw [f64Mag_imOff]; ring)
  have hreSub : f64Sub Config.reOff Config.reOff = 0 := by decide +kernel
  have himSub : f64Sub Config.imOff Config.imOff = 0 := by decide +kernel
  simp only [mapC_eq, binary64_ofNat, binary64_div, binary64_sub, hre, him]
  rw [hreSub, himSub]

/-! ### The escaping point -/

theorem escaped_two : escaped binary64 (stepZ binary64 (0, 0) (0x4000000000000000, 0)) = true := by decide +kernel

/-- 2.0 is outside the region of the map. -/
theorem ne_two_of_absLe {c : F64 × F64} (hre : f64AbsLe c.1 Config.reOff) : c ≠ (0x4000000000000000, 0) := by
  rintro rfl
  exact absurd ((f64AbsLe_iff f64IsFinite_reOff).1 hre) (by decide +kernel)

/-- Settles O44: the origin by the fixed point, every pixel by the region of the map. -/
theorem knownPoints : Obligations.KnownPoints := by
  refine ⟨fun _ => mapC_origin, orbit_zero, fun _ _ _ => evalPixel_of_origin, escaped_two, ?_⟩
  intro x y size hx hy hsize
  obtain ⟨hre, him⟩ := mapC_absLe hx hy hsize
  exact ⟨not_escaped_first hre him, ne_two_of_absLe hre⟩

end Sys2Proof.Machine
end

section
/-! R131 and R132, the text of the header: the model's digits and the digits of the printed number are both
`Nat.digits 10`, most significant first, and both print digit `v` as the code `0x30 + v`. -/

namespace Sys2Proof.Machine

/-! ### One digit -/

theorem toNat_digitByte {v : Nat} (hv : v < 10) : (digitByte v).toNat = 0x30 + v := by
  have hfit : 0x30 + v < 2 ^ 8 := by omega
  rw [digitByte, BitVec.toNat_add, BitVec.toNat_ofNat, Nat.add_mod_mod]
  exact Nat.mod_eq_of_lt hfit

/-- Whatever prints digit `v` as the code `0x30 + v` prints the digits of a number as those codes. -/
theorem map_digits_reverse {α : Type} {digit : Nat → α} {code : α → Nat}
    (hdigit : ∀ {v : Nat}, v < 10 → code (digit v) = 0x30 + v) (n : Nat) :
    ((Nat.digits 10 n).reverse.map digit).map code = (Nat.digits 10 n).reverse.map (fun v => 0x30 + v) := by
  rw [List.map_map]
  refine List.map_congr_left fun v hv => hdigit ?_
  exact Nat.digits_lt_base (by decide) (List.mem_reverse.1 hv)

/-! ### The digits of a number -/

theorem digits_reverse_of_lt {n : Nat} (hn : n ≠ 0) (hlt : n < 10) : (Nat.digits 10 n).reverse = [n] := by
  rw [Nat.digits_of_lt 10 n hn hlt, List.reverse_singleton]

theorem digits_reverse_of_ge {n : Nat} (hge : 10 ≤ n) :
    (Nat.digits 10 n).reverse = (Nat.digits 10 (n / 10)).reverse ++ [n % 10] := by
  rw [Nat.digits_def' (by decide) (by omega), List.reverse_cons]

/-- R132, as long as the first argument of `decDigits` covers the number's digits. -/
theorem decDigits_eq_digits {n fuel : Nat} (hn : n ≠ 0) (hfuel : n < 10 ^ fuel) :
    decDigits fuel n = (Nat.digits 10 n).reverse.map digitByte := by
  induction fuel generalizing n with
  | zero => omega
  | succ fuel ih =>
    rw [decDigits]
    split
    case isTrue hlt => rw [digits_reverse_of_lt hn hlt, List.map_singleton]
    case isFalse hge =>
      have hquot : n / 10 < 10 ^ fuel := Nat.div_lt_of_lt_mul (by rwa [← Nat.pow_succ'])
      rw [ih (by omega) hquot, digits_reverse_of_ge (Nat.le_of_not_lt hge), List.map_append, List.map_singleton]

/-- The library prints a number by the same recursion. -/
theorem toDigits_eq_digits {n : Nat} (hn : n ≠ 0) :
    Nat.toDigits 10 n = (Nat.digits 10 n).reverse.map Nat.digitChar := by
  induction n using Nat.strongRecOn with
  | ind n ih =>
    by_cases hlt : n < 10
    · rw [Nat.toDigits_of_lt_base hlt, digits_reverse_of_lt hn hlt, List.map_singleton]
    · have hge : 10 ≤ n := Nat.le_of_not_lt hlt
      rw [Nat.toDigits_of_base_le (by decide) hge, ih (n / 10) (by omega) (by omega),
        digits_reverse_of_ge hge, List.map_append, List.map_singleton]

/-! ### The text of a dimension -/

theorem decText_eq_digits {n : Dim} (hn : n ≠ 0) : decText n = (Nat.digits 10 n.toNat).reverse.map digitByte := by
  have hpos : n.toNat ≠ 0 := BitVec.toNat_ne_iff_ne.2 hn
  have hfit : n.toNat < 10 ^ 5 := by have := n.isLt; omega
  rw [decText, if_neg hn, decDigits_eq_digits hpos hfit]

theorem decText_map_toNat {n : Dim} (hn : n ≠ 0) :
    (decText n).map (fun b => b.toNat) = (Nat.digits 10 n.toNat).reverse.map (fun v => 0x30 + v) := by
  rw [decText_eq_digits hn]
  exact map_digits_reverse toNat_digitByte n.toNat

theorem decText_length {n : Dim} (hn : n ≠ 0) : (decText n).length = (Nat.digits 10 n.toNat).length := by
  rw [decText_eq_digits hn, List.length_map, List.length_reverse]

theorem toString_map_toNat {n : Nat} (hn : n ≠ 0) :
    (toString n).toList.map Char.toNat = (Nat.digits 10 n).reverse.map (fun v => 0x30 + v) := by
  rw [Nat.toString_eq_repr, Nat.toList_repr, toDigits_eq_digits hn]
  exact map_digits_reverse Nat.toNat_digitChar_of_lt_ten n

/-- The bytes of a dimension are the character codes of the number as the library prints it. -/
theorem decText_map_toNat_eq_toString {n : Dim} (hn : n ≠ 0) :
    (decText n).map (fun b => b.toNat) = (toString n.toNat).toList.map Char.toNat := by
  have hpos : n.toNat ≠ 0 := BitVec.toNat_ne_iff_ne.2 hn
  rw [decText_map_toNat hn, toString_map_toNat hpos]

/-! ### The header -/

theorem headerBytes_map_toNat {n : Dim} (hn : n ≠ 0) :
    (headerBytes n).map (fun b => b.toNat) =
      ("P4\n" ++ toString n.toNat ++ " " ++ toString n.toNat ++ "\n").toList.map Char.toNat := by
  have hmagic : (Config.hdrTag ++ [Config.newline]).map (fun b => b.toNat) = "P4\n".toList.map Char.toNat := by decide
  have hspace : [Config.space].map (fun b => b.toNat) = " ".toList.map Char.toNat := by decide
  have hnewline : [Config.newline].map (fun b => b.toNat) = "\n".toList.map Char.toNat := by decide
  rw [headerBytes]
  simp only [List.map_append, String.toList_append, decText_map_toNat_eq_toString hn] at hmagic ⊢
  rw [hmagic, hspace, hnewline]

/-- R8: five fixed bytes and the dimension twice. -/
theorem headerBytes_length {n : Dim} (hn : n ≠ 0) :
    (headerBytes n).length = 5 + 2 * (Nat.digits 10 n.toNat).length := by
  simp only [headerBytes, List.length_append, decText_length hn, List.length_cons, List.length_nil]
  omega

/-- Settles O48: the decimal text is the digits of the number, and the header is put together around it. -/
theorem headerIsDecimalText : Obligations.HeaderIsDecimalText :=
  fun _ hn => ⟨decText_map_toNat hn, headerBytes_map_toNat hn, headerBytes_length hn⟩

end Sys2Proof.Machine
end

section
/-! The turn of an enabled micro-step, in the two views the sequencer's rules take of it: what it emits (R162) and which
micro-step comes next (R166). Both are read off the fields of the effect that `SEQ` names. -/

namespace Sys2Proof.Machine

/-! ### The turn of an enabled micro-step -/

/-- R164: every held code names a micro-step. -/
theorem exists_decodeSeq {c : Code3} (h : c.toNat ≤ 4) : ∃ i, decodeSeq c = .ok i := by
  cases hd : decodeSeq c with
  | ok i => exact ⟨i, rfl⟩
  | error e =>
    have := (decodeSeq_error_iff c).1 ⟨e, hd⟩
    omega

theorem step_of_enabled {s : State} {i : Instr} (hturn : s.nextEvent = .blockTurn) (hi : decodeSeq s.seq = .ok i)
    (he : s.enabled = true) : step s = .next (s.takeTurn.endMicro (microEffect i s.takeTurn)) := by
  rw [step_eq, hturn]
  exact microStep_of_enabled hi he

/-! ### Emission -/

theorem microEffect_of_emits {i : Instr} {s : State} (hi : decodeSeq s.seq = .ok i) (he : s.emits = true) :
    ∃ b, (microEffect i s).out = s.out ++ [b] ∧ (microEffect i s).outcnt = s.outcnt + 1 := by
  obtain hseq | ⟨hseq, hbit⟩ | ⟨hseq, hbit⟩ := (s.emits_iff).1 he <;> rw [hseq] at hi <;> cases hi
  · exact ⟨headerByte s.size s.hidx.toNat, by simp [microEffect]⟩
  · exact ⟨pushedAcc s, by simp [microEffect, hbit]⟩
  · exact ⟨s.byteAcc, by simpa [microEffect] using hbit⟩

theorem microEffect_of_not_emits {i : Instr} {s : State} (hi : decodeSeq s.seq = .ok i) (he : ¬ s.emits = true) :
    (microEffect i s).out = s.out ∧ (microEffect i s).outcnt = s.outcnt := by
  rw [State.emits_iff] at he
  obtain ⟨hseq, rfl⟩ | ⟨-, rfl⟩ | ⟨-, rfl⟩ | ⟨hseq, rfl⟩ | ⟨hseq, rfl⟩ := decodeSeq_cases hi
  · exact absurd (.inl hseq) he
  · simp [microEffect]
  · simp [microEffect]
  · have hbit : s.bit ≠ 1 := fun hbit => he (.inr (.inl ⟨hseq, hbit⟩))
    simpa [microEffect] using hbit
  · have hbit : s.bit = Config.bitInit := by_contra fun hbit => he (.inr (.inr ⟨hseq, hbit⟩))
    simp [microEffect, hbit]

/-- Settles O32: a ready sink, or a micro-step that needs none, makes the turn an enabled one, and the effect then emits
as R162 says. -/
theorem emissionMatchesRule : Obligations.EmissionMatchesRule := by
  intro s hturn hruns hheld
  obtain ⟨i, hi⟩ := exists_decodeSeq hheld
  refine ⟨fun hemits hready => ?_, fun hnot => ?_⟩
  · obtain ⟨b, hout, hcnt⟩ := microEffect_of_emits (s := s.takeTurn) hi ((s.emits_iff).2 hemits)
    exact ⟨_, b, step_of_enabled hturn hi (enabled_of_runs hruns fun _ => hready), by simpa using hout,
      by simpa using hcnt⟩
  · have hnot' : ¬ s.emits = true := fun he => hnot ((s.emits_iff).1 he)
    obtain ⟨hout, hcnt⟩ := microEffect_of_not_emits (s := s.takeTurn) hi hnot'
    exact ⟨_, step_of_enabled hturn hi (enabled_of_runs hruns fun he => absurd he hnot'), by simpa using hout,
      by simpa using hcnt⟩

/-! ### The transition table -/

/-- The components R166 speaks of, after the turn of the micro-step that `SEQ` names. -/
theorem codes_of_step {s t : State} {c : Code3} {i : Instr} (hturn : s.nextEvent = .blockTurn)
    (he : s.enabled = true) (hs : step s = .next t) (hseq : s.seq = c) (hi : decodeSeq c = .ok i) :
    t.seq = (microEffect i s.takeTurn).seq ∧ t.m = (microEffect i s.takeTurn).m ∧
      t.phase = (microEffect i s.takeTurn).phase := by
  rw [step_of_enabled hturn (hseq ▸ hi) he] at hs
  obtain rfl := Host.Outcome.next.inj hs
  simp

/-- Settles O34: each row evaluates the condition in the next-state fields of the micro-step's effect. -/
theorem seqTransitionTable : Obligations.SeqTransitionTable := by
  intro s t hturn he hs
  have hcodes := fun c i => codes_of_step (c := c) (i := i) hturn he hs
  refine ⟨fun hseq hidx => ?_, fun hseq hidx => ?_, fun hseq => ?_, fun hseq hesc => ?_,
    fun hseq hesc hiter => ?_, fun hseq hesc hiter => ?_, fun hseq hx => ?_, fun hseq hx => ?_,
    fun hseq hy => ?_, fun hseq hy => ?_⟩
  · simp [hcodes _ .hdr hseq rfl, microEffect, hidx.ne, hseq]
  · simp [hcodes _ .hdr hseq rfl, microEffect, hidx]
  · simp [hcodes _ .map hseq rfl, microEffect]
  · simp [hcodes _ .iterate hseq rfl, microEffect, hesc]
  · simp [hcodes _ .iterate hseq rfl, microEffect, hesc, hiter]
  · simp [hcodes _ .iterate hseq rfl, microEffect, hesc, hiter.ne]
  · simp [hcodes _ .push hseq rfl, microEffect, hx.ne]
  · simp [hcodes _ .push hseq rfl, microEffect, hx]
  · simp [hcodes _ .rowend hseq rfl, microEffect, hy.ne]
  · simp [hcodes _ .rowend hseq rfl, microEffect, hy, hseq]

end Sys2Proof.Machine
end

section
/-! The seven host commands (43_host_commands.md): the step that performs a host write, what a command does where it is
legal and where it is not, and the words and cells of the spec's tables. -/

namespace Sys2Proof.Machine

/-! ### A write reaches the block (R191) -/

/-- The step whose event is a host write is that write, met by the state with the event off its queue. -/
theorem step_of_hostWrite {s : State} {i : RegIndex} {w : Word32} {rest : List Event}
    (hs : s.events = .hostWrite i w :: rest) : step s = hostWrite i w { s with events := rest } := by
  have hturn : s.nextEvent = .hostWrite i w := by simp [State.nextEvent, hs]
  have htaken : s.takeTurn = { s with events := rest } := by simp [State.takeTurn, hs]
  rw [step_eq, hturn, htaken]
  rfl

theorem hostWrite_cmd (w : Word32) (s : State) : hostWrite 0 w s = command w s := if_pos rfl

/-- Settles O8: the write is the step, and only index 0 is `CMD`. -/
theorem hostWriteReachesOnlyCmd : Obligations.HostWriteReachesOnlyCmd := by
  intro s i w rest hs
  rw [step_of_hostWrite hs]
  refine ⟨fun hi => hostWrite_of_ne hi w _, ?_⟩
  rintro rfl
  exact hostWrite_cmd w _

/-! ### A command in its frame (R192) -/

theorem State.phaseHeld_iff (s : State) : s.phaseHeld = true ↔ s.phase.toNat ≤ 4 := decide_eq_true_iff

/-- A legal command is performed. -/
theorem exec_of_legal {i : Instr} {s : State} (hi : i.space = .command) (hp : s.phase.toNat ≤ 4)
    (hl : legal s i = true) : exec i s = .next (commandEffect i s) := by
  rw [exec_of_command hi, performCommand_of_legal ((s.phaseHeld_iff).2 hp) hl]

/-- A command its phase does not allow is rejected. -/
theorem exec_of_not_legal {i : Instr} {s : State} (hi : i.space = .command) (hp : s.phase.toNat ≤ 4)
    (hl : legal s i = false) : exec i s = .next s.reject := by
  rw [exec_of_command hi, performCommand_of_not_legal ((s.phaseHeld_iff).2 hp) hl]

/-- R33: no command clears `CERR`, and none sets it where it is legal. -/
theorem commandEffect_cerr (i : Instr) (s : State) : (commandEffect i s).cerr = s.cerr := by
  cases i with
  | start | startstep => exact State.beginRun_cerr s _
  | nop | setsize n | step | pause | resume | hdr | map | iterate | push | rowend => rfl

/-! ### `NOP` (R193) -/

theorem toNat_cmdOp (w : Word32) : (cmdOp w).toNat = w.toNat % 16 := by simp [cmdOp]

theorem toNat_cmdRsv (w : Word32) : (cmdRsv w).toNat = w.toNat / 16 % 4096 := by
  simp [cmdRsv, Nat.shiftRight_eq_div_pow]

theorem toNat_cmdImm (w : Word32) : (cmdImm w).toNat = w.toNat / 65536 := by
  have hw := w.isLt
  simp only [cmdImm, BitVec.extractLsb'_toNat, Nat.shiftRight_eq_div_pow]
  omega

/-- The three fields of R81 make up the word, so the word 0 is the only one whose fields are all 0. -/
theorem eq_zero_of_fields {w : Word32} (hop : cmdOp w = 0) (hrsv : cmdRsv w = 0) (himm : cmdImm w = 0) : w = 0 := by
  have hop' := toNat_cmdOp w
  have hrsv' := toNat_cmdRsv w
  have himm' := toNat_cmdImm w
  simp only [hop, hrsv, himm, BitVec.ofNat_eq_ofNat, BitVec.toNat_ofNat, Nat.zero_mod] at hop' hrsv' himm'
  apply BitVec.eq_of_toNat_eq
  simp only [BitVec.ofNat_eq_ofNat, BitVec.toNat_ofNat, Nat.zero_mod]
  omega

/-- A word with `OP = 0` that is not `NOP` has another field set, and fails that field's test of R85. -/
theorem decodeCommand_error_of_op_zero {w : Word32} (hop : cmdOp w = 0) (hw : w ≠ 0) :
    ∃ e, decodeCommand w = .error e := by
  by_cases hrsv : cmdRsv w = 0
  · have himm : cmdImm w ≠ 0 := fun himm => hw (eq_zero_of_fields hop hrsv himm)
    exact ⟨_, decodeCommand_of_immediateNotZero hrsv (by simp [hop]) (by simp [hop]) himm⟩
  · exact ⟨_, decodeCommand_of_reservedBits hrsv⟩

/-- Settles O18: `NOP` is legal everywhere and its effect is none; its word is the only legal one with `OP = 0`. -/
theorem nopChangesNothing : Obligations.NopChangesNothing := by
  refine ⟨fun s hp => exec_of_legal rfl hp rfl, decodeCommand_of_encode rfl, fun w hmod hw => ?_⟩
  have hop : cmdOp w = 0 := BitVec.eq_of_toNat_eq ((toNat_cmdOp w).trans hmod)
  exact decodeCommand_error_of_op_zero hop hw

/-! ### `START` and `STARTSTEP` (R195, R196, R201) -/

/-- A start where no run is active, and the dimension is valid, initialises a run in the phase `p`. -/
theorem exec_of_start {i : Instr} {p : Code3} {s : State} (hi : i.space = .command) (hl : legal s i = true)
    (heffect : commandEffect i s = s.beginRun p) (hn : s.noRun = true) (hsize : s.size ≠ 0) :
    exec i s = .next (s.initRun p) := by
  have hp : s.phase.toNat ≤ 4 := (s.phaseHeld_iff).1 (State.phaseHeld_of_noRun hn)
  rw [exec_of_legal hi hp hl, heffect, State.beginRun_of_ne p hsize]

/-- Settles O20: both starts are legal in these phases, and `INIT_RUN` writes the fields listed. -/
theorem startInitialisesRun : Obligations.StartInitialisesRun := by
  intro s hphase hsize
  have hn : s.noRun = true := (s.noRun_iff).2 hphase
  exact ⟨exec_of_start rfl hn rfl hn hsize, exec_of_start rfl hn rfl hn hsize⟩

/-! ### `PAUSE` (R198) -/

/-- Settles O23: `PAUSE` is legal in `RUN` alone. -/
theorem pauseHaltsRun : Obligations.PauseHaltsRun := by
  refine ⟨decodeCommand_of_encode rfl, fun s => ⟨fun hrun => ?_, fun hp hrun => ?_⟩⟩
  · exact exec_of_legal rfl (by simp [hrun]) (by simp [legal, hrun])
  · exact exec_of_not_legal rfl hp (by simpa [legal] using hrun)

/-! ### The legality table (R200) -/

/-- R31: the held codes of `PHASE` are the five phases. -/
theorem State.phase_cases {s : State} (hp : s.phase.toNat ≤ 4) :
    s.phase = Phase.idle ∨ s.phase = Phase.run ∨ s.phase = Phase.halt ∨ s.phase = Phase.done ∨
      s.phase = Phase.error := by
  have hheld := (s.phaseHeld_iff).2 hp
  cases ha : s.active with
  | true => obtain h | h := (s.active_iff).1 ha <;> simp [h]
  | false =>
    have hn : s.noRun = true := by simp [State.noRun_eq_not_active hheld, ha]
    obtain h | h | h := (s.noRun_iff).1 hn <;> simp [h]

/-- The column of R200's table that a state stands in. -/
def State.legalityColumn (s : State) : Nat :=
  if s.phase = Phase.idle then 0 else if s.phase = Phase.run then 1
  else if s.phase = Phase.halt then (if s.spend then 3 else 2) else if s.phase = Phase.done then 4 else 5

/-- The row of R200's table for a command, column by column; a micro-step has none. -/
def legalityRow : Instr → List Bool
  | .nop => [true, true, true, true, true, true]
  | .setsize _ => [true, false, false, false, true, true]
  | .start => [true, false, false, false, true, true]
  | .startstep => [true, false, false, false, true, true]
  | .step => [false, false, true, false, false, false]
  | .pause => [false, true, false, false, false, false]
  | .resume => [false, false, true, true, false, false]
  | .hdr | .map | .iterate | .push | .rowend => []

/-- The six columns, each with the state of the block it stands for. -/
theorem legalityColumn_cases {s : State} (hp : s.phase.toNat ≤ 4) :
    (s.phase = Phase.idle ∧ s.legalityColumn = 0) ∨ (s.phase = Phase.run ∧ s.legalityColumn = 1) ∨
      (s.phase = Phase.halt ∧ s.spend = false ∧ s.legalityColumn = 2) ∨
      (s.phase = Phase.halt ∧ s.spend = true ∧ s.legalityColumn = 3) ∨
      (s.phase = Phase.done ∧ s.legalityColumn = 4) ∨ (s.phase = Phase.error ∧ s.legalityColumn = 5) := by
  obtain h | h | h | h | h := State.phase_cases hp
  case inr.inr.inl => cases hs : s.spend <;> simp [State.legalityColumn, h, hs]
  all_goals simp [State.legalityColumn, h]

/-- Every cell of the table is what `legal` answers, one column at a time. -/
theorem legalityRow_cell {s : State} {i : Instr} (hp : s.phase.toNat ≤ 4) (hi : i.space = .command) :
    (legalityRow i)[s.legalityColumn]? = some (legal s i) := by
  cases i with
  | nop | setsize n | start | startstep | step | pause | resume =>
    obtain ⟨h, hcol⟩ | ⟨h, hcol⟩ | ⟨h, hs, hcol⟩ | ⟨h, hs, hcol⟩ | ⟨h, hcol⟩ | ⟨h, hcol⟩ := legalityColumn_cases hp
    all_goals simp [legalityRow, legal, State.noRun, *]
  | hdr | map | iterate | push | rowend => exact absurd hi (by decide)

/-- Settles O25: the cell is `legal`, and `legal` decides between the effect and the rejection. -/
theorem commandLegalityTable : Obligations.CommandLegalityTable := by
  intro s i hp hwf column row effect
  have hi : i.space = .command := by simpa [Instr.wellFormedIn] using hwf
  have hrow : row = legalityRow i := by cases i <;> rfl
  have heffect : effect = commandEffect i s := by cases i <;> rfl
  have hcell : row[column]? = some (legal s i) := hrow ▸ legalityRow_cell hp hi
  rw [hcell, heffect]
  cases hl : legal s i with
  | true => exact .inl ⟨rfl, rfl, exec_of_legal hi hp hl, commandEffect_cerr i s⟩
  | false => exact .inr ⟨rfl, rfl, exec_of_not_legal hi hp hl⟩

end Sys2Proof.Machine
end

section
/-! The two error conditions of the block (60_exceptions.md): a rejected command (R231), whose flag every event but reset
keeps (R33), and a start with the dimension 0 (R232). -/

namespace Sys2Proof.Machine

/-! ### A word written to `CMD` (R192) -/

/-- A word that encodes no command is rejected before any phase is looked at. -/
theorem command_of_error {w : Word32} {e : DecodeError} (hw : decodeCommand w = .error e) (s : State) :
    command w s = .next s.reject := by
  rw [command, hw]

/-- A word whose command the held phase does not allow is rejected. -/
theorem command_of_not_legal {w : Word32} {i : Instr} {s : State} (hw : decodeCommand w = .ok i)
    (hp : s.phase.toNat ≤ 4) (hl : legal s i = false) : command w s = .next s.reject := by
  rw [command, hw]
  exact exec_of_not_legal (decodeCommand_space hw) hp hl

/-- No command reads the queue, so a command is as legal with its own event off the queue as with it on. -/
theorem legal_withEvents (s : State) (es : List Event) (i : Instr) : legal { s with events := es } i = legal s i := by
  cases i <;> rfl

/-! ### The flag is sticky (R33) -/

/-- No micro-step writes `CERR`. -/
theorem microEffect_cerr (i : Instr) (s : State) : (microEffect i s).cerr = s.cerr := by
  cases i <;> simp [microEffect]

theorem microStep_cerr {s t : State} (hm : microStep s = .next t) : t.cerr = s.cerr := by
  obtain ⟨-, ⟨i, -, -, rfl⟩ | ⟨-, rfl⟩⟩ := microStep_next hm
  · rw [State.endMicro_cerr, microEffect_cerr]
  · rfl

/-- A host write may set `CERR`, and never clears it. -/
theorem hostWrite_keeps_cerr {i : RegIndex} {w : Word32} {s t : State} (hw : hostWrite i w s = .next t)
    (hc : s.cerr = true) : t.cerr = true := by
  obtain ⟨-, rfl⟩ | ⟨-, -, -, rfl⟩ | ⟨-, c, -, -, ⟨-, rfl⟩ | ⟨-, rfl⟩⟩ := hostWrite_next hw
  · exact hc
  · exact State.reject_cerr s
  · exact (commandEffect_cerr c s).trans hc
  · exact State.reject_cerr s

theorem step_keeps_cerr {s t : State} (hs : step s = .next t) (hc : s.cerr = true) (hreset : s.nextEvent ≠ .reset) :
    t.cerr = true := by
  obtain ⟨i, -, rfl⟩ | ⟨i, w, -, hw⟩ | ⟨-, hm⟩ | ⟨r, -, rfl⟩ | ⟨he, -⟩ := step_next hs
  · exact hc
  · exact hostWrite_keeps_cerr hw hc
  · exact (microStep_cerr hm).trans hc
  · exact hc
  · exact absurd he hreset

/-- Settles O9: both failures of a word answer `reject`, which writes `CERR` alone, and then one case per event. -/
theorem rejectionSetsStickyCerr : Obligations.RejectionSetsStickyCerr := by
  refine ⟨fun s w rest hs => ?_, fun s t => step_keeps_cerr⟩
  rw [step_of_hostWrite hs, hostWrite_cmd]
  refine ⟨fun ⟨e, hw⟩ => command_of_error hw _, fun i hw hp hl => ?_⟩
  exact command_of_not_legal hw hp ((legal_withEvents s rest i).trans hl)

/-! ### The dimension 0 (R232) -/

/-- A start where no run is active, with the dimension 0, is refused, whichever phase it asks for. -/
theorem exec_of_start_zero {i : Instr} {p : Code3} {s : State} (hi : i.space = .command) (hl : legal s i = true)
    (heffect : commandEffect i s = s.beginRun p) (hn : s.noRun = true) (hsize : s.size = 0) :
    exec i s = .next s.refuseSize := by
  have hp : s.phase.toNat ≤ 4 := (s.phaseHeld_iff).1 (State.phaseHeld_of_noRun hn)
  rw [exec_of_legal hi hp hl, heffect, State.beginRun_of_zero p hsize]

/-- Settles O21: both starts are legal in these phases, and the refusal writes `PHASE` and `SZERR` alone. -/
theorem startWithSizeZeroFails : Obligations.StartWithSizeZeroFails := by
  intro s hphase hsize
  have hn : s.noRun = true := (s.noRun_iff).2 hphase
  exact ⟨exec_of_start_zero rfl hn rfl hn hsize, exec_of_start_zero rfl hn rfl hn hsize⟩

end Sys2Proof.Machine
end

section
/-! The event `RESET` (70_reset_and_hazards.md R260): the step that performs the queue's head, and the state a reset leaves,
component by component. -/

namespace Sys2Proof.Machine

/-- A step with an event waiting performs that event, met by the state with the event off its queue. -/
theorem step_of_event {s : State} {e : Event} {rest : List Event} (hs : s.events = e :: rest) :
    step s = performEvent e { s with events := rest } := by
  have hnext : s.nextEvent = e := by simp [State.nextEvent, hs]
  have htaken : s.takeTurn = { s with events := rest } := by simp [State.takeTurn, hs]
  rw [step_eq, hnext, htaken]

/-- R260 with the values of R51: `BIT` alone is not 0, and what stands around the block is kept. -/
theorem State.applyReset_eq (s : State) :
    s.applyReset =
      { size := 0, x := 0, y := 0, cRe := 0, cIm := 0, zRe := 0, zIm := 0, iter := 0, m := false, byteAcc := 0,
        bit := 128, hidx := 0, outcnt := 0, phase := Phase.idle, seq := Seq.hdr, cerr := false, szerr := false,
        spend := false, out := s.out, outReady := s.outReady, events := s.events, reads := s.reads } := rfl

/-- A reset is possible in any state: no phase, no micro-step code and no sink is asked. -/
theorem performEvent_reset (s : State) : performEvent .reset s = .next s.applyReset := rfl

/-- Settles O13: the step is the reset that heads the queue, and a reset leaves the values of R51. -/
theorem resetEventRestoresBlock : Obligations.ResetEventRestoresBlock := by
  intro s rest hs
  rw [step_of_event hs, performEvent_reset, State.applyReset_eq]

end Sys2Proof.Machine
end

section
/-! The encoding both ways (30_encoding.md sections 1 and 3): a word is put together from its three fields, so decoding and
encoding undo each other, the decoder is a function of the fields (R84), and the legal words can be counted. -/

namespace Sys2Proof

/-! ### Words and fields -/

/-- R81 read backwards: a word without reserved bits is put together from its own fields. -/
theorem commandWord_of_fields {w : Word32} (hrsv : cmdRsv w = 0) : commandWord (cmdImm w) (cmdOp w) = w := by
  have hop := Machine.toNat_cmdOp w
  have himm := Machine.toNat_cmdImm w
  have hzero := Machine.toNat_cmdRsv w
  rw [hrsv] at hzero
  simp only [BitVec.ofNat_eq_ofNat, BitVec.toNat_ofNat, Nat.zero_mod] at hzero
  apply BitVec.eq_of_toNat_eq
  rw [commandWord, Machine.toNat_append_eq_mul_add, Machine.toNat_append_eq_mul_add, hop, himm, BitVec.toNat_zero]
  omega

theorem commandWord_inj {imm imm' : Dim} {op op' : BitVec 4} (h : commandWord imm op = commandWord imm' op') :
    imm = imm' ∧ op = op' :=
  ⟨by simpa using congrArg cmdImm h, by simpa using congrArg cmdOp h⟩

/-- The fields of a word by arithmetic, for a value of each. -/
theorem cmdOp_eq_of_mod {w : Word32} {k : Nat} (h : w.toNat % 16 = k) : cmdOp w = BitVec.ofNat 4 k :=
  BitVec.eq_of_toNat_eq (by rw [Machine.toNat_cmdOp, BitVec.toNat_ofNat]; omega)

theorem cmdImm_eq_of_div {w : Word32} {k : Nat} (h : w.toNat / 65536 = k) : cmdImm w = BitVec.ofNat 16 k :=
  BitVec.eq_of_toNat_eq (by have := w.isLt; rw [Machine.toNat_cmdImm, BitVec.toNat_ofNat]; omega)

theorem cmdRsv_eq_zero_iff {w : Word32} : cmdRsv w = 0 ↔ w.toNat / 16 % 4096 = 0 := by
  rw [← Machine.toNat_cmdRsv, ← BitVec.toNat_inj]
  simp

/-! ### Decode and encode -/

/-- Settles O1: the command words by the rows of the encoder, the five `SEQ` codes by evaluation. -/
theorem decodeOfEncodeIsIdentity : Obligations.DecodeOfEncodeIsIdentity := by
  intro i
  cases i with
  | nop | setsize n | start | startstep | step | pause | resume => exact decodeCommand_of_encode rfl
  | hdr | map | iterate | push | rowend => rfl

/-- Where `decodeCommand` answers an instruction, every field has the value that the encoder gives it. -/
theorem encode_of_decodeCommand {w : Word32} {i : Instr} (h : decodeCommand w = .ok i) : encode i = .command w := by
  have hfields : ∀ {imm : Dim} {op : BitVec 4}, cmdRsv w = 0 → cmdImm w = imm → cmdOp w = op →
      Code.command (commandWord imm op) = .command w := by
    rintro _ _ hrsv rfl rfl
    rw [commandWord_of_fields hrsv]
  unfold decodeCommand at h
  split_ifs at h with hrsv hop hset himm
  · cases h
    exact hfields (not_not.1 hrsv) rfl hset
  · split at h <;> cases h
    all_goals
      rename_i hk
      exact hfields (not_not.1 hrsv) (not_not.1 himm) (BitVec.eq_of_toNat_eq hk)

theorem decodeCommand_iff {w : Word32} {i : Instr} : decodeCommand w = .ok i ↔ encode i = .command w :=
  ⟨encode_of_decodeCommand, decodeCommand_of_encode⟩

/-- Settles O2: a command word is its fields, and a `SEQ` code is one of five. -/
theorem encodeOfDecodeIsIdentity : Obligations.EncodeOfDecodeIsIdentity := by
  intro c i h
  cases c with
  | command w => exact encode_of_decodeCommand h
  | sequencer c =>
    obtain ⟨rfl, rfl⟩ | ⟨rfl, rfl⟩ | ⟨rfl, rfl⟩ | ⟨rfl, rfl⟩ | ⟨rfl, rfl⟩ := Machine.decodeSeq_cases h
    all_goals rfl

/-! ### The decoder by fields (R84) -/

/-- A word whose fields are those of a command's code decodes to that command. -/
theorem decodeCommand_of_fields {w : Word32} {i : Instr} {op imm : Nat} (hrsv : w.toNat / 16 % 4096 = 0)
    (hop : w.toNat % 16 = op) (himm : w.toNat / 65536 = imm)
    (hi : encode i = .command (commandWord (BitVec.ofNat 16 imm) (BitVec.ofNat 4 op))) : decodeCommand w = .ok i := by
  rw [decodeCommand_iff, hi, ← cmdOp_eq_of_mod hop, ← cmdImm_eq_of_div himm,
    commandWord_of_fields (cmdRsv_eq_zero_iff.2 hrsv)]

/-- R85: each of the three tests rejects. -/
theorem decodeCommand_error_of_fields {w : Word32}
    (h : w.toNat / 16 % 4096 ≠ 0 ∨ 7 ≤ w.toNat % 16 ∨ (w.toNat % 16 ≠ 1 ∧ w.toNat / 65536 ≠ 0)) :
    ∃ e, decodeCommand w = .error e := by
  by_cases hrsv : cmdRsv w = 0
  · by_cases hop : 7 ≤ (cmdOp w).toNat
    · exact ⟨_, decodeCommand_of_reservedOpcode hrsv hop⟩
    · obtain ⟨hset, himm⟩ : w.toNat % 16 ≠ 1 ∧ w.toNat / 65536 ≠ 0 := by
        rw [Machine.toNat_cmdOp] at hop
        rw [cmdRsv_eq_zero_iff] at hrsv
        tauto
      refine ⟨_, decodeCommand_of_immediateNotZero hrsv (by omega) (fun hone => hset ?_) fun hzero => himm ?_⟩
      · rw [← Machine.toNat_cmdOp, hone]; rfl
      · rw [← Machine.toNat_cmdImm, hzero]; rfl
  · exact ⟨_, decodeCommand_of_reservedBits hrsv⟩

/-- R84: a word that passes the three tests decodes. -/
theorem decodeCommand_ok_of_fields {w : Word32} (hrsv : w.toNat / 16 % 4096 = 0) (hop : w.toNat % 16 < 7)
    (himm : w.toNat % 16 = 1 ∨ w.toNat / 65536 = 0) : ∃ i, decodeCommand w = .ok i := by
  rcases himm with hset | himm
  · exact ⟨_, decodeCommand_of_fields (i := .setsize _) hrsv hset rfl rfl⟩
  · obtain ⟨op, hk⟩ : ∃ op, w.toNat % 16 = op := ⟨_, rfl⟩
    have row : ∀ i, encode i = .command (commandWord 0 (BitVec.ofNat 4 op)) → ∃ i, decodeCommand w = .ok i :=
      fun i hi => ⟨i, decodeCommand_of_fields hrsv hk himm hi⟩
    rw [hk] at hop
    interval_cases op
    · exact row .nop rfl
    · exact row (.setsize 0) rfl
    · exact row .start rfl
    · exact row .startstep rfl
    · exact row .step rfl
    · exact row .pause rfl
    · exact row .resume rfl

/-- Settles O3: the rejections by R85's tests, the rows by the code of the command each names. -/
theorem commandDecodeFollowsFields : Obligations.CommandDecodeFollowsFields := by
  intro w op rsv imm
  refine ⟨⟨fun ⟨e, he⟩ => ?_, decodeCommand_error_of_fields⟩,
    fun hrsv hop => decodeCommand_of_fields hrsv hop rfl rfl, fun hrsv himm => ?_⟩
  · by_contra hpass
    push Not at hpass
    obtain ⟨hrsv, hop, himm⟩ := hpass
    obtain ⟨i, hi⟩ := decodeCommand_ok_of_fields hrsv hop (or_iff_not_imp_left.2 himm)
    rw [hi] at he
    cases he
  · exact ⟨fun h => decodeCommand_of_fields hrsv h himm rfl, fun h => decodeCommand_of_fields hrsv h himm rfl,
      fun h => decodeCommand_of_fields hrsv h himm rfl, fun h => decodeCommand_of_fields hrsv h himm rfl,
      fun h => decodeCommand_of_fields hrsv h himm rfl, fun h => decodeCommand_of_fields hrsv h himm rfl⟩

/-! ### The number of legal words (R84) -/

/-- The opcodes of the six commands without an immediate. -/
def plainOpcodes : Finset (BitVec 4) := {0, 2, 3, 4, 5, 6}

/-- The legal words are the words of `SETSIZE` and the six words without an immediate. -/
theorem legalWords_eq :
    {w : Word32 | ∃ i, decodeCommand w = .ok i} =
      Set.range (fun n => commandWord n 1) ∪ commandWord 0 '' (plainOpcodes : Set (BitVec 4)) := by
  ext w
  simp only [Set.mem_ofPred_eq, decodeCommand_iff, Set.mem_union, Set.mem_range, Set.mem_image]
  constructor
  · rintro ⟨i, hi⟩
    cases i with
    | setsize n => exact .inl ⟨n, Code.command.inj hi⟩
    | nop | start | startstep | step | pause | resume => exact .inr ⟨_, by decide, Code.command.inj hi⟩
    | hdr | map | iterate | push | rowend => cases hi
  · rintro (⟨n, rfl⟩ | ⟨op, hop, rfl⟩)
    · exact ⟨.setsize n, rfl⟩
    · simp only [plainOpcodes, Finset.coe_insert, Finset.coe_singleton, Set.mem_insert_iff,
        Set.mem_singleton_iff] at hop
      obtain rfl | rfl | rfl | rfl | rfl | rfl := hop
      exacts [⟨.nop, rfl⟩, ⟨.start, rfl⟩, ⟨.startstep, rfl⟩, ⟨.step, rfl⟩, ⟨.pause, rfl⟩, ⟨.resume, rfl⟩]

/-- Settles O4: the two kinds of words are disjoint by their opcodes, and each word has its own fields. -/
theorem commandWordCount : Obligations.CommandWordCount := by
  have hdisj : Disjoint (Set.range fun n => commandWord n 1) (commandWord 0 '' (plainOpcodes : Set (BitVec 4))) := by
    rw [Set.disjoint_left]
    rintro _ ⟨n, rfl⟩ ⟨op, hop, h⟩
    obtain ⟨-, rfl⟩ := commandWord_inj h
    exact absurd hop (by decide)
  have hset : (Set.range fun n => commandWord n 1).ncard = 2 ^ 16 := by
    rw [← Set.image_univ, Set.ncard_image_of_injective _ fun _ _ h => (commandWord_inj h).1, Set.ncard_univ,
      Nat.card_congr (BitVec.equivFin (m := 16)).toEquiv, Nat.card_fin]
  have hplain : (commandWord 0 '' (plainOpcodes : Set (BitVec 4))).ncard = 6 := by
    rw [Set.ncard_image_of_injective _ fun _ _ h => (commandWord_inj h).2, Set.ncard_coe_finset]
    rfl
  rw [Obligations.CommandWordCount, legalWords_eq, Set.ncard_union_eq hdisj, hset, hplain]

/-! ### The codes of micro-steps (R88) -/

theorem decodeSeq_of_reserved {c : Code3} (h : 5 ≤ c.toNat) : decodeSeq c = .error .reservedSeq := by
  cases hd : decodeSeq c with
  | ok i =>
    obtain ⟨rfl, -⟩ | ⟨rfl, -⟩ | ⟨rfl, -⟩ | ⟨rfl, -⟩ | ⟨rfl, -⟩ := Machine.decodeSeq_cases hd
    all_goals exact absurd h (by decide)
  | error e =>
    unfold decodeSeq at hd
    split at hd <;> cases hd
    rfl

/-- Settles O6: five codes by their rows, three by the codes that name a micro-step, and no command word by the space of
what it decodes to. -/
theorem seqCodesNameMicroSteps : Obligations.SeqCodesNameMicroSteps := by
  refine ⟨rfl, rfl, rfl, rfl, rfl, fun c => decodeSeq_of_reserved, fun w i h => ?_⟩
  rw [Instr.wellFormedIn, Machine.decodeCommand_space h]
  rfl

end Sys2Proof
end

section
/-! The events of R163, each with what it answers: the queue's head, host accesses, the block's turn where no micro-step is
enabled or a code is not a held one, and the sink. At the end the inversion of a step into four kinds, on which the claims
over every event rest: the block's run is untouched, a legal command, an enabled micro-step, reset. -/

namespace Sys2Proof.Machine

/-! ### The queue -/

theorem State.nextEvent_of_nil {s : State} (h : s.events = []) : s.nextEvent = .blockTurn := by
  simp [State.nextEvent, h]

/-- With an empty queue there is no event to take off it (log 1). -/
theorem State.takeTurn_of_nil {s : State} (h : s.events = []) : s.takeTurn = s := by
  cases s
  cases h
  rfl

theorem step_of_blockTurn {s : State} (h : s.nextEvent = .blockTurn) : step s = microStep s.takeTurn := by
  rw [step_eq, h]
  rfl

/-! ### The decoded instruction (R164, R192) -/

theorem command_of_ok {w : Word32} {i : Instr} (h : decodeCommand w = .ok i) (s : State) : command w s = exec i s := by
  rw [command, h]

theorem microStep_of_ok {s : State} {i : Instr} (h : decodeSeq s.seq = .ok i) : microStep s = exec i s := by
  rw [microStep, h]

/-- Settles O7: the head of the queue is the event, and the event runs what its code decodes to. -/
theorem stepRunsDecodedInstruction : Obligations.StepRunsDecodedInstruction := by
  refine ⟨fun s w rest i hs hi => ?_, fun s rest i hs hi => ?_, fun s i hs hi => ?_⟩
  · rw [step_of_hostWrite hs, hostWrite_cmd, command_of_ok hi]
  · rw [step_of_event hs]
    exact microStep_of_ok hi
  · rw [step_of_blockTurn (State.nextEvent_of_nil hs), State.takeTurn_of_nil hs, microStep_of_ok hi]

/-! ### Host reads (R190, R43) -/

/-- No register word shows what stands around the block. -/
theorem readRegister_around (s : State) (i : RegIndex) (l : List Byte) (r : Bool) (es : List Event)
    (rs : List Word32) :
    State.readRegister { s with out := l, outReady := r, events := es, reads := rs } i = s.readRegister i := rfl

/-- Settles O10: the step records the word, which is read off the block's components alone. -/
theorem hostReadOnlyReturnsWord : Obligations.HostReadOnlyReturnsWord :=
  ⟨fun _ _ _ hs => step_of_event hs, readRegister_around⟩

theorem loWord_add_hiWord (v : F64) : (loWord v).toNat + (hiWord v).toNat * 2 ^ 32 = v.toNat := by
  have hv := v.isLt
  simp only [loWord, hiWord, BitVec.extractLsb'_toNat, Nat.shiftRight_eq_div_pow]
  omega

theorem hiWord_sign (v : F64) : (hiWord v).getLsbD 31 = f64Sign v := by
  simp [hiWord, f64Sign, BitVec.msb_eq_getLsbD_last]

/-- Settles O12: the two halves of a pattern, for each of the four registers. -/
theorem floatRegisterWordPairs : Obligations.FloatRegisterWordPairs := fun s =>
  ⟨loWord_add_hiWord s.zRe, loWord_add_hiWord s.zIm, loWord_add_hiWord s.cRe, loWord_add_hiWord s.cIm,
    hiWord_sign s.zRe, hiWord_sign s.zIm⟩

/-! ### A turn without a micro-step (R161, R173) -/

/-- Where no micro-step is enabled the turn passes (log 2). -/
theorem microStep_of_not_enabled {s : State} (hp : s.phaseHeld = true) (hc : s.granted = true → s.seqHeld = true)
    (he : s.enabled = false) : microStep s = .next s := by
  have hoff : ∀ {code : Code3}, ¬(s.seq = code ∧ s.enabled = true) := by simp [he]
  cases hi : decodeSeq s.seq with
  | ok i => rw [microStep_of_ok hi, exec_of_seq hi, performMicro_of_not_enabled hp hc hoff]
  | error e => rw [microStep, hi, performMicro_of_not_enabled hp hc hoff]

theorem State.seqHeld_iff (s : State) : s.seqHeld = true ↔ s.seq.toNat ≤ 4 := decide_eq_true_iff

theorem State.not_enabled_of_not_granted {s : State} (h : s.granted = false) : s.enabled = false := by
  simp [State.enabled, h]

theorem State.not_enabled_of_not_ready {s : State} (he : s.emits = true) (hr : s.outReady = false) :
    s.enabled = false := by
  simp [State.enabled, he, hr]

/-- Settles O15: not due, or due and waiting for the sink, the micro-step is not enabled. -/
theorem blockTurnHoldsWhenNotEnabled : Obligations.BlockTurnHoldsWhenNotEnabled := by
  intro s hturn hphase hseq hheld
  rw [step_of_blockTurn hturn]
  refine microStep_of_not_enabled ((s.phaseHeld_iff).2 hphase) (fun _ => (s.seqHeld_iff).2 hseq) ?_
  rw [State.takeTurn_enabled]
  rcases hheld with hnot | ⟨hready, hemits⟩
  · refine State.not_enabled_of_not_granted ?_
    rw [← Bool.not_eq_true, State.granted_iff]
    exact hnot
  · exact State.not_enabled_of_not_ready ((s.emits_iff).2 hemits) hready

/-! ### Codes that are never held (I7, I8) -/

theorem microStep_of_reservedSeq {s : State} (hg : s.granted = true) (hseq : 5 ≤ s.seq.toNat) :
    microStep s = .fault (.unreachableSeq s.seq) := by
  obtain ⟨e, he⟩ := (decodeSeq_error_iff s.seq).2 hseq
  have hheld : s.seqHeld = false := by
    rw [← Bool.not_eq_true, State.seqHeld_iff]
    omega
  rw [microStep, he, performMicro_of_seq hg hheld]

/-- Settles O16: the reserved code names no micro-step, and the one that is due faults. -/
theorem unreachableSeqFaults : Obligations.UnreachableSeqFaults := by
  intro s hturn hruns hseq
  rw [step_of_blockTurn hturn]
  exact microStep_of_reservedSeq (s := s.takeTurn) ((s.granted_iff).2 hruns) hseq

theorem microStep_of_phase {s : State} (hp : s.phaseHeld = false) :
    microStep s = .fault (.unreachablePhase s.phase) := by
  cases hi : decodeSeq s.seq with
  | ok i => rw [microStep_of_ok hi, exec_of_seq hi, performMicro_of_phase hp]
  | error e => rw [microStep, hi, performMicro_of_phase hp]

/-- Settles O17: both frames look at the phase first. -/
theorem unreachablePhaseFaults : Obligations.UnreachablePhaseFaults := by
  intro s hphase
  have hp : s.phaseHeld = false := by
    rw [← Bool.not_eq_true, State.phaseHeld_iff]
    omega
  refine ⟨fun hturn => ?_, fun w i hturn hi => ?_⟩
  · rw [step_of_blockTurn hturn, microStep_of_phase (by rwa [State.takeTurn_phaseHeld]), State.takeTurn_phase]
  · rw [step_eq, hturn]
    change hostWrite 0 w s.takeTurn = _
    rw [hostWrite_cmd, command_of_ok hi, exec_of_command (decodeCommand_space hi),
      performCommand_of_phase (by rwa [State.takeTurn_phaseHeld]), State.takeTurn_phase]

/-! ### The sink (R163, R173) -/

theorem commandEffect_outReady (i : Instr) (s : State) : (commandEffect i s).outReady = s.outReady := by
  cases i with
  | start | startstep => exact State.beginRun_outReady s _
  | nop | setsize n | step | pause | resume | hdr | map | iterate | push | rowend => rfl

theorem microEffect_outReady (i : Instr) (s : State) : (microEffect i s).outReady = s.outReady := by
  cases i <;> simp [microEffect]

/-- Only the sink drives `OUT_READY`. -/
theorem sinkReady_of_outReady_ne {s t : State} (hs : step s = .next t) (hne : t.outReady ≠ s.outReady) :
    s.nextEvent = .sinkReady t.outReady := by
  obtain ⟨i, -, rfl⟩ | ⟨i, w, -, hw⟩ | ⟨-, hm⟩ | ⟨r, he, rfl⟩ | ⟨-, rfl⟩ := step_next hs
  · exact absurd rfl hne
  · obtain ⟨-, rfl⟩ | ⟨-, -, -, rfl⟩ | ⟨-, c, -, -, ⟨-, rfl⟩ | ⟨-, rfl⟩⟩ := hostWrite_next hw
    · exact absurd rfl hne
    · exact absurd rfl hne
    · exact absurd (commandEffect_outReady c s.takeTurn) hne
    · exact absurd rfl hne
  · obtain ⟨-, ⟨i, -, -, rfl⟩ | ⟨-, rfl⟩⟩ := microStep_next hm
    · exact absurd (by rw [State.endMicro_outReady, microEffect_outReady, State.takeTurn_outReady]) hne
    · exact absurd rfl hne
  · exact he
  · exact absurd rfl hne

/-- Settles O59: the event writes the one field, and a ready sink leaves no hold on a micro-step that is due. -/
theorem sinkChangeAloneWritesOutReady : Obligations.SinkChangeAloneWritesOutReady := by
  refine ⟨fun s r rest hs => step_of_event hs, fun s hturn hruns => ?_, fun s t => sinkReady_of_outReady_ne⟩
  refine ⟨s.takeTurn.setReady true, by rw [step_eq, hturn]; rfl, ?_⟩
  exact enabled_of_runs hruns fun _ => rfl

/-! ### The four kinds of step -/

/-- The state with other surroundings of the run: `CERR`, the sink's signal, the queue and the read record. -/
def State.around (s : State) (c r : Bool) (es : List Event) (rs : List Word32) : State :=
  { s with cerr := c, outReady := r, events := es, reads := rs }

/-- One step leaves the run as it is, or is a legal command, an enabled micro-step or reset. -/
theorem step_cases {s t : State} (hs : step s = .next t) :
    (∃ c r es rs, t = s.around c r es rs) ∨
    (∃ w i, s.nextEvent = .hostWrite 0 w ∧ decodeCommand w = .ok i ∧ legal s i = true ∧
      t = commandEffect i s.takeTurn) ∨
    (s.nextEvent = .blockTurn ∧ ∃ i, decodeSeq s.seq = .ok i ∧ s.enabled = true ∧
      t = s.takeTurn.endMicro (microEffect i s.takeTurn)) ∨
    (s.nextEvent = .reset ∧ t = s.takeTurn.applyReset) := by
  obtain ⟨i, -, rfl⟩ | ⟨i, w, he, hw⟩ | ⟨he, hm⟩ | ⟨r, -, rfl⟩ | ⟨he, rfl⟩ := step_next hs
  · exact .inl ⟨_, _, _, _, rfl⟩
  · obtain ⟨-, rfl⟩ | ⟨-, -, -, rfl⟩ | ⟨rfl, c, hc, -, ⟨hl, rfl⟩ | ⟨-, rfl⟩⟩ := hostWrite_next hw
    · exact .inl ⟨_, _, _, _, rfl⟩
    · exact .inl ⟨_, _, _, _, rfl⟩
    · exact .inr (.inl ⟨w, c, he, hc, (legal_withEvents s _ c).symm.trans hl, rfl⟩)
    · exact .inl ⟨_, _, _, _, rfl⟩
  · obtain ⟨-, ⟨i, hi, hen, rfl⟩ | ⟨-, rfl⟩⟩ := microStep_next hm
    · exact .inr (.inr (.inl ⟨he, i, hi, hen, rfl⟩))
    · exact .inl ⟨_, _, _, _, rfl⟩
  · exact .inl ⟨_, _, _, _, rfl⟩
  · exact .inr (.inr (.inr ⟨he, rfl⟩))

end Sys2Proof.Machine
end

section
/-! The rest of the host commands (43_host_commands.md section 2), and who writes the control registers (10_state.md
section 1): the fields of each command's and each micro-step's effect, put into the four kinds of step. -/

namespace Sys2Proof.Machine

/-! ### `SETSIZE`, `STEP` and `RESUME` (R194, R197, R199) -/

theorem commandWord_one_eq (n : Dim) : commandWord n 1 = BitVec.ofNat 32 (n.toNat * 2 ^ 16 + 1) := by
  apply BitVec.eq_of_toNat_eq
  have hn := n.isLt
  have hone : (1 : BitVec 4).toNat = 1 := rfl
  rw [commandWord, toNat_append_eq_mul_add, toNat_append_eq_mul_add, BitVec.toNat_zero, hone, BitVec.toNat_ofNat]
  omega

theorem phase_le_of_noRun {s : State} (hn : s.noRun = true) : s.phase.toNat ≤ 4 :=
  (s.phaseHeld_iff).1 (State.phaseHeld_of_noRun hn)

theorem phase_le_of_active {s : State} (ha : s.active = true) : s.phase.toNat ≤ 4 :=
  (s.phaseHeld_iff).1 (State.phaseHeld_of_active ha)

/-- Settles O19: its word is the one with opcode 1, and it is legal where no run is active. -/
theorem setsizeWritesOnlySize : Obligations.SetsizeWritesOnlySize := by
  intro s n
  refine ⟨decodeCommand_of_encode (congrArg Code.command (commandWord_one_eq n)), fun hphase => ?_, fun hphase => ?_⟩
  · have hn : s.noRun = true := (s.noRun_iff).2 hphase
    exact exec_of_legal rfl (phase_le_of_noRun hn) hn
  · have ha : s.active = true := (s.active_iff).2 hphase
    have hp := phase_le_of_active ha
    refine exec_of_not_legal rfl hp ?_
    change s.noRun = false
    rw [State.noRun_eq_not_active ((s.phaseHeld_iff).2 hp), ha]
    rfl

/-- Settles O22: `STEP` is legal in `HALT` with no step pending alone. -/
theorem stepRequestsOneMicroStep : Obligations.StepRequestsOneMicroStep := by
  intro s
  refine ⟨fun hhalt hspend => ?_, fun hhalt hspend => ?_, fun hp hhalt => ?_⟩
  · exact exec_of_legal rfl (by simp [hhalt]) (by simp [legal, hhalt, hspend])
  · exact exec_of_not_legal rfl (by simp [hhalt]) (by simp [legal, hspend])
  · exact exec_of_not_legal rfl hp (by simpa [legal] using fun h => absurd h hhalt)

/-- `RESUME` is legal in `HALT`. -/
theorem exec_resume_of_halt {s : State} (hhalt : s.phase = Phase.halt) :
    exec .resume s = .next { s with phase := Phase.run, spend := false } :=
  exec_of_legal rfl (by simp [hhalt]) (by simp [legal, hhalt])

/-- `PAUSE` is legal in `RUN`. -/
theorem exec_pause_of_run {s : State} (hrun : s.phase = Phase.run) :
    exec .pause s = .next { s with phase := Phase.halt, spend := false } :=
  exec_of_legal rfl (by simp [hrun]) (by simp [legal, hrun])

/-- Settles O24: both commands write `PHASE` and `SPEND` alone, so the second takes back what the first wrote. -/
theorem resumeContinuesRun : Obligations.ResumeContinuesRun := by
  intro s
  refine ⟨exec_resume_of_halt, fun hp hhalt => ?_, fun t hrun hspend ht => ?_⟩
  · exact exec_of_not_legal rfl hp (by simpa [legal] using hhalt)
  · rw [exec_pause_of_run hrun] at ht
    cases ht
    rw [exec_resume_of_halt rfl]
    cases s
    cases hrun
    cases hspend
    rfl

/-! ### A start forgets the past (R263) -/

/-- R201 writes every component of the block but `SIZE` and `CERR`. -/
theorem initRun_congr {s t : State} (p : Code3) (hsize : s.size = t.size) (hcerr : s.cerr = t.cerr)
    (hout : s.out = t.out) (hready : s.outReady = t.outReady) (hevents : s.events = t.events)
    (hreads : s.reads = t.reads) : s.initRun p = t.initRun p := by
  simp only [State.initRun, hsize, hcerr, hout, hready, hevents, hreads]

/-- Settles O26: both starts answer `INIT_RUN` of their state. -/
theorem startForgetsThePast : Obligations.StartForgetsThePast := by
  intro s t hs ht hne hsize hcerr hout hready hevents hreads
  have hns : s.noRun = true := (s.noRun_iff).2 hs
  have hnt : t.noRun = true := (t.noRun_iff).2 ht
  have hne' : t.size ≠ 0 := hsize ▸ hne
  have hinit := fun p => initRun_congr p hsize hcerr hout hready hevents hreads
  constructor
  · rw [exec_of_start (i := .start) rfl hns rfl hns hne, exec_of_start (i := .start) rfl hnt rfl hnt hne', hinit]
  · rw [exec_of_start (i := .startstep) rfl hns rfl hns hne, exec_of_start (i := .startstep) rfl hnt rfl hnt hne',
      hinit]

/-! ### Who writes `C_RE` and `C_IM` (R23) -/

/-- A start is refused and leaves the run's registers alone, or initialises them. -/
theorem beginRun_cases (s : State) (p : Code3) : s.beginRun p = s.refuseSize ∨ s.beginRun p = s.initRun p :=
  (em (s.size = 0)).imp (State.beginRun_of_zero p) (State.beginRun_of_ne p)

/-- A word that decodes to one of the two starts. -/
theorem decodes_to_start {w : Word32} {i : Instr} (hi : decodeCommand w = .ok i)
    (hstart : i = .start ∨ i = .startstep) : decodeCommand w = .ok .start ∨ decodeCommand w = .ok .startstep := by
  obtain rfl | rfl := hstart
  · exact .inl hi
  · exact .inr hi

/-- Of the commands only a start writes the point, and then it clears it. -/
theorem commandEffect_c (i : Instr) (s : State) :
    ((commandEffect i s).cRe, (commandEffect i s).cIm) = (s.cRe, s.cIm) ∨
      ((commandEffect i s).cRe, (commandEffect i s).cIm) = (0, 0) ∧ (i = .start ∨ i = .startstep) := by
  cases i with
  | start | startstep =>
    rw [commandEffect]
    obtain h | h := beginRun_cases s _ <;> rw [h]
    · exact .inl rfl
    · exact .inr ⟨rfl, by simp⟩
  | nop | setsize n | step | pause | resume | hdr | map | iterate | push | rowend => exact .inl rfl

/-- Of the micro-steps only `MAP` writes the point. -/
theorem microEffect_c (i : Instr) (s : State) :
    ((microEffect i s).cRe, (microEffect i s).cIm) = (s.cRe, s.cIm) ∨
      i = .map ∧ ((microEffect i s).cRe, (microEffect i s).cIm) =
        mapC binary64 s.x.toNat s.y.toNat s.size.toNat := by
  cases i with
  | map => exact .inr ⟨rfl, by simp only [microEffect, mapEffect_cRe, mapEffect_cIm]⟩
  | hdr | iterate | push | rowend => exact .inl (by simp [microEffect])
  | nop | setsize n | start | startstep | step | pause | resume => exact .inl rfl

/-- The micro-step an instruction names is the one of its code. -/
theorem seq_of_decodeSeq {c : Code3} {i : Instr} (h : decodeSeq c = .ok i) : encode i = .sequencer c := by
  obtain ⟨rfl, rfl⟩ | ⟨rfl, rfl⟩ | ⟨rfl, rfl⟩ | ⟨rfl, rfl⟩ | ⟨rfl, rfl⟩ := decodeSeq_cases h
  all_goals rfl

theorem seq_eq_of_encode {s : State} {i : Instr} {c : Code3} (h : decodeSeq s.seq = .ok i)
    (hi : encode i = .sequencer c) : s.seq = c :=
  Code.sequencer.inj ((seq_of_decodeSeq h).symm.trans hi)

/-- Settles O36: one writer among the commands, one among the micro-steps, and reset. -/
theorem constantWriters : Obligations.ConstantWriters := by
  intro s t hs hne
  obtain ⟨c, r, es, rs, rfl⟩ | ⟨w, i, he, hi, -, rfl⟩ | ⟨he, i, hi, -, rfl⟩ | ⟨he, rfl⟩ := step_cases hs
  · exact absurd rfl hne
  · obtain hkeep | ⟨hzero, hstart⟩ := commandEffect_c i s.takeTurn
    · exact absurd hkeep hne
    · exact .inr ⟨hzero, .inr ⟨w, he, decodes_to_start hi hstart⟩⟩
  · rw [State.endMicro_cRe, State.endMicro_cIm] at hne ⊢
    obtain hkeep | ⟨rfl, hmap⟩ := microEffect_c i s.takeTurn
    · exact absurd hkeep hne
    · exact .inl ⟨he, seq_eq_of_encode hi rfl, hmap⟩
  · exact .inr ⟨rfl, .inl he⟩

/-! ### Who writes `SIZE`, `X`, `Y` and `PHASE` (R21, R22, R31) -/

theorem commandEffect_size (i : Instr) (s : State) :
    (commandEffect i s).size = s.size ∨ ∃ n, i = .setsize n ∧ (commandEffect i s).size = n := by
  cases i with
  | setsize n => exact .inr ⟨n, rfl, rfl⟩
  | start | startstep => exact .inl (State.beginRun_size s _)
  | nop | step | pause | resume | hdr | map | iterate | push | rowend => exact .inl rfl

theorem commandEffect_xy (i : Instr) (s : State) :
    ((commandEffect i s).x, (commandEffect i s).y) = (s.x, s.y) ∨ i = .start ∨ i = .startstep := by
  cases i with
  | start | startstep => simp
  | nop | setsize n | step | pause | resume | hdr | map | iterate | push | rowend => exact .inl rfl

@[simp] theorem microEffect_size (i : Instr) (s : State) : (microEffect i s).size = s.size := by
  cases i <;> simp [microEffect]

theorem microEffect_xy (i : Instr) (s : State) :
    ((microEffect i s).x, (microEffect i s).y) = (s.x, s.y) ∨ i = .rowend ∨
      i = .push ∧ (microEffect i s).y = s.y := by
  cases i with
  | push => exact .inr (.inr ⟨rfl, by simp [microEffect]⟩)
  | rowend => exact .inr (.inl rfl)
  | hdr | map | iterate => exact .inl (by simp [microEffect])
  | nop | setsize n | start | startstep | step | pause | resume => exact .inl rfl

theorem microEffect_phase (i : Instr) (s : State) :
    (microEffect i s).phase = s.phase ∨ i = .rowend ∧ (microEffect i s).phase = Phase.done := by
  cases i with
  | rowend => by_cases hlast : s.y.toNat + 1 = s.size.toNat <;> simp [microEffect, hlast]
  | hdr | map | iterate | push => exact .inl (by simp [microEffect])
  | nop | setsize n | start | startstep | step | pause | resume => exact .inl rfl

theorem not_active_of_legal_setsize {s : State} {n : Dim} (hl : legal s (.setsize n) = true) : s.active = false :=
  State.not_active_of_noRun hl

/-- Settles O37: for each register its writers among the commands and the micro-steps, and reset. -/
theorem controlRegisterWriters : Obligations.ControlRegisterWriters := by
  intro s t hs
  obtain ⟨c, r, es, rs, rfl⟩ | ⟨w, i, he, hi, hl, rfl⟩ | ⟨he, i, hi, -, rfl⟩ | ⟨he, rfl⟩ := step_cases hs
  · exact ⟨fun h => absurd rfl h, fun h => absurd rfl h, fun h => absurd rfl h⟩
  · refine ⟨fun hne => .inr ?_, fun hne => .inr (.inr ?_), fun _ => .inr (.inl ⟨w, he⟩)⟩
    · obtain hkeep | ⟨n, rfl, hn⟩ := commandEffect_size i s.takeTurn
      · exact absurd hkeep hne
      · exact ⟨not_active_of_legal_setsize hl, w, n, he, hi, hn⟩
    · obtain hkeep | hstart := commandEffect_xy i s.takeTurn
      · exact absurd hkeep hne
      · exact ⟨w, he, decodes_to_start hi hstart⟩
  · simp only [State.endMicro_size, State.endMicro_x, State.endMicro_y, State.endMicro_phase]
    refine ⟨fun hne => absurd (microEffect_size i s.takeTurn) hne, fun hne => .inr (.inl ⟨he, ?_⟩),
      fun hne => .inr (.inr ⟨he, ?_⟩)⟩
    · obtain hkeep | rfl | ⟨rfl, hy⟩ := microEffect_xy i s.takeTurn
      · exact absurd hkeep hne
      · exact .inl (seq_eq_of_encode hi rfl)
      · exact .inr ⟨seq_eq_of_encode hi rfl, hy⟩
    · obtain hkeep | ⟨rfl, hdone⟩ := microEffect_phase i s.takeTurn
      · exact absurd hkeep hne
      · exact ⟨seq_eq_of_encode hi rfl, hdone⟩
  · exact ⟨fun _ => .inl he, fun _ => .inl he, fun _ => .inl he⟩

/-! ### Who writes `SPEND` (R35) -/

theorem commandEffect_spend (i : Instr) (s : State) :
    (commandEffect i s).spend = s.spend ∨ (i = .step ∧ (commandEffect i s).spend = true) ∨
      (i = .pause ∨ i = .resume ∨ i = .start ∨ i = .startstep) ∧ (commandEffect i s).spend = false := by
  cases i with
  | start | startstep =>
    rw [commandEffect]
    obtain h | h := beginRun_cases s _ <;> rw [h]
    · exact .inl rfl
    · exact .inr (.inr ⟨by simp, rfl⟩)
  | step => exact .inr (.inl ⟨rfl, rfl⟩)
  | pause | resume => exact .inr (.inr ⟨by simp, rfl⟩)
  | nop | setsize n | hdr | map | iterate | push | rowend => exact .inl rfl

/-- No micro-step sets `SPEND`. -/
theorem endMicro_microEffect_spend {i : Instr} {s : State} (h : s.spend = false) :
    (s.endMicro (microEffect i s)).spend = false := by
  obtain ⟨-, hkeep⟩ | ⟨-, hclear⟩ := microEffect_phase_spend i s
  · simp [hkeep, h]
  · simp [hclear]

/-- Settles O38: `STEP` sets it, four commands, a turn and reset clear it. -/
theorem pendingStepWriters : Obligations.PendingStepWriters := by
  intro s t hs
  obtain ⟨c, r, es, rs, rfl⟩ | ⟨w, i, he, hi, hl, rfl⟩ | ⟨he, i, hi, -, rfl⟩ | ⟨he, rfl⟩ := step_cases hs
  · exact ⟨fun h h' => absurd (h.symm.trans h') (by simp), fun h h' => absurd (h.symm.trans h') (by simp)⟩
  · obtain hkeep | ⟨rfl, hset⟩ | ⟨hwho, hclear⟩ := commandEffect_spend i s.takeTurn
    · rw [hkeep]
      exact ⟨fun h h' => absurd (h.symm.trans h') (by simp), fun h h' => absurd (h.symm.trans h') (by simp)⟩
    · refine ⟨fun _ _ => ⟨w, he, hi, ?_⟩, fun _ h => absurd (hset.symm.trans h) (by simp)⟩
      have hhalt : s.phase = Phase.halt ∧ s.spend = false := by simpa [legal] using hl
      exact hhalt.left
    · exact ⟨fun _ h => absurd (hclear.symm.trans h) (by simp), fun _ _ => .inr (.inr ⟨w, i, he, hi, hwho⟩)⟩
  · refine ⟨fun h h' => ?_, fun _ _ => .inr (.inl he)⟩
    exact absurd ((endMicro_microEffect_spend (s := s.takeTurn) h).symm.trans h') (by simp)
  · exact ⟨fun _ h => absurd h (by simp [State.reset]), fun _ _ => .inl he⟩

end Sys2Proof.Machine
end

section
/-! What each micro-step does in its frame, as one record update (40_evaluator.md section 3, 41_packer.md section 2), and
the bookkeeping of `SPEND` (42_sequencer.md R165). -/

namespace Sys2Proof.Machine

/-! ### The header (R131, R133) -/

/-- R8: a dimension has at most five digits, so the header's index fits its register. -/
theorem headerBytes_length_le {n : Dim} (hn : n ≠ 0) : (headerBytes n).length ≤ 15 := by
  have hfit : n.toNat < 10 ^ 5 := by have := n.isLt; omega
  have hdigits : (Nat.digits 10 n.toNat).length ≤ 5 := (Nat.digits_length_le_iff (by decide) n.toNat).2 hfit
  rw [headerBytes_length hn]
  omega

theorem headerByte_eq_getElem {n : Dim} {k : Nat} (h : k < (headerBytes n).length) :
    headerByte n k = (headerBytes n)[k] := by
  rw [headerByte, List.getElem?_eq_getElem h, Option.getD_some]

theorem endMicro_hdrEffect {s : State} (h : s.hidx.toNat < (headerBytes s.size).length) (hsize : s.size ≠ 0) :
    s.endMicro (hdrEffect s) =
      { s with
        out := s.out ++ [(headerBytes s.size)[s.hidx.toNat]], outcnt := s.outcnt + 1, hidx := s.hidx + 1
        seq := if s.hidx.toNat + 1 = (headerBytes s.size).length then Seq.map else s.seq
        spend := s.spendAfter } := by
  have hfits : s.hidx.toNat + 1 < 2 ^ 4 := by have := headerBytes_length_le hsize; omega
  rw [hdrEffect, fit_succ hfits, headerByte_eq_getElem h]
  unfold State.endMicro State.spendAfter
  split <;> rfl

/-- Settles O27: due, with a ready sink, `HDR` is enabled. -/
theorem hdrEmitsHeaderByte : Obligations.HdrEmitsHeaderByte := by
  intro s h hseq hruns hready hsize
  rw [← hseq, ← endMicro_hdrEffect h hsize]
  exact performMicro_of_runs (by decide) hseq hruns fun _ => hready

/-! ### The evaluator (R107, R108) -/

theorem not_emits_of_map {s : State} (h : s.seq = Seq.map) : ¬ s.emits = true := by
  simp [State.emits_iff, h]

theorem not_emits_of_iterate {s : State} (h : s.seq = Seq.iterate) : ¬ s.emits = true := by
  simp [State.emits_iff, h]

/-- Settles O28: `MAP` emits nothing, so it is enabled when it is due. -/
theorem mapComputesPoint : Obligations.MapComputesPoint := by
  intro s hseq hruns
  refine (performMicro_of_runs (by decide) hseq hruns fun he => absurd he (not_emits_of_map hseq)).trans ?_
  rw [endMicro_mapEffect, mapC_eq]

/-- Settles O29: `ITERATE` emits nothing, so it is enabled when it is due. -/
theorem iterateAdvancesOrbit : Obligations.IterateAdvancesOrbit := by
  intro s hseq hruns hiter
  refine (performMicro_of_runs (by decide) hseq hruns fun he => absurd he (not_emits_of_iterate hseq)).trans ?_
  rw [endMicro_iterateEffect binary64 s hiter, escaped_eq, stepZ_eq]

/-! ### The packer (R134, R135) -/

theorem endMicro_pushEffect_of_eighth {s : State} (hx : s.x.toNat < s.size.toNat) (hbit : s.bit = 1) :
    s.endMicro (pushEffect s) =
      { s with
        out := s.out ++ [pushedAcc s], outcnt := s.outcnt + 1, byteAcc := 0, bit := 128, x := s.x + 1
        seq := if s.x.toNat + 1 = s.size.toNat then Seq.rowend else Seq.map
        spend := s.spendAfter } := by
  have hfits : s.x.toNat + 1 < 2 ^ 16 := by have := s.size.isLt; omega
  rw [pushEffect, packBit_of_eighth hbit, fit_succ hfits]
  unfold State.endMicro State.spendAfter
  split <;> rfl

theorem endMicro_pushEffect_of_earlier {s : State} (hx : s.x.toNat < s.size.toNat) (hbit : s.bit ≠ 1) :
    s.endMicro (pushEffect s) =
      { s with
        byteAcc := pushedAcc s, bit := s.bit >>> 1, x := s.x + 1
        seq := if s.x.toNat + 1 = s.size.toNat then Seq.rowend else Seq.map
        spend := s.spendAfter } := by
  have hfits : s.x.toNat + 1 < 2 ^ 16 := by have := s.size.isLt; omega
  rw [pushEffect, packBit_of_earlier hbit, fit_succ hfits]
  unfold State.endMicro State.spendAfter
  split <;> rfl

/-- Settles O30: on the eighth bit `PUSH` emits and needs the sink, earlier it does not. -/
theorem pushPacksPixel : Obligations.PushPacksPixel := by
  intro s hseq hruns hx acc next
  refine ⟨fun hbit hready => ?_, fun hbit => ?_⟩
  · rw [show acc = pushedAcc s from rfl, ← endMicro_pushEffect_of_eighth hx hbit]
    exact performMicro_of_runs (by decide) hseq hruns fun _ => hready
  · rw [show acc = pushedAcc s from rfl, ← endMicro_pushEffect_of_earlier hx hbit]
    refine performMicro_of_runs (by decide) hseq hruns fun he => absurd ?_ hbit
    simpa [State.emits_iff, hseq] using he

/-- R135, whether or not the row ends on a byte boundary. -/
theorem flushRow_eq (s : State) :
    flushRow s =
      { s with
        out := if s.bit = 128 then s.out else s.out ++ [s.byteAcc]
        outcnt := if s.bit = 128 then s.outcnt else s.outcnt + 1
        byteAcc := 0, bit := 128 } := by
  by_cases hbit : s.bit = 128
  · rw [flushRow_of_whole hbit, if_pos hbit, if_pos hbit]
  · rw [flushRow_of_padded hbit, if_neg hbit, if_neg hbit]
    rfl

theorem endMicro_rowendEffect {s : State} (hy : s.y.toNat < s.size.toNat) :
    s.endMicro (rowendEffect s) =
      { s with
        out := if s.bit = 128 then s.out else s.out ++ [s.byteAcc]
        outcnt := if s.bit = 128 then s.outcnt else s.outcnt + 1
        byteAcc := 0, bit := 128, x := 0, y := s.y + 1
        phase := if s.y.toNat + 1 = s.size.toNat then Phase.done else s.phase
        seq := if s.y.toNat + 1 = s.size.toNat then s.seq else Seq.map
        spend := if s.y.toNat + 1 = s.size.toNat then false else s.spendAfter } := by
  have hfits : s.y.toNat + 1 < 2 ^ 16 := by have := s.size.isLt; omega
  rw [rowendEffect, flushRow_eq, fit_succ hfits]
  unfold State.endMicro State.spendAfter
  by_cases hlast : s.y.toNat + 1 = s.size.toNat
  · simp only [if_pos hlast]
    split <;> rfl
  · simp only [if_neg hlast]
    split <;> rfl

/-- Settles O31: only a row that ends within a byte needs the sink. -/
theorem rowendFlushesRow : Obligations.RowendFlushesRow := by
  intro s hseq hruns hy hready
  rw [← hseq, ← endMicro_rowendEffect hy]
  refine performMicro_of_runs (by decide) hseq hruns fun he => hready ?_
  simpa [State.emits_iff, hseq] using he

/-! ### The bookkeeping of `SPEND` (R165) -/

theorem active_of_enabled {s : State} (h : s.enabled = true) : s.active = true :=
  State.active_of_granted ((s.enabled_iff).1 h).1

/-- After a micro-step performed in `HALT` no further one is due. -/
theorem not_granted_of_halt {s : State} {i : Instr} (h : s.phase = Phase.halt) :
    (s.endMicro (microEffect i s)).granted = false ∧ (s.endMicro (microEffect i s)).phase.toNat ≤ 4 := by
  obtain ⟨hp, -⟩ | ⟨hp, -⟩ := microEffect_phase_spend i s <;> simp [State.granted, hp, h]

/-- Settles O33: R165 clears `SPEND`, and without it nothing is due in `HALT`; the end of a run clears it as well. -/
theorem stepAllowsOneMicroStep : Obligations.StepAllowsOneMicroStep := by
  intro s t hturn he hs
  rw [step_of_blockTurn hturn] at hs
  obtain ⟨-, ⟨i, -, -, rfl⟩ | ⟨hoff, -⟩⟩ := microStep_next hs
  · refine ⟨fun hhalt => ⟨by simp [hhalt], fun hnext => ?_⟩, fun hdone => ?_⟩
    · obtain ⟨hg, hp⟩ := not_granted_of_halt (i := i) (s := s.takeTurn) hhalt
      rw [step_of_blockTurn hnext]
      refine microStep_of_not_enabled ?_ ?_ ?_
      · rwa [State.takeTurn_phaseHeld, State.phaseHeld_iff]
      · simp [hg]
      · exact State.not_enabled_of_not_granted hg
    · obtain ⟨hp, -⟩ | ⟨-, hspend⟩ := microEffect_phase_spend i s.takeTurn
      · have ha := active_of_enabled he
        rw [State.endMicro_phase, hp, State.takeTurn_phase] at hdone
        simp [State.active, hdone] at ha
      · simp [hspend]
  · rw [State.takeTurn_enabled, he] at hoff
    cases hoff

end Sys2Proof.Machine
end

section
/-! R100 on finite operands, against the exact rational results: each rounded operation returns the nearest binary64 value,
ties to even; the conversion of naturals is exact, and the comparison is the order of the values. -/

namespace Sys2Proof.Machine

/-! ### The nearest magnitude, as a fraction -/

/-- `roundMagRaw_nearest` with the fraction `n / d` as a rational number. -/
theorem roundMagRaw_nearest_rat {a : ℚ} {n d : Nat} (hd : 0 < d) (ha : a * d = n) (p : Nat) :
    |a - patMag (roundMagRaw n d)| ≤ |a - patMag p| ∧
      (|a - patMag (roundMagRaw n d)| = |a - patMag p| →
        patMag p = patMag (roundMagRaw n d) ∨ roundMagRaw n d % 2 = 0) := by
  have hdq : (0 : ℚ) < d := by exact_mod_cast hd
  have hscale : ∀ q : Nat, ((|(n : ℤ) - patMag q * d| : ℤ) : ℚ) = |a - patMag q| * d := fun q => by
    push_cast
    rw [← ha, ← sub_mul, abs_mul, abs_of_pos hdq]
  obtain ⟨hle, htie⟩ := roundMagRaw_nearest n hd p
  constructor
  · have hle' : ((|(n : ℤ) - patMag (roundMagRaw n d) * d| : ℤ) : ℚ) ≤ (|(n : ℤ) - patMag p * d| : ℤ) := by
      exact_mod_cast hle
    rw [hscale, hscale] at hle'
    exact le_of_mul_le_mul_right hle' hdq
  · intro heq
    refine htie ?_
    have heq' : ((|(n : ℤ) - patMag (roundMagRaw n d) * d| : ℤ) : ℚ) = (|(n : ℤ) - patMag p * d| : ℤ) := by
      rw [hscale, hscale, heq]
    exact_mod_cast heq'

/-! ### The overflow threshold -/

/-- The midpoint between the largest finite magnitude and the pattern of infinity read as one more. -/
theorem patMag_infMag_add_pred : patMag infMag + patMag (infMag - 1) = 2 * ((2 ^ 54 - 1) * 2 ^ 2044) := by
  decide +kernel

theorem threshold_cast (k : Nat) : ((2 * ((2 ^ 54 - 1) * 2 ^ k) : ℕ) : ℚ) = 2 * ((2 ^ 54 - 1) * 2 ^ k) := by
  push_cast
  norm_num

theorem midpoint_le_of_abs_sub_le {a x y : ℚ} (hxy : y < x) (h : |a - x| ≤ |a - y|) : x + y ≤ 2 * a := by
  rcases abs_cases (a - x) with ⟨h1, hx⟩ | ⟨h1, hx⟩ <;> rcases abs_cases (a - y) with ⟨h2, hy⟩ | ⟨h2, hy⟩ <;>
    rw [h1, h2] at h <;> linarith

theorem le_midpoint_of_abs_sub_le {a x y : ℚ} (hxy : x < y) (h : |a - x| ≤ |a - y|) : 2 * a ≤ x + y := by
  rcases abs_cases (a - x) with ⟨h1, hx⟩ | ⟨h1, hx⟩ <;> rcases abs_cases (a - y) with ⟨h2, hy⟩ | ⟨h2, hy⟩ <;>
    rw [h1, h2] at h <;> linarith

/-- At the midpoint itself both neighbours are equally near. -/
theorem abs_sub_eq_of_midpoint {a x y : ℚ} (h : x + y = 2 * a) : |a - x| = |a - y| := by
  rw [show a - x = -(a - y) by linarith, abs_neg]

/-- Rounding overflows exactly from the midpoint on: a tie goes to the even pattern, which is infinity's. -/
theorem infMag_le_roundMagRaw_iff {a : ℚ} {n d : Nat} (hd : 0 < d) (ha : a * d = n) :
    infMag ≤ roundMagRaw n d ↔ ((2 ^ 54 - 1) * 2 ^ 2044 : ℚ) ≤ a := by
  have hmid : (patMag infMag : ℚ) + patMag (infMag - 1) = 2 * ((2 ^ 54 - 1) * 2 ^ 2044) := by
    rw [← Nat.cast_add, patMag_infMag_add_pred, threshold_cast]
  have hlt : (patMag (infMag - 1) : ℚ) < patMag infMag := by
    exact_mod_cast patMag_strictMono (by decide : infMag - 1 < infMag)
  generalize ((2 ^ 54 - 1) * 2 ^ 2044 : ℚ) = threshold at hmid ⊢
  constructor
  · intro hinf
    have hge : (patMag infMag : ℚ) ≤ patMag (roundMagRaw n d) := by
      exact_mod_cast patMag_strictMono.monotone hinf
    have := midpoint_le_of_abs_sub_le (hlt.trans_le hge) (roundMagRaw_nearest_rat hd ha (infMag - 1)).1
    linarith
  · intro hbig
    by_contra hfin
    have hle : roundMagRaw n d ≤ infMag - 1 := by omega
    have hle' : (patMag (roundMagRaw n d) : ℚ) ≤ patMag (infMag - 1) := by
      exact_mod_cast patMag_strictMono.monotone hle
    obtain ⟨hnear, htie⟩ := roundMagRaw_nearest_rat hd ha infMag
    have hupper := le_midpoint_of_abs_sub_le (hle'.trans_lt hlt) hnear
    have hlast : (patMag (roundMagRaw n d) : ℚ) = patMag (infMag - 1) := by linarith
    have hraw : roundMagRaw n d = infMag - 1 := patMag_strictMono.injective (by exact_mod_cast hlast)
    rcases htie (abs_sub_eq_of_midpoint (by linarith)) with hsame | heven
    · rw [hraw] at hsame
      exact absurd (patMag_strictMono.injective hsame) (by decide)
    · rw [hraw] at heven
      exact absurd heven (by decide)

/-! ### The nearest value -/

theorem abs_f64Units (x : F64) : |(f64Units x : ℚ)| = f64Mag x := by
  unfold f64Units
  split <;> simp

theorem units_neg_or_nonneg (x : F64) :
    (f64Sign x = true ∧ (f64Units x : ℚ) = -f64Mag x) ∨ (f64Sign x = false ∧ (f64Units x : ℚ) = f64Mag x) := by
  unfold f64Units
  cases f64Sign x <;> simp

/-- A value with the sign of `v` is as far from `v` as its magnitude is from that of `v`. -/
theorem abs_sub_units_of_sign {v : ℚ} {r : F64} (hsign : v ≠ 0 → (f64Sign r = true ↔ v < 0)) :
    |v - f64Units r| = |(|v|) - f64Mag r| := by
  by_cases hv : v = 0
  · rw [hv, abs_zero, zero_sub, zero_sub, abs_neg, abs_neg, abs_f64Units, Nat.abs_cast]
  · rcases units_neg_or_nonneg r with ⟨hs, hu⟩ | ⟨hs, hu⟩
    · have hneg : v < 0 := (hsign hv).1 hs
      rw [hu, abs_of_neg hneg, ← abs_neg]
      congr 1
      ring
    · have hnonneg : 0 ≤ v := not_lt.1 fun h => by simp [hs] at hsign; exact absurd h (hsign hv).not_gt
      rw [hu, abs_of_nonneg hnonneg]

/-- Any other value is at least as far from `v` as its magnitude is from that of `v`. -/
theorem abs_abs_sub_mag_le (v : ℚ) (g : F64) : |(|v|) - f64Mag g| ≤ |v - f64Units g| := by
  rw [← abs_f64Units]
  exact abs_abs_sub_abs_le v _

/-- Two values of one magnitude at one distance from `v` are the same value, unless `v` is zero. -/
theorem units_eq_of_mag_eq {v : ℚ} {r g : F64} (hmag : f64Mag g = f64Mag r)
    (hdist : |v - f64Units r| = |v - f64Units g|) : f64Units g = f64Units r ∨ v = 0 := by
  have habs : |(f64Units g : ℚ)| = |(f64Units r : ℚ)| := by rw [abs_f64Units, abs_f64Units, hmag]
  rcases abs_eq_abs.1 habs with h | h
  · exact .inl (by exact_mod_cast h)
  · rcases abs_eq_abs.1 hdist with h' | h'
    · exact .inl (by exact_mod_cast (sub_right_injective h').symm)
    · exact .inr (by linarith)

theorem f64Frac_mod_two (x : F64) : f64Frac x % 2 = low63 x % 2 := by
  rw [f64Frac_eq]
  omega

/-- One rounding of the magnitude, with the sign of the exact result, is the rounding R100 asks for. -/
theorem nearestEven_of_roundMag {v : ℚ} {r : F64} {n d : Nat} (hd : 0 < d) (hv : |v| * d = n)
    (hlow : low63 r = roundMag n d) (hsign : v ≠ 0 → (f64Sign r = true ↔ v < 0)) : NearestEven v r := by
  have hinf : f64IsInf r = true ↔ infMag ≤ roundMagRaw n d := by
    rw [f64IsInf_iff, hlow, roundMag_eq]
    omega
  have hthreshold : (0 : ℚ) < (2 ^ 54 - 1) * 2 ^ 2044 := by positivity
  refine ⟨?nan, hinf.trans (infMag_le_roundMagRaw_iff hd hv), fun h => hsign ?sign, fun hfin g hg => ?nearest⟩
  case nan =>
    rw [← Bool.not_eq_true, f64IsNaN_iff, hlow]
    exact (roundMag_le_infMag n d).not_gt
  case sign =>
    have hbig := (infMag_le_roundMagRaw_iff hd hv).1 (hinf.1 h)
    exact abs_pos.1 (hthreshold.trans_le hbig)
  case nearest =>
    have hraw : low63 r = roundMagRaw n d := by
      have := (f64IsFinite_iff r).1 hfin
      rw [hlow, roundMag_eq] at this ⊢
      omega
    obtain ⟨hnear, htie⟩ := roundMagRaw_nearest_rat hd hv (low63 g)
    rw [← hraw, ← f64Mag_eq, ← f64Mag_eq, ← abs_sub_units_of_sign hsign] at hnear htie
    have hfar := abs_abs_sub_mag_le v g
    refine ⟨hnear.trans hfar, fun heq => ?_⟩
    rcases htie (le_antisymm hnear (heq ▸ hfar)) with hmag | heven
    · rcases units_eq_of_mag_eq hmag heq with hsame | rfl
      · exact .inl hsame
      · have hn : n = 0 := by
          rw [abs_zero, zero_mul] at hv
          exact_mod_cast hv.symm
        have hzero : roundMagRaw n d = 0 := roundMagRaw_exact hd (p := 0) (by simp [hn, patMag])
        exact .inr (by rw [f64Frac_mod_two, hraw, hzero])
    · exact .inr (by rwa [f64Frac_mod_two])

/-! ### The four operations -/

theorem f64Sign_f64Sum {a b : F64} (nan : F64) (ha : f64IsFinite a = true) (hb : f64IsFinite b = true)
    (hne : f64Units a + f64Units b ≠ 0) : f64Sign (f64Sum nan a b) = decide (f64Units a + f64Units b < 0) := by
  rw [f64Sum, if_neg (by simp [f64IsInf_of_finite ha]), if_neg (by simp [f64IsInf_of_finite hb]), if_neg hne,
    f64Sign_roundSigned]

theorem nearestEven_f64Sum {a b : F64} (nan : F64) (ha : f64IsFinite a = true) (hb : f64IsFinite b = true) :
    NearestEven ((f64Units a : ℚ) + f64Units b) (f64Sum nan a b) := by
  have hcast : (f64Units a : ℚ) + f64Units b = ((f64Units a + f64Units b : ℤ) : ℚ) := by push_cast; rfl
  refine nearestEven_of_roundMag Nat.one_pos ?_ (low63_f64Sum nan ha hb) fun hne => ?_
  · rw [hcast, Nat.cast_one, mul_one, Nat.cast_natAbs, Int.cast_abs]
  · rw [hcast] at hne ⊢
    rw [f64Sign_f64Sum nan ha hb (by exact_mod_cast hne), decide_eq_true_iff]
    exact_mod_cast Iff.rfl

/-- The sign of a product of values is negative exactly when their signs differ, unless the product is zero. -/
theorem bne_sign_iff {a b : F64} {c : ℚ} (hc : 0 < c) (hne : (f64Units a : ℚ) * f64Units b * c ≠ 0) :
    (f64Sign a != f64Sign b) = true ↔ (f64Units a : ℚ) * f64Units b * c < 0 := by
  have hmag : (0 : ℚ) < f64Mag a * f64Mag b * c := by
    refine lt_of_le_of_ne (by positivity) fun h => hne ?_
    rw [← abs_eq_zero, abs_mul, abs_mul, abs_f64Units, abs_f64Units, abs_of_pos hc, h]
  rcases units_neg_or_nonneg a with ⟨hsa, hua⟩ | ⟨hsa, hua⟩ <;>
    rcases units_neg_or_nonneg b with ⟨hsb, hub⟩ | ⟨hsb, hub⟩ <;>
    simp only [hsa, hsb, hua, hub, neg_mul, mul_neg, neg_neg] <;> simp [hmag, hmag.le]

theorem unitScale_cast : (unitScale : ℚ) = 2 ^ 1074 := by
  rw [unitScale, Nat.cast_pow, Nat.cast_ofNat]

theorem nearestEven_f64Mul {a b : F64} (ha : f64IsFinite a = true) (hb : f64IsFinite b = true) :
    NearestEven ((f64Units a : ℚ) * f64Units b / 2 ^ 1074) (f64Mul a b) := by
  have hscale : (0 : ℚ) < 2 ^ 1074 := by positivity
  rw [f64Mul_of_finite ha hb]
  refine nearestEven_of_roundMag unitScale_pos ?_ (low63_roundSigned _ _ _) fun hne => ?_
  · rw [abs_div, abs_mul, abs_f64Units, abs_f64Units, abs_of_pos hscale, unitScale_cast, div_mul_cancel₀ _ hscale.ne',
      Nat.cast_mul]
  · rw [f64Sign_roundSigned]
    rw [div_eq_mul_inv] at hne ⊢
    exact bne_sign_iff (inv_pos.2 hscale) hne

theorem nearestEven_f64Div {a b : F64} (ha : f64IsFinite a = true) (hb : f64IsFinite b = true) (h0 : f64Units b ≠ 0) :
    NearestEven ((f64Units a : ℚ) * 2 ^ 1074 / f64Units b) (f64Div a b) := by
  have hmag : f64Mag b ≠ 0 := by rwa [← f64Units_natAbs, Int.natAbs_ne_zero]
  have hmagq : (0 : ℚ) < f64Mag b := by exact_mod_cast Nat.pos_of_ne_zero hmag
  have hscale : (0 : ℚ) < 2 ^ 1074 := by positivity
  have hprod : (f64Units a : ℚ) * 2 ^ 1074 / f64Units b =
      f64Units a * f64Units b * (2 ^ 1074 / (f64Mag b * f64Mag b)) := by
    have hb0 : (f64Units b : ℚ) ≠ 0 := by exact_mod_cast h0
    have hsq : (f64Mag b : ℚ) * f64Mag b = f64Units b * f64Units b := by rw [← abs_f64Units, abs_mul_abs_self]
    rw [hsq]
    field_simp
  rw [f64Div_of_finite ha hb hmag]
  refine nearestEven_of_roundMag (Nat.pos_of_ne_zero hmag) ?_ (low63_roundSigned _ _ _) fun hne => ?_
  · rw [abs_div, abs_mul, abs_f64Units, abs_f64Units, abs_of_pos hscale, div_mul_cancel₀ _ hmagq.ne', Nat.cast_mul,
      unitScale_cast]
  · rw [f64Sign_roundSigned]
    rw [hprod] at hne ⊢
    exact bne_sign_iff (by positivity) hne

theorem f64Add_of_finite {a b : F64} (ha : f64IsFinite a = true) (hb : f64IsFinite b = true) :
    f64Add a b = f64Sum (nanOf .add a b) a b := by
  rw [f64Add, if_neg (by simp [f64IsNaN_of_finite, ha, hb])]

theorem f64Sub_of_finite {a b : F64} (ha : f64IsFinite a = true) (hb : f64IsFinite b = true) :
    f64Sub a b = f64Sum (nanOf .sub a b) a (f64Neg b) := by
  rw [f64Sub, if_neg (by simp [f64IsNaN_of_finite, ha, hb])]

/-- Settles O39: a difference is the sum with the other sign, and each exact result is rounded once. -/
theorem arithmeticRoundsToNearestEven : Obligations.ArithmeticRoundsToNearestEven := by
  intro a b ha hb
  simp only [binary64_add, binary64_sub, binary64_mul, binary64_div]
  refine ⟨?_, ?_, nearestEven_f64Mul ha hb, nearestEven_f64Div ha hb⟩
  · rw [f64Add_of_finite ha hb]
    exact nearestEven_f64Sum _ ha hb
  · have hneg := nearestEven_f64Sum (nanOf .sub a b) ha ((f64IsFinite_neg b).trans hb)
    rw [f64Units_neg, Int.cast_neg, ← sub_eq_add_neg] at hneg
    rwa [f64Sub_of_finite ha hb]

/-! ### Conversion and comparison -/

theorem toNat_low63 (x : F64) : (x.extractLsb' 0 63).toNat = low63 x := by
  simp [low63]

theorem f64Order_of_sign {x : F64} (h : f64Sign x = true) : f64Order x = -low63 x := by
  rw [f64Order, if_pos h, toNat_low63]

theorem f64Order_of_nonneg {x : F64} (h : f64Sign x = false) : f64Order x = low63 x := by
  rw [f64Order, if_neg (by simp [h]), toNat_low63]

theorem f64Units_of_sign {x : F64} (h : f64Sign x = true) : f64Units x = -f64Mag x := by
  simp [f64Units, h]

/-- The place in the order grows with the value: on each side of zero the magnitudes grow with their patterns. -/
theorem f64Order_le_iff (a b : F64) : f64Order b ≤ f64Order a ↔ f64Units b ≤ f64Units a := by
  have hmono : ∀ x y : F64, (low63 x : ℤ) ≤ low63 y ↔ (f64Mag x : ℤ) ≤ f64Mag y := fun x y => by
    exact_mod_cast f64Mag_le_iff.symm
  have hzero : ∀ x : F64, low63 x = 0 ↔ f64Mag x = 0 := fun x => by
    rw [f64Mag_eq]
    exact ⟨fun h => by rw [h]; decide, fun h => patMag_strictMono.injective (h.trans (by decide : 0 = patMag 0))⟩
  have hab := hmono a b
  have hba := hmono b a
  have ha := hzero a
  have hb := hzero b
  cases hsa : f64Sign a <;> cases hsb : f64Sign b <;>
    simp only [f64Order_of_sign, f64Order_of_nonneg, f64Units_of_sign, f64Units_of_nonneg, hsa, hsb] <;> omega

theorem f64Ge_iff {a b : F64} (ha : f64IsFinite a = true) (hb : f64IsFinite b = true) :
    f64Ge a b = true ↔ f64Units b ≤ f64Units a := by
  simp [f64Ge, f64IsNaN_of_finite, ha, hb, f64Order_le_iff]

/-- Settles O40: the conversion by the exactness below 2^53, the comparison by the order of the patterns. -/
theorem conversionExactAndOrderOrdered : Obligations.ConversionExactAndOrderOrdered := by
  refine ⟨fun n hn => ⟨f64IsFinite_ofNat hn, ?_⟩, fun a b => f64Ge_iff, fun a b hnan => ?_⟩
  · rw [binary64_ofNat, f64Units_of_nonneg (f64Sign_ofNat n), f64Mag_ofNat hn, unitScale, Nat.cast_mul, Nat.cast_pow,
      Nat.cast_ofNat]
  · rcases hnan with h | h <;> simp [f64Ge, h]

end Sys2Proof.Machine
end

section
/-! The map's values (40_evaluator.md sections 2 and 4): no negative zero (R112), the region of R103 with its open upper
ends, and scaling by 2 before or after the division (R110). -/

namespace Sys2Proof.Machine

/-! ### Differences (R112) -/

theorem f64Sub_of_sum_zero {a b : F64} (ha : f64IsFinite a = true) (hb : f64IsFinite b = true)
    (hz : f64Units a - f64Units b = 0) : f64Sub a b = f64Pack (f64Sign a && !f64Sign b) 0 := by
  have hnb := (f64IsFinite_neg b).trans hb
  rw [f64Sub_of_finite ha hb, f64Sum, if_neg (by simp [f64IsInf_of_finite ha]),
    if_neg (by simp [f64IsInf_of_finite hnb]), f64Units_neg, ← sub_eq_add_neg, if_pos hz, f64Sign_neg]

theorem f64Sign_f64Sub {a b : F64} (ha : f64IsFinite a = true) (hb : f64IsFinite b = true)
    (hne : f64Units a - f64Units b ≠ 0) : f64Sign (f64Sub a b) = decide (f64Units a - f64Units b < 0) := by
  have hnb := (f64IsFinite_neg b).trans hb
  rw [sub_eq_add_neg, ← f64Units_neg] at hne ⊢
  rw [f64Sub_of_finite ha hb, f64Sign_f64Sum _ ha hnb hne]

/-- R112: a difference of equal values is `+0.0`. -/
theorem f64Sub_self {a : F64} (ha : f64IsFinite a = true) : f64Sub a a = 0 := by
  rw [f64Sub_of_sum_zero ha ha (sub_self _), Bool.and_not_self]
  decide

/-- What is taken from a value that is not negative leaves no `-0.0`: an exact zero is `+0.0`, and no other difference
rounds to zero. -/
theorem f64Sub_ne_negZero {a b : F64} (ha : f64IsFinite a = true) (hb : f64IsFinite b = true)
    (hpos : f64Sign a = false) : f64Sub a b ≠ 0x8000000000000000 := by
  by_cases hz : f64Units a - f64Units b = 0
  · rw [f64Sub_of_sum_zero ha hb hz, hpos, Bool.false_and]
    decide
  · intro h
    have hlow : 1 ≤ low63 (f64Sub a b) := by
      rw [low63_f64Sub ha hb]
      refine le_roundMag Nat.one_pos (by decide) ?_
      have hone : patMag 1 = 1 := by decide
      rw [hone]
      omega
    rw [h] at hlow
    exact absurd hlow (by decide)

/-- A difference does not pass a representable upper bound. -/
theorem f64Units_f64Sub_le {a b c : F64} (ha : f64IsFinite a = true) (hb : f64IsFinite b = true)
    (h : f64Units a - f64Units b ≤ f64Mag c) : f64Units (f64Sub a b) ≤ f64Mag c := by
  by_cases hneg : f64Units a - f64Units b < 0
  · have hsign : f64Sign (f64Sub a b) = true := by rw [f64Sign_f64Sub ha hb hneg.ne, decide_eq_true hneg]
    rw [f64Units_of_sign hsign]
    omega
  · have hlow : low63 (f64Sub a b) ≤ low63 c := by
      rw [low63_f64Sub ha hb]
      exact roundMag_le_low63 Nat.one_pos (by omega)
    have hmag := f64Mag_le_iff.2 hlow
    have := f64Units_natAbs (f64Sub a b)
    omega

/-! ### The coordinates (R103) -/

/-- The largest value below 2.0 that a quotient `2·x/size` can round to, `2 - 2⁻¹⁵`. -/
def quotientBound : F64 := 0x3FFFFFE000000000

theorem f64Mag_quotientBound : 2 ^ 15 * f64Mag quotientBound = 65535 * unitScale := by decide +kernel

/-- The quotient of a coordinate is not negative and stays below 2.0. -/
theorem quotient_absLe {x size : Nat} (hx : x < size) (hsize : size ≤ 65535) :
    f64AbsLe (f64Div (f64OfNat (2 * x)) (f64OfNat size)) quotientBound ∧
      f64Sign (f64Div (f64OfNat (2 * x)) (f64OfNat size)) = false := by
  refine f64Div_ofNat_le (by omega) (by omega) (by omega) (by decide +kernel) ?_
  have hscaled : 2 ^ 15 * (2 * x * unitScale) ≤ 2 ^ 15 * (f64Mag quotientBound * size) := by
    calc 2 ^ 15 * (2 * x * unitScale) = 65536 * x * unitScale := by ring
      _ ≤ 65535 * size * unitScale := Nat.mul_le_mul_right _ (by omega)
      _ = 2 ^ 15 * f64Mag quotientBound * size := by rw [f64Mag_quotientBound]; ring
      _ = 2 ^ 15 * (f64Mag quotientBound * size) := Nat.mul_assoc _ _ _
  exact Nat.le_of_mul_le_mul_left hscaled (by decide)

/-- A value within a bound is not below the bound's negative. -/
theorem f64Ge_neg_of_absLe {v b : F64} (hb : f64IsFinite b = true) (hpos : f64Sign b = false) (h : f64AbsLe v b) :
    f64Ge v (f64Neg b) = true := by
  have hmag := h.mag_le
  have hunits := f64Units_natAbs v
  rw [f64Ge_iff h.1 ((f64IsFinite_neg b).trans hb), f64Units_neg, f64Units_of_nonneg hpos]
  omega

/-- A coordinate stays below `hi` if the offset leaves at most `top`, a representable value below `hi`, of the quotient's
bound. -/
theorem f64Ge_coordinate_eq_false {x size : Nat} {off hi top : F64} (hx : x < size) (hsize : size ≤ 65535)
    (hoff : f64IsFinite off = true) (hpos : f64Sign off = false) (hhi : f64IsFinite hi = true)
    (htop : (f64Mag top : ℤ) < f64Units hi) (hsum : f64Mag quotientBound ≤ f64Mag off + f64Mag top)
    (hfin : f64IsFinite (f64Sub (f64Div (f64OfNat (2 * x)) (f64OfNat size)) off) = true) :
    f64Ge (f64Sub (f64Div (f64OfNat (2 * x)) (f64OfNat size)) off) hi = false := by
  obtain ⟨hq, hsign⟩ := quotient_absLe hx hsize
  have hqmag := hq.mag_le
  rw [← Bool.not_eq_true, f64Ge_iff hfin hhi, not_le]
  refine lt_of_le_of_lt (f64Units_f64Sub_le hq.1 hoff ?_) htop
  rw [f64Units_of_nonneg hsign, f64Units_of_nonneg hpos]
  omega

/-- Settles O41: both coordinates take an offset from a quotient that is not negative. -/
theorem mapNeverGivesNegativeZero : Obligations.MapNeverGivesNegativeZero := by
  refine ⟨fun a => f64Sub_self, fun x y size hx hy hsize => ?_⟩
  obtain ⟨hre, hsre⟩ := quotient_absLe hx hsize
  obtain ⟨him, hsim⟩ := quotient_absLe hy hsize
  simp only [mapC_eq, binary64_ofNat, binary64_div, binary64_sub]
  exact ⟨f64Sub_ne_negZero hre.1 f64IsFinite_reOff hsre, f64Sub_ne_negZero him.1 f64IsFinite_imOff hsim⟩

/-- Settles O42: the lower ends are the negated offsets; the tops are `0.5 - 2⁻¹⁵` and `1.0 - 2⁻¹⁵`, what the offsets
leave of `2 - 2⁻¹⁵`. -/
theorem mapStaysInRegion : Obligations.MapStaysInRegion := by
  intro x y size hx hy hsize
  obtain ⟨hre, him⟩ := mapC_absLe hx hy hsize
  have hlowRe : (0xBFF8000000000000 : F64) = f64Neg Config.reOff := by decide
  have hlowIm : (0xBFF0000000000000 : F64) = f64Neg Config.imOff := by decide
  refine ⟨hre.1, him.1, ?_, ?_, ?_, ?_⟩ <;> rw [binary64_ge]
  · rw [hlowRe]
    exact f64Ge_neg_of_absLe f64IsFinite_reOff f64Sign_reOff hre
  · exact f64Ge_coordinate_eq_false (top := 0x3FDFFF8000000000) hx hsize f64IsFinite_reOff f64Sign_reOff
      (by decide +kernel) (by decide +kernel) (by decide +kernel) hre.1
  · rw [hlowIm]
    exact f64Ge_neg_of_absLe f64IsFinite_imOff f64Sign_imOff him
  · exact f64Ge_coordinate_eq_false (top := 0x3FEFFFC000000000) hy hsize f64IsFinite_imOff f64Sign_imOff
      (by decide +kernel) (by decide +kernel) (by decide +kernel) him.1

/-! ### Scaling by 2 (R110) -/

/-- In the normal range the next exponent is twice the magnitude. -/
theorem patMag_add_binade {p : Nat} (hp : 2 ^ 52 ≤ p) : patMag (p + 2 ^ 52) = 2 * patMag p := by
  have hdiv : (p + 2 ^ 52) / 2 ^ 52 = p / 2 ^ 52 + 1 := by omega
  have hmod : (p + 2 ^ 52) % 2 ^ 52 = p % 2 ^ 52 := by omega
  obtain ⟨e, he⟩ : ∃ e, p / 2 ^ 52 = e + 1 := ⟨p / 2 ^ 52 - 1, by omega⟩
  rw [patMag, patMag, hdiv, hmod, he, if_neg (by omega), if_neg (by omega), Nat.add_sub_cancel, Nat.add_sub_cancel,
    pow_succ]
  ring

theorem roundDiv_mul_mul_left {c : Nat} (n d : Nat) (hc : 0 < c) : roundDiv (c * n) (c * d) = roundDiv n d := by
  have hgt : 2 * (c * (n % d)) > c * d ↔ 2 * (n % d) > d := by
    rw [Nat.mul_left_comm, gt_iff_lt, Nat.mul_lt_mul_left hc]
  have heq : 2 * (c * (n % d)) = c * d ↔ 2 * (n % d) = d := by
    rw [Nat.mul_left_comm, Nat.mul_right_inj hc.ne']
  simp only [roundDiv, Nat.mul_div_mul_left n d hc, Nat.mul_mod_mul_left, hgt, heq]

/-- From the binade of one unit on, twice a magnitude is one exponent up. -/
theorem ulpExp_succ {q r : Nat} (hq : 2 ^ 52 ≤ q) (hr : r / 2 = q) : ulpExp r = ulpExp q + 1 := by
  have hlog : Nat.log2 r = Nat.log2 q + 1 := by rw [Nat.log2_def, if_pos (by omega), hr]
  have h52 : 52 ≤ Nat.log2 q := (Nat.le_log2 (by omega)).2 hq
  unfold ulpExp
  rw [if_neg (by omega), hlog]
  split
  · have : Nat.log2 q < 53 := (Nat.log2_lt (by omega)).2 ‹_›
    omega
  · omega

theorem roundMagRaw_double {n d : Nat} (hd : 0 < d) (h : 2 ^ 52 * d ≤ n) :
    roundMagRaw (2 * n) d = roundMagRaw n d + 2 ^ 52 := by
  have hq : 2 ^ 52 ≤ n / d := (Nat.le_div_iff_mul_le hd).2 h
  have hhalf : 2 * n / d / 2 = n / d := by
    rw [Nat.div_div_eq_div_mul, Nat.mul_comm d 2, Nat.mul_div_mul_left _ _ (by decide)]
  have hstep : d * 2 ^ (ulpExp (n / d) + 1) = 2 * (d * 2 ^ ulpExp (n / d)) := by
    rw [pow_succ]
    ring
  rw [roundMagRaw, roundMagRaw, ulpExp_succ hq hhalf, hstep, roundDiv_mul_mul_left _ _ (by decide)]
  ring

theorem le_roundMagRaw_of_normal {n d : Nat} (hd : 0 < d) (h : 2 ^ 52 * d ≤ n) : 2 ^ 52 ≤ roundMagRaw n d :=
  le_roundMagRaw hd (by rwa [show patMag (2 ^ 52) = 2 ^ 52 by decide])

/-- The pattern of a quotient of whole numbers, as long as it is finite. -/
theorem low63_f64Div_ofNat {n d : Nat} (hn : n < 2 ^ 53) (hd0 : 0 < d) (hd : d < 2 ^ 53)
    (hfin : f64IsFinite (f64Div (f64OfNat n) (f64OfNat d)) = true) :
    low63 (f64Div (f64OfNat n) (f64OfNat d)) = roundMagRaw (n * unitScale * unitScale) (d * unitScale) := by
  rw [f64IsFinite_iff] at hfin
  rw [f64Div_of_finite (f64IsFinite_ofNat hn) (f64IsFinite_ofNat hd) (f64Mag_ofNat_ne_zero hd0 hd), low63_roundSigned,
    f64Mag_ofNat hn, f64Mag_ofNat hd, roundMag_eq] at hfin ⊢
  omega

/-- A quotient of the map's range is finite and not negative. -/
theorem f64Div_ofNat_finite {n d : Nat} (hn : n ≤ 131070) (hd0 : 0 < d) (hd : d ≤ 65535) :
    f64IsFinite (f64Div (f64OfNat n) (f64OfNat d)) = true ∧ f64Sign (f64Div (f64OfNat n) (f64OfNat d)) = false := by
  have hbound : f64Mag 0x4100000000000000 = 131072 * unitScale := by decide +kernel
  obtain ⟨habs, hsign⟩ := f64Div_ofNat_le (n := n) (d := d) (b := 0x4100000000000000) (by omega) hd0 (by omega)
    (by decide +kernel) (by
      calc n * unitScale ≤ 131072 * d * unitScale := Nat.mul_le_mul_right _ (by omega)
        _ = f64Mag 0x4100000000000000 * d := by rw [hbound]; ring)
  exact ⟨habs.1, hsign⟩

/-- A value is determined by its sign and its pattern. -/
theorem f64_ext {a b : F64} (hsign : f64Sign a = f64Sign b) (hlow : low63 a = low63 b) : a = b := by
  rw [← f64Pack_self a, ← f64Pack_self b, hsign, hlow]

/-- Twice a normal value that stays finite is exact: one exponent up. -/
theorem low63_two_mul {q : F64} (hq : f64IsFinite q = true) (hnormal : 2 ^ 52 ≤ low63 q)
    (hfit : low63 q + 2 ^ 52 ≤ infMag) : low63 (f64Mul 0x4000000000000000 q) = low63 q + 2 ^ 52 := by
  have htwo : f64Mag 0x4000000000000000 = 2 * unitScale := by decide +kernel
  rw [f64Mul_of_finite (by decide +kernel) hq, low63_roundSigned]
  refine roundMag_exact unitScale_pos hfit ?_
  rw [patMag_add_binade hnormal, htwo, f64Mag_eq]
  ring

theorem two_pow_le_unitScale : 2 ^ 52 * 65535 ≤ unitScale := by decide +kernel

theorem f64Div_zero_ofNat {d : Nat} (hd0 : 0 < d) (hd : d < 2 ^ 53) : f64Div (f64OfNat 0) (f64OfNat d) = 0 :=
  f64Div_ofNat_exact (by decide) hd0 hd (by decide) (by decide) (by
    have hzero : f64Mag 0 = 0 := by decide
    rw [hzero, Nat.zero_mul, Nat.zero_mul])

/-- Settles O43: a quotient that is not zero is normal, so doubling adds one to its exponent, before or after the
rounding. -/
theorem scalingCommutesWithDivision : Obligations.ScalingCommutesWithDivision := by
  intro x size hx hsize0 hsize
  simp only [binary64_ofNat, binary64_div, binary64_mul]
  obtain rfl | hx0 := Nat.eq_zero_or_pos x
  · rw [Nat.mul_zero, f64Div_zero_ofNat hsize0 (by omega)]
    decide +kernel
  · obtain ⟨hfin, hsign⟩ := f64Div_ofNat_finite (n := x) (by omega) hsize0 hsize
    obtain ⟨hfin2, hsign2⟩ := f64Div_ofNat_finite (n := 2 * x) (by omega) hsize0 hsize
    have hd : 0 < size * unitScale := Nat.mul_pos hsize0 unitScale_pos
    have hnormal : 2 ^ 52 * (size * unitScale) ≤ x * unitScale * unitScale := by
      calc 2 ^ 52 * (size * unitScale) = 2 ^ 52 * size * unitScale := by ring
        _ ≤ 1 * unitScale * unitScale := by
          refine Nat.mul_le_mul_right _ (le_trans ?_ (two_pow_le_unitScale.trans_eq (Nat.one_mul _).symm))
          exact Nat.mul_le_mul_left _ hsize
        _ ≤ x * unitScale * unitScale := Nat.mul_le_mul_right _ (Nat.mul_le_mul_right _ hx0)
    have hlow := low63_f64Div_ofNat (n := x) (by omega) hsize0 (by omega) hfin
    have hlow2 := low63_f64Div_ofNat (n := 2 * x) (by omega) hsize0 (by omega) hfin2
    rw [Nat.mul_assoc 2, Nat.mul_assoc 2, roundMagRaw_double hd hnormal, ← hlow] at hlow2
    have hnormal' : 2 ^ 52 ≤ low63 (f64Div (f64OfNat x) (f64OfNat size)) :=
      hlow ▸ le_roundMagRaw_of_normal hd hnormal
    have hfit := hlow2 ▸ ((f64IsFinite_iff _).1 hfin2).le
    refine f64_ext ?_ (hlow2.trans (low63_two_mul hfin hnormal' hfit).symm)
    rw [hsign2, f64Mul_of_finite (by decide +kernel) hfin, f64Sign_roundSigned, hsign]
    decide

end Sys2Proof.Machine
end

section
/-! R48 and R108: an iterate that has not escaped is within 2.0, so every value the next iteration computes is finite, and
the bounds of the evaluator's values are kept by every event. -/

namespace Sys2Proof.Machine

/-! ### Bounds that survive the rounding -/

theorem f64AbsLe.trans {v b c : F64} (h : f64AbsLe v b) (hbc : f64Mag b ≤ f64Mag c) : f64AbsLe v c :=
  ⟨h.1, by simpa using h.mag_le.trans hbc⟩

/-- A product's bound is the product of the bounds. -/
theorem f64AbsLe.mul {v w b b' c : F64} (hc : f64IsFinite c = true)
    (hbc : f64Mag b * f64Mag b' ≤ f64Mag c * unitScale) (hv : f64AbsLe v b) (hw : f64AbsLe w b') :
    f64AbsLe (f64Mul v w) c :=
  f64AbsLe_mul hv.1 hw.1 hc ((Nat.mul_le_mul hv.mag_le hw.mag_le).trans hbc)

/-- A difference's bound is the sum of the bounds. -/
theorem f64AbsLe.sub {v w b b' c : F64} (hc : f64IsFinite c = true) (hbc : f64Mag b + f64Mag b' ≤ f64Mag c)
    (hv : f64AbsLe v b) (hw : f64AbsLe w b') : f64AbsLe (f64Sub v w) c :=
  f64AbsLe_sub hv.1 hw.1 hc (by
    have hv' := hv.2
    have hw' := hw.2
    rw [f64Units_natAbs b, f64Units_natAbs b'] at *
    omega)

/-! ### The escape test (R105) -/

theorem f64IsNaN_of_low63_le {x : F64} (h : low63 x ≤ infMag) : f64IsNaN x = false := by
  rw [← Bool.not_eq_true, f64IsNaN_iff]
  exact h.not_gt

theorem low63_le_of_not_nan {x : F64} (h : f64IsNaN x = false) : low63 x ≤ infMag := by
  rw [← Bool.not_eq_true, f64IsNaN_iff] at h
  exact not_lt.1 h

/-- A sum of two values that are not negative is not negative, no NaN, and not below either of them. -/
theorem f64Add_of_nonneg {a b : F64} (ha : f64IsNaN a = false) (hb : f64IsNaN b = false) (hsa : f64Sign a = false)
    (hsb : f64Sign b = false) :
    f64Sign (f64Add a b) = false ∧ low63 a ≤ low63 (f64Add a b) ∧ low63 b ≤ low63 (f64Add a b) ∧
      low63 (f64Add a b) ≤ infMag := by
  have hla := low63_le_of_not_nan ha
  have hlb := low63_le_of_not_nan hb
  by_cases hia : f64IsInf a = true
  · have hsum : f64Add a b = a := by simp [f64Add, f64Sum, ha, hb, hia, hsa, hsb]
    rw [hsum]
    exact ⟨hsa, le_rfl, ((f64IsInf_iff a).1 hia).symm ▸ hlb, hla⟩
  · by_cases hib : f64IsInf b = true
    · have hsum : f64Add a b = b := by simp [f64Add, f64Sum, ha, hb, hia, hib]
      rw [hsum]
      exact ⟨hsb, ((f64IsInf_iff b).1 hib).symm ▸ hla, le_rfl, hlb⟩
    · have hfa : f64IsFinite a = true := (f64IsFinite_iff a).2 (hla.lt_of_ne fun h => hia ((f64IsInf_iff a).2 h))
      have hfb : f64IsFinite b = true := (f64IsFinite_iff b).2 (hlb.lt_of_ne fun h => hib ((f64IsInf_iff b).2 h))
      have hunits : f64Units a + f64Units b = (f64Mag a + f64Mag b : Nat) := by
        rw [f64Units_of_nonneg hsa, f64Units_of_nonneg hsb, Nat.cast_add]
      have hlow : low63 (f64Add a b) = roundMag (f64Mag a + f64Mag b) 1 := by
        rw [low63_f64Add hfa hfb, hunits, Int.natAbs_natCast]
      have hsign : f64Sign (f64Add a b) = false := by
        by_cases hz : f64Units a + f64Units b = 0
        · rw [f64Add_of_finite hfa hfb, f64Sum, if_neg (by simp [hia]), if_neg (by simp [hib]), if_pos hz, hsa, hsb]
          decide
        · rw [f64Add_of_finite hfa hfb, f64Sign_f64Sum _ hfa hfb hz, decide_eq_false]
          omega
      rw [hlow]
      exact ⟨hsign, le_roundMag Nat.one_pos hla (by rw [← f64Mag_eq]; omega),
        le_roundMag Nat.one_pos hlb (by rw [← f64Mag_eq]; omega), roundMag_le_infMag _ _⟩

/-- A square is not negative, and it stays below 4.0 only where the value does below 2.0. -/
theorem f64Mul_self_spec {v : F64} (hv : f64IsFinite v = true) :
    f64Sign (f64Mul v v) = false ∧ low63 (f64Mul v v) ≤ infMag ∧
      (low63 (f64Mul v v) < low63 Config.escR2 → f64AbsLe v 0x4000000000000000) := by
  have htwo : f64Mag 0x4000000000000000 = 2 * unitScale := by decide +kernel
  have hfour : f64Mag Config.escR2 = 4 * unitScale := by decide +kernel
  have hfin : low63 Config.escR2 ≤ infMag := by decide +kernel
  rw [f64Mul_of_finite hv hv, bne_self_eq_false, f64Sign_roundSigned, low63_roundSigned]
  refine ⟨rfl, roundMag_le_infMag _ _, fun hlt => ⟨hv, ?_⟩⟩
  rw [f64Units_natAbs, f64Units_natAbs, htwo]
  by_contra hbig
  refine hlt.not_ge (le_roundMag unitScale_pos hfin ?_)
  rw [← f64Mag_eq, hfour]
  calc 4 * unitScale * unitScale = 2 * unitScale * (2 * unitScale) := by ring
    _ ≤ f64Mag v * f64Mag v := Nat.mul_le_mul (not_le.1 hbig).le (not_le.1 hbig).le

/-- R105: a finite `z` that has not escaped has both parts within 2.0. -/
theorem absLe_of_not_escaped {z : F64 × F64} (hre : f64IsFinite z.1 = true) (him : f64IsFinite z.2 = true)
    (hesc : escaped binary64 z = false) :
    f64AbsLe z.1 0x4000000000000000 ∧ f64AbsLe z.2 0x4000000000000000 := by
  obtain ⟨hsre, hlre, hre2⟩ := f64Mul_self_spec hre
  obtain ⟨hsim, hlim, him2⟩ := f64Mul_self_spec him
  obtain ⟨hsum, hgere, hgeim, hinf⟩ :=
    f64Add_of_nonneg (f64IsNaN_of_low63_le hlre) (f64IsNaN_of_low63_le hlim) hsre hsim
  have hfour : f64IsNaN Config.escR2 = false := by decide +kernel
  have hfour' : f64Sign Config.escR2 = false := by decide +kernel
  have hlt : low63 (f64Add (f64Mul z.1 z.1) (f64Mul z.2 z.2)) < low63 Config.escR2 := by
    rw [escaped_eq, binary64_ge, binary64_add, binary64_mul, binary64_mul, f64Ge, f64IsNaN_of_low63_le hinf, hfour,
      f64Order_of_nonneg hsum, f64Order_of_nonneg hfour'] at hesc
    simpa using hesc
  exact ⟨hre2 (hgere.trans_lt hlt), him2 (hgeim.trans_lt hlt)⟩

/-! ### One iteration (R104) -/

/-- Products of values within 2.0 are within 4.0. -/
theorem f64Mul_absLe_four {v w : F64} (hv : f64AbsLe v 0x4000000000000000) (hw : f64AbsLe w 0x4000000000000000) :
    f64AbsLe (f64Mul v w) 0x4010000000000000 := hv.mul (by decide +kernel) (by decide +kernel) hw

/-- From `z` within 2.0 and `c` within the map's region, each value of the iteration has a bound that is representable. -/
theorem iteration_absLe {zr zi cr ci : F64} (hzr : f64AbsLe zr 0x4000000000000000)
    (hzi : f64AbsLe zi 0x4000000000000000) (hcr : f64AbsLe cr Config.reOff) (hci : f64AbsLe ci Config.imOff) :
    f64AbsLe (f64Sub (f64Mul zr zr) (f64Mul zi zi)) 0x4020000000000000 ∧
    f64AbsLe (f64Add (f64Mul zr zi) (f64Mul zr zi)) 0x4020000000000000 ∧
    f64AbsLe (f64Add (f64Sub (f64Mul zr zr) (f64Mul zi zi)) cr) 0x4030000000000000 ∧
    f64AbsLe (f64Add (f64Add (f64Mul zr zi) (f64Mul zr zi)) ci) 0x4030000000000000 := by
  have hsub : f64AbsLe (f64Sub (f64Mul zr zr) (f64Mul zi zi)) 0x4020000000000000 :=
    (f64Mul_absLe_four hzr hzr).sub (by decide +kernel) (by decide +kernel) (f64Mul_absLe_four hzi hzi)
  have hadd : f64AbsLe (f64Add (f64Mul zr zi) (f64Mul zr zi)) 0x4020000000000000 :=
    (f64Mul_absLe_four hzr hzi).add (by decide +kernel) (by decide +kernel) (f64Mul_absLe_four hzr hzi)
  exact ⟨hsub, hadd, hsub.add (by decide +kernel) (by decide +kernel) hcr,
    hadd.add (by decide +kernel) (by decide +kernel) hci⟩

/-- The bounds on `Z` that R48 gives a state about to iterate. -/
theorem State.FloatsBounded.z_absLe {s : State} (h : s.FloatsBounded) (ha : s.active = true)
    (hseq : s.seq = Seq.iterate) :
    f64AbsLe s.zRe 0x4000000000000000 ∧ f64AbsLe s.zIm 0x4000000000000000 := by
  obtain ⟨-, -, hre, him, hfirst, hlater⟩ := h ha hseq
  by_cases hiter : s.iter = 0
  · obtain ⟨hzre, hzim⟩ := hfirst hiter
    rw [hzre, hzim]
    have hzero : f64AbsLe Config.zero 0x4000000000000000 := by unfold f64AbsLe; decide +kernel
    exact ⟨hzero, hzero⟩
  · have hpos : s.iter.toNat ≠ 0 := BitVec.toNat_ne_iff_ne.2 hiter
    exact absLe_of_not_escaped (z := (s.zRe, s.zIm)) hre him (hlater (by omega))

/-- Settles O45: products of values within 2.0 are within 4.0, sums and the test of the new `z` within 512.0. -/
theorem iterateComputesFiniteValues : Obligations.IterateComputesFiniteValues := by
  intro s ha hseq hb
  obtain ⟨hcre, hcim, -⟩ := hb ha hseq
  obtain ⟨hzre, hzim⟩ := hb.z_absLe ha hseq
  obtain ⟨hsub, hadd, hzr, hzi⟩ := iteration_absLe hzre hzim hcre hcim
  have hsquare : ∀ {v : F64}, f64AbsLe v 0x4030000000000000 → f64AbsLe (f64Mul v v) 0x4070000000000000 :=
    fun hv => hv.mul_self (by decide +kernel) (by decide +kernel)
  have htest := (hsquare hzr).add (c := 0x4080000000000000) (by decide +kernel) (by decide +kernel) (hsquare hzi)
  simp only [binary64_mul, binary64_sub, binary64_add, List.forall_mem_cons]
  exact ⟨(f64Mul_absLe_four hzre hzre).1, (f64Mul_absLe_four hzim hzim).1, (f64Mul_absLe_four hzre hzim).1, hsub.1,
    hadd.1, hzr.1, hzi.1, (hsquare hzr).1, (hsquare hzi).1, htest.1, by simp⟩

/-! ### What a command does to a run -/

/-- The commands by what they do to a run: nothing, a new `SIZE` between runs, a start between runs, and in an active run a
change of phase and `SPEND`. -/
theorem commandEffect_cases {s : State} {i : Instr} (hi : i.space = .command)
    (hl : legal s i = true) :
    commandEffect i s = s ∨
    (s.noRun = true ∧ ∃ n, commandEffect i s = { s with size := n }) ∨
    (s.noRun = true ∧ ∃ p, (p = Phase.run ∨ p = Phase.halt) ∧ commandEffect i s = s.beginRun p) ∨
    (s.active = true ∧ ∃ p sp, (p = Phase.run ∨ p = Phase.halt) ∧
      commandEffect i s = { s with phase := p, spend := sp }) := by
  cases i with
  | nop => exact .inl rfl
  | setsize n => exact .inr (.inl ⟨hl, n, rfl⟩)
  | start => exact .inr (.inr (.inl ⟨hl, Phase.run, .inl rfl, rfl⟩))
  | startstep => exact .inr (.inr (.inl ⟨hl, Phase.halt, .inr rfl, rfl⟩))
  | step =>
    have hhalt : s.phase = Phase.halt ∧ s.spend = false := by simpa [legal] using hl
    refine .inr (.inr (.inr ⟨(s.active_iff).2 (.inr hhalt.1), s.phase, true, .inr hhalt.1, rfl⟩))
  | pause =>
    have hrun : s.phase = Phase.run := by simpa [legal] using hl
    exact .inr (.inr (.inr ⟨(s.active_iff).2 (.inl hrun), Phase.halt, false, .inr rfl, rfl⟩))
  | resume =>
    have hhalt : s.phase = Phase.halt := by simpa [legal] using hl
    exact .inr (.inr (.inr ⟨(s.active_iff).2 (.inr hhalt), Phase.run, false, .inl rfl, rfl⟩))
  | hdr | map | iterate | push | rowend => exact absurd hi (by decide)

end Sys2Proof.Machine
end

section
/-! The invariants of 10_state.md section 3 (R22, R25, R30, R47, R49, R50), one kind of step at a time. Where an active run
stands in the image is put into two forms that the micro-steps take to each other: within the header, and at a column of a
row, the row's end being the column `SIZE`. -/

namespace Sys2Proof.Machine

/-! ### The kinds of step, by what they do to a run -/

/-- One step leaves the run as it is, writes `SIZE` between runs, starts a run, changes the phase of an active run, performs
the enabled micro-step that `SEQ` names, or resets. -/
theorem step_run_cases {s t : State} (hs : step s = .next t) :
    (∃ c r es rs, t = s.around c r es rs) ∨
    (s.active = false ∧ ∃ n, t = { s.takeTurn with size := n }) ∨
    (s.noRun = true ∧ ∃ p, (p = Phase.run ∨ p = Phase.halt) ∧ t = s.takeTurn.beginRun p) ∨
    (s.active = true ∧ ∃ p sp, (p = Phase.run ∨ p = Phase.halt) ∧ t = { s.takeTurn with phase := p, spend := sp }) ∨
    (∃ i, decodeSeq s.seq = .ok i ∧ s.enabled = true ∧ t = s.takeTurn.endMicro (microEffect i s.takeTurn)) ∨
    t = s.takeTurn.applyReset := by
  obtain h | ⟨w, i, -, hi, hl, rfl⟩ | ⟨-, h⟩ | ⟨-, h⟩ := step_cases hs
  · exact .inl h
  · obtain h | ⟨hn, h⟩ | ⟨hn, h⟩ | ⟨ha, h⟩ :=
      commandEffect_cases (s := s.takeTurn) (decodeCommand_space hi) ((legal_withEvents s _ i).trans hl)
    · exact .inl ⟨_, _, _, _, h⟩
    · exact .inr (.inl ⟨State.not_active_of_noRun hn, h⟩)
    · exact .inr (.inr (.inl ⟨hn, h⟩))
    · exact .inr (.inr (.inr (.inl ⟨ha, h⟩)))
  · exact .inr (.inr (.inr (.inr (.inl h))))
  · exact .inr (.inr (.inr (.inr (.inr h))))

/-! ### The packer's mask (R47) -/

theorem toNat_shiftRight_bitInit {k : Nat} (hk : k < 8) : ((128 : Byte) >>> k).toNat = 2 ^ (7 - k) := by
  interval_cases k <;> rfl

theorem shiftRight_bitInit_mem {k : Nat} (hk : k < 8) :
    (128 : Byte) >>> k ∈ ([128, 64, 32, 16, 8, 4, 2, 1] : List Byte) := by
  interval_cases k <;> decide

theorem shiftRight_bitInit_eq_one_iff {k : Nat} (hk : k < 8) : (128 : Byte) >>> k = 1 ↔ k = 7 := by
  interval_cases k <;> decide

theorem shiftRight_bitInit_eq_bitInit_iff {k : Nat} (hk : k < 8) : (128 : Byte) >>> k = 128 ↔ k = 0 := by
  interval_cases k <;> decide

/-- R47: no bit of the accumulator at or below `BIT` is set. -/
def AccClear (acc bit : Byte) : Prop := acc.toNat &&& (2 * bit.toNat - 1) = 0

theorem accClear_zero (bit : Byte) : AccClear 0 bit := Nat.zero_and _

/-- With `BIT` at place `7 - k` the clear bits are the `8 - k` lowest. -/
theorem accClear_iff {acc : Byte} {k : Nat} (hk : k < 8) :
    AccClear acc ((128 : Byte) >>> k) ↔ acc.toNat % 2 ^ (8 - k) = 0 := by
  have hmask : 2 * 2 ^ (7 - k) = 2 ^ (8 - k) := by rw [← pow_succ', show 7 - k + 1 = 8 - k by omega]
  rw [AccClear, toNat_shiftRight_bitInit hk, hmask, Nat.and_two_pow_sub_one_eq_mod]

/-- R134: a pixel's bit goes to the place of `BIT`, and the places below it stay clear. -/
theorem accClear_pushedAcc {s : State} {k : Nat} (hk : k < 7) (hbit : s.bit = (128 : Byte) >>> k)
    (hacc : AccClear s.byteAcc s.bit) : AccClear (pushedAcc s) ((128 : Byte) >>> (k + 1)) := by
  rw [hbit, accClear_iff (by omega)] at hacc
  have hdvd : 2 ^ (8 - (k + 1)) ∣ 2 ^ (8 - k) := Nat.pow_dvd_pow 2 (by omega)
  have hkeep : s.byteAcc.toNat % 2 ^ (8 - (k + 1)) = 0 :=
    Nat.mod_eq_zero_of_dvd (hdvd.trans (Nat.dvd_of_mod_eq_zero hacc))
  rw [accClear_iff (by omega), pushedAcc]
  split
  · rw [BitVec.toNat_or, hbit, toNat_shiftRight_bitInit (by omega), Nat.or_mod_two_pow, hkeep,
      show 8 - (k + 1) = 7 - k by omega, Nat.mod_self, Nat.or_zero]
  · exact hkeep

/-! ### Where a run stands -/

/-- R22, R47 and R49 together: position, packer and output count. -/
def State.Placed (s : State) : Prop := s.PositionOk ∧ s.PackerOk ∧ s.CountOk

/-- Within the header. -/
structure State.AtHeader (s : State) : Prop where
  size_pos : 0 < s.size.toNat
  x_eq : s.x = 0
  y_eq : s.y = 0
  hidx_lt : s.hidx.toNat < (headerBytes s.size).length
  bit_eq : s.bit = 128
  acc_clear : AccClear s.byteAcc s.bit
  outcnt_eq : s.outcnt.toNat = s.hidx.toNat

/-- Past the header, with the columns below `X` of row `Y` packed. -/
structure State.AtColumn (s : State) : Prop where
  y_lt : s.y.toNat < s.size.toNat
  hidx_eq : s.hidx.toNat = (headerBytes s.size).length
  bit_eq : s.bit = (128 : Byte) >>> (s.x.toNat % 8)
  acc_clear : AccClear s.byteAcc s.bit
  outcnt_eq :
    s.outcnt.toNat = (headerBytes s.size).length + s.y.toNat * rowLength s.size + s.x.toNat / 8

theorem placed_of_header {s : State} (ha : s.active = true) (hseq : s.seq = Seq.hdr) : s.Placed ↔ s.AtHeader := by
  constructor
  · rintro ⟨hpos, ⟨-, hacc, hbit, -⟩, hcount⟩
    obtain ⟨hy, hhdr, -⟩ := hpos ha
    obtain ⟨hx0, hy0, hidx⟩ := hhdr hseq
    exact ⟨by omega, hx0, hy0, hidx, hbit ha hseq, hacc, (hcount ha).1 hseq⟩
  · rintro ⟨hsize, hx0, hy0, hidx, hbit, hacc, hcount⟩
    refine ⟨fun _ => ⟨by simpa [hy0] using hsize, fun _ => ⟨hx0, hy0, hidx⟩, ?_, ?_, ?_⟩,
      ⟨by simp [hbit], hacc, fun _ _ => hbit, ?_, ?_, by simp [ha]⟩, fun _ => ⟨fun _ => hcount, ?_, ?_⟩⟩ <;>
      simp [State.OnPixel, hseq]

theorem not_hdr_of_onPixel {s : State} (h : s.OnPixel) : s.seq ≠ Seq.hdr ∧ s.seq ≠ Seq.rowend := by
  rcases h with h | h | h <;> simp [h]

theorem placed_of_onPixel {s : State} (ha : s.active = true) (hseq : s.OnPixel) :
    s.Placed ↔ s.AtColumn ∧ s.x.toNat < s.size.toNat := by
  obtain ⟨hhdr, hrow⟩ := not_hdr_of_onPixel hseq
  constructor
  · rintro ⟨hpos, ⟨-, hacc, -, hbit, -⟩, hcount⟩
    obtain ⟨hy, -, hidx, hx, -⟩ := hpos ha
    exact ⟨⟨hy, hidx hhdr, hbit ha hseq, hacc, (hcount ha).2.1 hseq⟩, hx hseq⟩
  · rintro ⟨⟨hy, hidx, hbit, hacc, hcount⟩, hx⟩
    exact ⟨fun _ => ⟨hy, fun h => absurd h hhdr, fun _ => hidx, fun _ => hx, fun h => absurd h hrow⟩,
      ⟨hbit ▸ shiftRight_bitInit_mem (Nat.mod_lt _ (by decide)), hacc, fun _ h => absurd h hhdr, fun _ _ => hbit,
        fun _ h => absurd h hrow, by simp [ha]⟩,
      fun _ => ⟨fun h => absurd h hhdr, fun _ => hcount, fun h => absurd h hrow⟩⟩

theorem placed_of_rowend {s : State} (ha : s.active = true) (hseq : s.seq = Seq.rowend) :
    s.Placed ↔ s.AtColumn ∧ s.x = s.size := by
  have hhdr : s.seq ≠ Seq.hdr := by simp [hseq]
  have hpix : ¬ s.OnPixel := fun h => (not_hdr_of_onPixel h).2 hseq
  constructor
  · rintro ⟨hpos, ⟨-, hacc, -, -, hbit, -⟩, hcount⟩
    obtain ⟨hy, -, hidx, -, hx⟩ := hpos ha
    have hx' := hx hseq
    exact ⟨⟨hy, hidx hhdr, hx' ▸ hbit ha hseq, hacc, hx' ▸ (hcount ha).2.2 hseq⟩, hx'⟩
  · rintro ⟨⟨hy, hidx, hbit, hacc, hcount⟩, hx⟩
    exact ⟨fun _ => ⟨hy, fun h => absurd h hhdr, fun _ => hidx, fun h => absurd h hpix, fun _ => hx⟩,
      ⟨hbit ▸ shiftRight_bitInit_mem (Nat.mod_lt _ (by decide)), hacc, fun _ h => absurd h hhdr,
        fun _ h => absurd h hpix, fun _ _ => hx ▸ hbit, by simp [ha]⟩,
      fun _ => ⟨fun h => absurd h hhdr, fun h => absurd h hpix, fun _ => hx ▸ hcount⟩⟩

theorem placed_of_not_active {s : State} (ha : s.active = false) :
    s.Placed ↔ s.bit = 128 ∧ AccClear s.byteAcc s.bit := by
  have hoff : ∀ {P : Prop}, s.active = true → P := by simp [ha]
  constructor
  · rintro ⟨-, ⟨-, hacc, -, -, -, hbit⟩, -⟩
    exact ⟨hbit ha, hacc⟩
  · rintro ⟨hbit, hacc⟩
    exact ⟨hoff, ⟨by simp [hbit], hacc, hoff, hoff, hoff, fun _ => hbit⟩, hoff⟩

/-! ### The registers' ranges -/

theorem State.AtHeader.size_ne {s : State} (h : s.AtHeader) : s.size ≠ 0 := fun hz => by
  have := h.size_pos
  simp [hz] at this

theorem State.AtColumn.size_ne {s : State} (h : s.AtColumn) : s.size ≠ 0 := fun hz => by
  have := h.y_lt
  simp [hz] at this

theorem State.AtHeader.hidx_succ_toNat {s : State} (h : s.AtHeader) :
    (fit 4 (s.hidx.toNat + 1)).toNat = s.hidx.toNat + 1 := by
  have hlen := headerBytes_length_le h.size_ne
  have hlt := h.hidx_lt
  exact fit_toNat (by omega)

theorem toNat_succ_of_lt {c : BitVec 32} (h : c.toNat + 1 < 2 ^ 32) : (c + 1).toNat = c.toNat + 1 := by
  rw [BitVec.toNat_add]
  exact Nat.mod_eq_of_lt h

theorem State.AtHeader.outcnt_succ_toNat {s : State} (h : s.AtHeader) :
    (s.outcnt + 1).toNat = s.outcnt.toNat + 1 := by
  have hcount := h.outcnt_eq
  have hidx := s.hidx.isLt
  exact toNat_succ_of_lt (by omega)

/-- R49: within the image the output count stays below the range of its register. -/
theorem State.AtColumn.outcnt_succ_toNat {s : State} (h : s.AtColumn) :
    (s.outcnt + 1).toNat = s.outcnt.toNat + 1 := by
  have hx := s.x.isLt
  have hsize := s.size.isLt
  have hy := h.y_lt
  have hrow : s.y.toNat * rowLength s.size ≤ 65535 * 8192 :=
    Nat.mul_le_mul (by omega) (by unfold rowLength; omega)
  have hlen := headerBytes_length_le h.size_ne
  have hcount := h.outcnt_eq
  exact toNat_succ_of_lt (by omega)

/-- R47: `BIT` is at the last place of its byte exactly in the last column of eight. -/
theorem State.AtColumn.bit_eq_one_iff {s : State} (h : s.AtColumn) : s.bit = 1 ↔ s.x.toNat % 8 = 7 :=
  h.bit_eq ▸ shiftRight_bitInit_eq_one_iff (Nat.mod_lt _ (by decide))

/-- R47 at the row's end: `BIT` is at its first place exactly when the row is of whole bytes. -/
theorem State.AtColumn.bit_eq_bitInit_iff {s : State} (h : s.AtColumn) (hx : s.x = s.size) :
    s.bit = Config.bitInit ↔ s.size.toNat % 8 = 0 := by
  rw [h.bit_eq, hx]
  exact shiftRight_bitInit_eq_bitInit_iff (Nat.mod_lt _ (by decide))

theorem toNat_succ_dim {v n : Dim} (h : v.toNat < n.toNat) : (fit 16 (v.toNat + 1)).toNat = v.toNat + 1 :=
  fit_toNat (by have := n.isLt; omega)

/-! ### How the micro-steps move it -/

theorem hdrEffect_atHeader {s : State} (h : s.AtHeader) (hlast : s.hidx.toNat + 1 ≠ (headerBytes s.size).length) :
    (hdrEffect s).AtHeader := by
  have hlt := h.hidx_lt
  refine ⟨by simpa using h.size_pos, by simpa using h.x_eq, by simpa using h.y_eq, ?_, by simpa using h.bit_eq,
    by simpa using h.acc_clear, ?_⟩
  · rw [hdrEffect_hidx, hdrEffect_size, h.hidx_succ_toNat]
    omega
  · rw [hdrEffect_outcnt, hdrEffect_hidx, h.hidx_succ_toNat, h.outcnt_succ_toNat, h.outcnt_eq]

/-- After the last header byte the run stands at the first column of the first row. -/
theorem hdrEffect_atColumn {s : State} (h : s.AtHeader) (hlast : s.hidx.toNat + 1 = (headerBytes s.size).length) :
    (hdrEffect s).AtColumn := by
  refine ⟨by simpa [h.y_eq] using h.size_pos, ?_, by simp [h.bit_eq, h.x_eq], by simpa using h.acc_clear, ?_⟩
  · rw [hdrEffect_hidx, hdrEffect_size, h.hidx_succ_toNat, hlast]
  · rw [hdrEffect_outcnt, h.outcnt_succ_toNat, h.outcnt_eq, hlast]
    simp [h.x_eq, h.y_eq]

/-- R134: packing a pixel moves the run one column on. -/
theorem pushEffect_atColumn {s : State} (h : s.AtColumn) (hx : s.x.toNat < s.size.toNat) :
    (pushEffect s).AtColumn := by
  have hx' := toNat_succ_dim hx
  have hlast := h.bit_eq_one_iff
  refine ⟨by simpa using h.y_lt, by simpa using h.hidx_eq, ?bit, ?acc, ?count⟩
  case bit =>
    rw [pushEffect_bit, pushEffect_x, hx']
    by_cases hbit : s.bit = 1
    · have := hlast.1 hbit
      rw [if_pos hbit, show (s.x.toNat + 1) % 8 = 0 by omega]
      rfl
    · have := mt hlast.2 hbit
      rw [if_neg hbit, show (s.x.toNat + 1) % 8 = s.x.toNat % 8 + 1 by omega, h.bit_eq, BitVec.shiftRight_add]
  case acc =>
    rw [pushEffect_byteAcc, pushEffect_bit]
    by_cases hbit : s.bit = 1
    · rw [if_pos hbit]
      exact accClear_zero _
    · have := mt hlast.2 hbit
      rw [if_neg hbit, if_neg hbit, h.bit_eq, ← BitVec.shiftRight_add]
      exact accClear_pushedAcc (by omega) h.bit_eq h.acc_clear
  case count =>
    have hcount := h.outcnt_eq
    rw [pushEffect_outcnt, pushEffect_size, pushEffect_x, pushEffect_y, hx']
    by_cases hbit : s.bit = 1
    · have := hlast.1 hbit
      rw [if_pos hbit, h.outcnt_succ_toNat]
      omega
    · have := mt hlast.2 hbit
      rw [if_neg hbit]
      omega

/-- R138: a row has one byte more than its whole bytes exactly when it ends within a byte. -/
theorem rowLength_eq (n : Dim) : rowLength n = n.toNat / 8 + if n.toNat % 8 = 0 then 0 else 1 := by
  unfold rowLength
  split <;> omega

/-- R135 and R138: the flush brings the output count to the end of the row. -/
theorem rowendEffect_outcnt_toNat {s : State} (h : s.AtColumn) (hx : s.x = s.size) :
    (rowendEffect s).outcnt.toNat = (headerBytes s.size).length + (s.y.toNat + 1) * rowLength s.size := by
  have hwhole := h.bit_eq_bitInit_iff hx
  have hcount := h.outcnt_eq
  have hrow := rowLength_eq s.size
  rw [hx] at hcount
  rw [rowendEffect_outcnt, Nat.add_mul, Nat.one_mul]
  split_ifs at hrow ⊢ with h1 h2 h2
  · omega
  · exact absurd (hwhole.1 h1) h2
  · exact absurd (hwhole.2 h2) h1
  · rw [h.outcnt_succ_toNat]
    omega

/-- R135: before the last row the flush takes the run to the next row's first column. -/
theorem rowendEffect_atColumn {s : State} (h : s.AtColumn) (hx : s.x = s.size)
    (hlast : s.y.toNat + 1 ≠ s.size.toNat) : (rowendEffect s).AtColumn := by
  have hy := toNat_succ_dim h.y_lt
  have hlt := h.y_lt
  refine ⟨?_, by simpa using h.hidx_eq, by simp, by simpa using accClear_zero _, ?_⟩
  · rw [rowendEffect_y, rowendEffect_size, hy]
    omega
  · rw [rowendEffect_outcnt_toNat h hx, rowendEffect_size, rowendEffect_y, rowendEffect_x, hy]
    rfl

/-! ### Every micro-step keeps the invariants -/

theorem active_congr {s t : State} (h : t.phase = s.phase) : t.active = s.active := by
  rw [State.active, State.active, h]

theorem hdrEffect_placed {s : State} (ha : s.active = true) (hseq : s.seq = Seq.hdr) (h : s.Placed) :
    (hdrEffect s).Placed := by
  have ha' : (hdrEffect s).active = true := (active_congr (hdrEffect_phase s)).trans ha
  have hat := (placed_of_header ha hseq).1 h
  by_cases hlast : s.hidx.toNat + 1 = (headerBytes s.size).length
  · have hon : (hdrEffect s).OnPixel := .inl (by rw [hdrEffect_seq, if_pos hlast])
    refine (placed_of_onPixel ha' hon).2 ⟨hdrEffect_atColumn hat hlast, ?_⟩
    simpa [hat.x_eq] using hat.size_pos
  · refine (placed_of_header ha' ?_).2 (hdrEffect_atHeader hat hlast)
    rw [hdrEffect_seq, if_neg hlast, hseq]

theorem mapEffect_placed {s : State} (ha : s.active = true) (hseq : s.seq = Seq.map) (h : s.Placed) :
    (mapEffect binary64 s).Placed := by
  have ha' : (mapEffect binary64 s).active = true := (active_congr (mapEffect_phase _ s)).trans ha
  obtain ⟨⟨hy, hidx, hbit, hacc, hcount⟩, hx⟩ := (placed_of_onPixel ha (.inl hseq)).1 h
  refine (placed_of_onPixel ha' (.inr (.inl (mapEffect_seq _ s)))).2 ⟨⟨?_, ?_, ?_, ?_, ?_⟩, ?_⟩ <;>
    simpa only [mapEffect_y, mapEffect_size, mapEffect_hidx, mapEffect_bit, mapEffect_x, mapEffect_byteAcc,
      mapEffect_outcnt]

theorem iterateEffect_placed {s : State} (ha : s.active = true) (hseq : s.seq = Seq.iterate) (h : s.Placed) :
    (iterateEffect binary64 s).Placed := by
  have ha' : (iterateEffect binary64 s).active = true := (active_congr (iterateEffect_phase _ s)).trans ha
  have hon : (iterateEffect binary64 s).OnPixel := by
    rw [State.OnPixel, iterateEffect_seq]
    split <;> simp
  obtain ⟨⟨hy, hidx, hbit, hacc, hcount⟩, hx⟩ := (placed_of_onPixel ha (.inr (.inl hseq))).1 h
  refine (placed_of_onPixel ha' hon).2 ⟨⟨?_, ?_, ?_, ?_, ?_⟩, ?_⟩ <;>
    simpa only [iterateEffect_y, iterateEffect_size, iterateEffect_hidx, iterateEffect_bit, iterateEffect_x,
      iterateEffect_byteAcc, iterateEffect_outcnt]

theorem pushEffect_placed {s : State} (ha : s.active = true) (hseq : s.seq = Seq.push) (h : s.Placed) :
    (pushEffect s).Placed := by
  have ha' : (pushEffect s).active = true := (active_congr (pushEffect_phase s)).trans ha
  obtain ⟨hat, hx⟩ := (placed_of_onPixel ha (.inr (.inr hseq))).1 h
  have hat' := pushEffect_atColumn hat hx
  have hx' := toNat_succ_dim hx
  by_cases hlast : s.x.toNat + 1 = s.size.toNat
  · refine (placed_of_rowend ha' (by rw [pushEffect_seq, if_pos hlast])).2 ⟨hat', BitVec.eq_of_toNat_eq ?_⟩
    rw [pushEffect_x, pushEffect_size, hx', hlast]
  · refine (placed_of_onPixel ha' (.inl (by rw [pushEffect_seq, if_neg hlast]))).2 ⟨hat', ?_⟩
    rw [pushEffect_x, pushEffect_size, hx']
    omega

theorem rowendEffect_placed {s : State} (ha : s.active = true) (hseq : s.seq = Seq.rowend) (h : s.Placed) :
    (rowendEffect s).Placed := by
  obtain ⟨hat, hx⟩ := (placed_of_rowend ha hseq).1 h
  by_cases hlast : s.y.toNat + 1 = s.size.toNat
  · have hoff : (rowendEffect s).active = false := by simp [State.active, hlast]
    exact (placed_of_not_active hoff).2 ⟨by simp, by simpa using accClear_zero _⟩
  · have ha' : (rowendEffect s).active = true :=
      (active_congr (by rw [rowendEffect_phase, if_neg hlast])).trans ha
    refine (placed_of_onPixel ha' (.inl (by rw [rowendEffect_seq, if_neg hlast]))).2
      ⟨rowendEffect_atColumn hat hx hlast, ?_⟩
    have hy := hat.y_lt
    have hzero : (0 : Dim).toNat = 0 := rfl
    rw [rowendEffect_x, rowendEffect_size, hzero]
    omega

theorem microEffect_placed {s : State} {i : Instr} (hi : decodeSeq s.seq = .ok i) (ha : s.active = true)
    (h : s.Placed) : (microEffect i s).Placed := by
  obtain ⟨hseq, rfl⟩ | ⟨hseq, rfl⟩ | ⟨hseq, rfl⟩ | ⟨hseq, rfl⟩ | ⟨hseq, rfl⟩ := decodeSeq_cases hi
  · exact hdrEffect_placed ha hseq h
  · exact mapEffect_placed ha hseq h
  · exact iterateEffect_placed ha hseq h
  · exact pushEffect_placed ha hseq h
  · exact rowendEffect_placed ha hseq h

/-- R25: `ITER` counts from 0 at `MAP` to at most 50. -/
theorem microEffect_iterOk {s : State} {i : Instr} (hi : decodeSeq s.seq = .ok i) (ha : s.active = true)
    (h : s.IterOk) : (microEffect i s).IterOk := by
  obtain ⟨hle, -, hlt⟩ : s.iter.toNat ≤ 50 ∧ _ ∧ (s.seq = Seq.iterate → s.iter.toNat < 50) := h ha
  obtain ⟨hseq, rfl⟩ | ⟨hseq, rfl⟩ | ⟨hseq, rfl⟩ | ⟨hseq, rfl⟩ | ⟨hseq, rfl⟩ := decodeSeq_cases hi <;> intro _ <;>
    simp only [microEffect, Config.maxIter]
  · rw [hdrEffect_iter, hdrEffect_seq]
    refine ⟨hle, ?_, ?_⟩ <;> split <;> simp [hseq]
  · simp
  · have hlt' := hlt hseq
    have hiter : (fit 6 (s.iter.toNat + 1)).toNat = s.iter.toNat + 1 := fit_toNat (by omega)
    rw [iterateEffect_iter, iterateEffect_seq, hiter]
    refine ⟨by omega, fun _ => by omega, fun hnext => ?_⟩
    have hgo : s.iter.toNat + 1 ≠ 50 := by
      intro hlast
      rw [if_pos (.inr hlast)] at hnext
      simp at hnext
    omega
  · rw [pushEffect_iter, pushEffect_seq]
    refine ⟨hle, ?_, ?_⟩ <;> split <;> simp
  · rw [rowendEffect_iter, rowendEffect_seq]
    refine ⟨hle, ?_, ?_⟩ <;> split <;> simp [hseq]

/-- R165's bookkeeping touches `SPEND` alone, which only R50 reads. -/
theorem endMicro_placed_iff (s t : State) : (s.endMicro t).Placed ↔ t.Placed := by
  unfold State.endMicro
  split <;> exact Iff.rfl

theorem endMicro_iterOk_iff (s t : State) : (s.endMicro t).IterOk ↔ t.IterOk := by
  unfold State.endMicro
  split <;> exact Iff.rfl

/-! ### Every event keeps the invariants -/

theorem inv_iff (s : State) : s.Inv ↔ s.CodesLegal ∧ s.Placed ∧ s.IterOk := by
  unfold State.Inv State.Placed
  tauto

theorem iterOk_of_not_active {s : State} (h : s.active = false) : s.IterOk := fun ha => by simp [h] at ha

theorem active_of_run_or_halt {s : State} {p : Code3} (hp : p = Phase.run ∨ p = Phase.halt) (hs : s.phase = p) :
    s.active = true :=
  (s.active_iff).2 (hs ▸ hp)

/-- R201: a run starts within its header, with the packer empty. -/
theorem initRun_placed {s : State} {p : Code3} (hp : p = Phase.run ∨ p = Phase.halt) (hsize : s.size ≠ 0) :
    (s.initRun p).Placed := by
  refine (placed_of_header (active_of_run_or_halt hp rfl) rfl).2
    ⟨?_, rfl, rfl, ?_, rfl, accClear_zero _, rfl⟩
  · exact Nat.pos_of_ne_zero (BitVec.toNat_ne_iff_ne.2 hsize)
  · have := headerBytes_length hsize
    simp only [State.initRun_hidx, State.initRun_size, BitVec.ofNat_eq_ofNat, BitVec.toNat_ofNat]
    omega

theorem initRun_iterOk (s : State) (p : Code3) : (s.initRun p).IterOk := fun _ => by simp

/-- Where no run is active the invariants ask for an empty packer and nothing of `SIZE` or the phase. -/
theorem placed_iterOk_of_not_active {s t : State} (hs : s.active = false) (ht : t.active = false)
    (hbit : t.bit = s.bit) (hacc : t.byteAcc = s.byteAcc) (h : s.Placed) : t.Placed ∧ t.IterOk := by
  refine ⟨(placed_of_not_active ht).2 ?_, iterOk_of_not_active ht⟩
  rw [hbit, hacc]
  exact (placed_of_not_active hs).1 h

theorem applyReset_placed (s : State) : s.applyReset.Placed :=
  (placed_of_not_active rfl).2 ⟨rfl, accClear_zero _⟩

/-- A change of phase within an active run leaves it where it stands. -/
theorem changePhase_placed_iterOk {s : State} {p : Code3} {sp : Bool} (ha : s.active = true)
    (hp : p = Phase.run ∨ p = Phase.halt) (h : s.Placed) (hiter : s.IterOk) :
    ({ s with phase := p, spend := sp } : State).Placed ∧ ({ s with phase := p, spend := sp } : State).IterOk := by
  have ha' : ({ s with phase := p, spend := sp } : State).active = true := active_of_run_or_halt hp rfl
  obtain ⟨hpos, ⟨hmem, hacc, hhdr, hpix, hrow, -⟩, hcount⟩ := h
  exact ⟨⟨fun _ => hpos ha, ⟨hmem, hacc, fun _ => hhdr ha, fun _ => hpix ha, fun _ => hrow ha, by simp [ha']⟩,
    fun _ => hcount ha⟩, fun _ => hiter ha⟩

theorem step_keeps_placed_iterOk {s t : State} (h : s.Placed) (hiter : s.IterOk) (hs : step s = .next t) :
    t.Placed ∧ t.IterOk := by
  obtain ⟨c, r, es, rs, rfl⟩ | ⟨ha, n, rfl⟩ | ⟨hn, p, hp, rfl⟩ | ⟨ha, p, sp, hp, rfl⟩ | ⟨i, hi, he, rfl⟩ | rfl :=
    step_run_cases hs
  · exact ⟨h, hiter⟩
  · exact placed_iterOk_of_not_active ha ha rfl rfl h
  · by_cases hsize : s.size = 0
    · rw [State.beginRun_of_zero (s := s.takeTurn) p hsize]
      exact placed_iterOk_of_not_active (State.not_active_of_noRun hn) rfl rfl rfl h
    · rw [State.beginRun_of_ne (s := s.takeTurn) p hsize]
      exact ⟨initRun_placed hp hsize, initRun_iterOk _ p⟩
  · exact changePhase_placed_iterOk (s := s.takeTurn) ha hp h hiter
  · rw [endMicro_placed_iff, endMicro_iterOk_iff]
    have ha := active_of_enabled he
    exact ⟨microEffect_placed (s := s.takeTurn) hi ha h, microEffect_iterOk (s := s.takeTurn) hi ha hiter⟩
  · exact ⟨applyReset_placed _, iterOk_of_not_active rfl⟩

/-- Settles O52: R50 by its own step lemma, position, packer and counts by the kinds of step. -/
theorem invariantsKept : Obligations.InvariantsKept := by
  intro s t h hs
  rw [inv_iff] at h ⊢
  obtain ⟨hcodes, hplaced, hiter⟩ := h
  exact ⟨step_codesLegal hcodes hs, step_keeps_placed_iterOk hplaced hiter hs⟩

theorem floatsBounded_of_not_active {s : State} (h : s.active = false) : s.FloatsBounded := fun ha => by simp [h] at ha

theorem applyReset_inv (s : State) : s.applyReset.Inv :=
  (inv_iff _).2 ⟨applyReset_codesLegal s, applyReset_placed s, iterOk_of_not_active rfl⟩

/-- Settles O53: reset is between runs, with the packer empty. -/
theorem invariantsAtReset : Obligations.InvariantsAtReset :=
  ⟨applyReset_inv State.reset, floatsBounded_of_not_active rfl,
    fun s => ⟨applyReset_inv s, floatsBounded_of_not_active rfl⟩⟩

/-- A legal code in both registers leaves no event without a next state. -/
theorem exists_performEvent {s : State} (hp : s.phase.toNat ≤ 4) (hc : s.seq.toNat ≤ 4) (e : Event) :
    ∃ t, performEvent e s = .next t := by
  cases e with
  | hostRead i => exact ⟨_, rfl⟩
  | hostWrite i w =>
    by_cases hi : i = 0
    · subst hi
      change ∃ t, hostWrite 0 w s = .next t
      rw [hostWrite_cmd]
      cases hw : decodeCommand w with
      | error e => exact ⟨_, command_of_error hw s⟩
      | ok c =>
        cases hl : legal s c with
        | true => exact ⟨_, (command_of_ok hw s).trans (exec_of_legal (decodeCommand_space hw) hp hl)⟩
        | false => exact ⟨_, command_of_not_legal hw hp hl⟩
    · exact ⟨_, hostWrite_of_ne hi w s⟩
  | blockTurn =>
    obtain ⟨i, hi⟩ := exists_decodeSeq hc
    cases he : s.enabled with
    | true => exact ⟨_, microStep_of_enabled hi he⟩
    | false => exact ⟨_, microStep_of_not_enabled ((s.phaseHeld_iff).2 hp) (fun _ => (s.seqHeld_iff).2 hc) he⟩
  | sinkReady r => exact ⟨_, rfl⟩
  | reset => exact ⟨_, rfl⟩

/-- Settles O54: of the invariants only R50 is needed. -/
theorem invariantStatesNeverStop : Obligations.InvariantStatesNeverStop := by
  rintro s ⟨⟨hp, hc, -⟩, -⟩
  rw [step_eq]
  exact exists_performEvent (s := s.takeTurn) hp hc _

/-! ### The bounds of the evaluator's values (R48) -/

theorem endMicro_floatsBounded_iff (s t : State) : (s.endMicro t).FloatsBounded ↔ t.FloatsBounded := by
  unfold State.endMicro
  split <;> exact Iff.rfl

/-- R48 speaks of a state about to iterate, so a micro-step after which another code stands in `SEQ` keeps it. -/
theorem floatsBounded_of_seq {s : State} (h : s.seq ≠ Seq.iterate) : s.FloatsBounded := fun _ hseq => absurd hseq h

/-- `MAP` gives a point of the map's region and clears `Z`. -/
theorem mapEffect_floatsBounded {s : State} (hx : s.x.toNat < s.size.toNat) (hy : s.y.toNat < s.size.toNat) :
    (mapEffect binary64 s).FloatsBounded := by
  have hsize : s.size.toNat ≤ 65535 := by have := s.size.isLt; omega
  obtain ⟨hre, him⟩ := mapC_absLe hx hy hsize
  intro _ _
  simp only [mapEffect_cRe, mapEffect_cIm, mapEffect_zRe, mapEffect_zIm, mapEffect_iter]
  exact ⟨hre, him, by decide, by decide, fun _ => ⟨trivial, trivial⟩, fun h => absurd h (by simp)⟩

/-- `ITERATE` computes a finite `Z`, and goes on only where the new one has not escaped. -/
theorem iterateEffect_floatsBounded {s : State} (ha : s.active = true) (hseq : s.seq = Seq.iterate)
    (hiter : s.iter.toNat < 50) (h : s.FloatsBounded) : (iterateEffect binary64 s).FloatsBounded := by
  obtain ⟨hcre, hcim, -⟩ := h ha hseq
  obtain ⟨hzre, hzim⟩ := h.z_absLe ha hseq
  obtain ⟨-, -, hzre', hzim'⟩ := iteration_absLe hzre hzim hcre hcim
  intro _ hnext
  have hcount : (fit 6 (s.iter.toNat + 1)).toNat = s.iter.toNat + 1 := fit_toNat (by omega)
  have hesc : escaped binary64 (stepZ binary64 (s.zRe, s.zIm) (s.cRe, s.cIm)) = false := by
    rw [iterateEffect_seq] at hnext
    by_contra hesc
    rw [if_pos (.inl (by simpa using hesc))] at hnext
    simp at hnext
  rw [iterateEffect_cRe, iterateEffect_cIm, iterateEffect_zRe, iterateEffect_zIm, iterateEffect_iter, hcount]
  refine ⟨hcre, hcim, ?_, ?_, fun hzero => ?_, fun _ => hesc⟩
  · simpa only [stepZ_eq, binary64_add, binary64_sub, binary64_mul] using hzre'.1
  · simpa only [stepZ_eq, binary64_add, binary64_sub, binary64_mul] using hzim'.1
  · have := congrArg BitVec.toNat hzero
    rw [hcount] at this
    simp at this

theorem microEffect_floatsBounded {s : State} {i : Instr} (hi : decodeSeq s.seq = .ok i) (ha : s.active = true)
    (hinv : s.Inv) (h : s.FloatsBounded) : (microEffect i s).FloatsBounded := by
  obtain ⟨-, hplaced, hiter⟩ := (inv_iff s).1 hinv
  obtain ⟨hseq, rfl⟩ | ⟨hseq, rfl⟩ | ⟨hseq, rfl⟩ | ⟨hseq, rfl⟩ | ⟨hseq, rfl⟩ := decodeSeq_cases hi <;>
    simp only [microEffect]
  · refine floatsBounded_of_seq ?_
    rw [hdrEffect_seq]
    split <;> simp [hseq]
  · obtain ⟨hat, hx⟩ := (placed_of_onPixel ha (.inl hseq)).1 hplaced
    exact mapEffect_floatsBounded hx hat.y_lt
  · exact iterateEffect_floatsBounded ha hseq ((hiter ha).2.2 hseq) h
  · refine floatsBounded_of_seq ?_
    rw [pushEffect_seq]
    split <;> simp
  · refine floatsBounded_of_seq ?_
    rw [rowendEffect_seq]
    split <;> simp [hseq]

/-- Settles O46: `MAP` establishes the bounds, `ITERATE` keeps them, and no other step is followed by an iteration without
leaving the evaluator's registers as they are. -/
theorem floatBoundsKept : Obligations.FloatBoundsKept := by
  intro s t hinv h hs
  obtain ⟨c, r, es, rs, rfl⟩ | ⟨ha, n, rfl⟩ | ⟨hn, p, hp, rfl⟩ | ⟨ha, p, sp, hp, rfl⟩ | ⟨i, hi, he, rfl⟩ | rfl :=
    step_run_cases hs
  · exact h
  · exact floatsBounded_of_not_active ha
  · by_cases hsize : s.size = 0
    · rw [State.beginRun_of_zero (s := s.takeTurn) p hsize]
      exact floatsBounded_of_not_active rfl
    · rw [State.beginRun_of_ne (s := s.takeTurn) p hsize]
      exact floatsBounded_of_seq (by simp)
  · exact fun _ => h ha
  · rw [endMicro_floatsBounded_iff]
    exact microEffect_floatsBounded (s := s.takeTurn) hi (active_of_enabled he) hinv h
  · exact floatsBounded_of_not_active rfl

end Sys2Proof.Machine
end

section
/-! The output contract (41_packer.md section 3): its length (R8), where its bytes stand, and the bits of a row's byte (R65,
R139), full or packed part way. -/

namespace Sys2Proof.Machine

/-! ### Bits of a byte (R139) -/

/-- The byte whose bit `7 - i` is set where `f i` is, summed up place by place as R139 does. -/
def bitSum (f : Nat → Bool) (count : Nat) : Byte :=
  ((List.range count).map fun i => if f i = true then BitVec.ofNat 8 (2 ^ (7 - i)) else 0).sum

theorem bitSum_succ (f : Nat → Bool) (count : Nat) :
    bitSum f (count + 1) = bitSum f count + if f count = true then BitVec.ofNat 8 (2 ^ (7 - count)) else 0 :=
  List.sum_range_succ _ _

theorem getLsbD_place {i : Nat} (hi : i < 8) (j : Nat) :
    (BitVec.ofNat 8 (2 ^ (7 - i))).getLsbD j = decide (j = 7 - i) := by
  rw [BitVec.getLsbD_ofNat, Nat.testBit_two_pow]
  by_cases hj : j = 7 - i
  · simp [hj]; omega
  · simp [hj, Ne.symm hj]

/-- The places of the sum do not overlap, so each term sets its own bit. -/
theorem getLsbD_bitSum (f : Nat → Bool) {count : Nat} (hcount : count ≤ 8) {j : Nat} (hj : j < 8) :
    (bitSum f count).getLsbD (7 - j) = (decide (j < count) && f j) := by
  induction count generalizing j with
  | zero => simp [bitSum]
  | succ count ih =>
    have ih' := fun {j : Nat} (hj : j < 8) => ih (by omega) hj
    have hplace := fun j => getLsbD_place (i := count) (by omega) j
    rw [bitSum_succ]
    by_cases hf : f count = true
    · have hdisj : bitSum f count &&& BitVec.ofNat 8 (2 ^ (7 - count)) = 0#8 := by
        refine BitVec.eq_of_getLsbD_eq fun p hp => ?_
        rw [BitVec.getLsbD_and, hplace, BitVec.getLsbD_zero]
        by_cases hpc : p = 7 - count
        · rw [hpc, ih' (by omega)]
          simp
        · simp [hpc]
      rw [if_pos hf, BitVec.add_eq_or_of_and_eq_zero _ _ hdisj, BitVec.getLsbD_or, hplace, ih' hj]
      obtain hlt | rfl | hgt := lt_trichotomy j count
      · simp [hlt, show j < count + 1 by omega, show ¬ 7 - j = 7 - count by omega]
      · simp [hf]
      · simp [show ¬ j < count by omega, show ¬ j < count + 1 by omega, show ¬ 7 - j = 7 - count by omega]
    · rw [if_neg hf, add_zero, ih' hj]
      obtain hlt | rfl | hgt := lt_trichotomy j count
      · simp [hlt, show j < count + 1 by omega]
      · simp [hf]
      · simp [show ¬ j < count by omega, show ¬ j < count + 1 by omega]

/-- A byte is determined by its bits, counted from the left. -/
theorem byte_ext {a b : Byte} (h : ∀ i < 8, a.getLsbD (7 - i) = b.getLsbD (7 - i)) : a = b := by
  refine BitVec.eq_of_getLsbD_eq fun p hp => ?_
  rw [show p = 7 - (7 - p) by omega]
  exact h (7 - p) (by omega)

/-- R139: bit `7 - i` of a byte packed up to column `w` is the pixel `8·j + i`, and 0 from column `w` on. -/
theorem getLsbD_byteUpTo (n : Dim) (y j w : Nat) {i : Nat} (hi : i < 8) :
    (byteUpTo n y j w).getLsbD (7 - i) = (decide (8 * j + i < w) && (pixel n (8 * j + i) y).m) := by
  have hsum : byteUpTo n y j w = bitSum (fun i => decide (8 * j + i < w) && (pixel n (8 * j + i) y).m) 8 := by
    simp only [byteUpTo, bitSum, Bool.and_eq_true, decide_eq_true_eq]
  rw [hsum, getLsbD_bitSum _ le_rfl hi]
  simp [hi]

/-- Before its first column a byte is empty. -/
theorem byteUpTo_of_le {n : Dim} {y j w : Nat} (h : w ≤ 8 * j) : byteUpTo n y j w = 0 :=
  byte_ext fun i hi => by simp [getLsbD_byteUpTo n y j w hi, show ¬ 8 * j + i < w by omega]

/-- After its eighth column a byte is the whole one. -/
theorem byteUpTo_of_ge {n : Dim} {y j w : Nat} (h : 8 * j + 8 ≤ w) (hw : w ≤ n.toNat) :
    byteUpTo n y j w = rowByte n y j :=
  byte_ext fun i hi => by
    rw [rowByte, getLsbD_byteUpTo n y j w hi, getLsbD_byteUpTo n y j _ hi]
    simp [show 8 * j + i < w by omega, show 8 * j + i < n.toNat by omega]

/-- R134 against R139: packing the pixel of column `x` takes the byte from `x` columns to `x + 1`. -/
theorem byteUpTo_succ (n : Dim) (x y : Nat) :
    byteUpTo n y (x / 8) (x + 1) =
      if (pixel n x y).m = true then byteUpTo n y (x / 8) x ||| (128 : Byte) >>> (x % 8)
      else byteUpTo n y (x / 8) x := by
  have hk : x % 8 < 8 := Nat.mod_lt _ (by decide)
  have hmask : (128 : Byte) >>> (x % 8) = BitVec.ofNat 8 (2 ^ (7 - x % 8)) := by
    apply BitVec.eq_of_toNat_eq
    rw [toNat_shiftRight_bitInit hk, BitVec.toNat_ofNat]
    exact (Nat.mod_eq_of_lt (Nat.pow_lt_pow_right (by decide) (by omega))).symm
  refine byte_ext fun i hi => ?_
  rw [getLsbD_byteUpTo n y _ _ hi]
  by_cases hcol : i = x % 8
  · have hx : 8 * (x / 8) + i = x := by omega
    rw [hx]
    split
    next hm =>
      rw [BitVec.getLsbD_or, hmask, getLsbD_place hk, hm]
      simp [hcol]
    next hm =>
      rw [getLsbD_byteUpTo n y _ _ hi, hx]
      simp [hm]
  · have hlt : 8 * (x / 8) + i < x + 1 ↔ 8 * (x / 8) + i < x := by omega
    have hplace : 7 - i ≠ 7 - x % 8 := by omega
    split
    · rw [BitVec.getLsbD_or, getLsbD_byteUpTo n y _ _ hi, hmask, getLsbD_place hk]
      simp [hlt, hplace]
    · rw [getLsbD_byteUpTo n y _ _ hi]
      simp [hlt]

/-! ### The rows and the image (R138, R141) -/

theorem rowBytes_length (n : Dim) (y : Nat) : (rowBytes n y).length = rowLength n := by
  rw [rowBytes, List.length_map, List.length_range]

theorem rowBytes_getElem? {n : Dim} {y j : Nat} (h : j < rowLength n) :
    (rowBytes n y)[j]? = some (rowByte n y j) := by
  rw [rowBytes, List.getElem?_map, List.getElem?_range h, Option.map_some]

/-- Blocks of one length, put one after another, have the length of all. -/
theorem length_flatMap_range {α : Type} {f : Nat → List α} {r : Nat} (hf : ∀ y, (f y).length = r) (m : Nat) :
    ((List.range m).flatMap f).length = m * r := by
  induction m with
  | zero => simp
  | succ m ih =>
    rw [List.range_succ, List.flatMap_append, List.length_append, ih, List.flatMap_singleton, hf, Nat.succ_mul]

/-- In blocks of one length, entry `j` of block `y` stands at `y·r + j`. -/
theorem getElem?_flatMap_range {α : Type} {f : Nat → List α} {r : Nat} (hf : ∀ y, (f y).length = r) {m y j : Nat}
    (hy : y < m) (hj : j < r) : ((List.range m).flatMap f)[y * r + j]? = (f y)[j]? := by
  induction m with
  | zero => omega
  | succ m ih =>
    have hlen := length_flatMap_range hf m
    rw [List.range_succ, List.flatMap_append, List.flatMap_singleton]
    obtain hlt | rfl := Nat.lt_succ_iff_lt_or_eq.1 hy
    · have hin : y * r + j < m * r := by
        calc y * r + j < (y + 1) * r := by rw [Nat.succ_mul]; omega
          _ ≤ m * r := Nat.mul_le_mul_right r hlt
      rw [List.getElem?_append_left (by rwa [hlen]), ih hlt]
    · rw [List.getElem?_append_right (by omega), hlen, Nat.add_sub_cancel_left]

theorem imageBytes_length (n : Dim) : (imageBytes n).length = (headerBytes n).length + n.toNat * rowLength n := by
  rw [imageBytes, List.length_append, length_flatMap_range (rowBytes_length n)]

theorem imageBytes_getElem?_header {n : Dim} {k : Nat} (h : k < (headerBytes n).length) :
    (imageBytes n)[k]? = some (headerByte n k) := by
  rw [imageBytes, List.getElem?_append_left h, headerByte_eq_getElem h, List.getElem?_eq_getElem h]

/-- R141: byte `j` of row `y` follows the header and the rows above. -/
theorem imageBytes_getElem?_row {n : Dim} {y j : Nat} (hy : y < n.toNat) (hj : j < rowLength n) :
    (imageBytes n)[(headerBytes n).length + y * rowLength n + j]? = some (rowByte n y j) := by
  rw [imageBytes, Nat.add_assoc, List.getElem?_append_right (by omega), Nat.add_sub_cancel_left,
    getElem?_flatMap_range (rowBytes_length n) hy hj, rowBytes_getElem? hj]

theorem imageBytes_length_lt {n : Dim} (hn : n ≠ 0) : (imageBytes n).length < 2 ^ 32 := by
  have hsize := n.isLt
  have hrows : n.toNat * rowLength n ≤ 65535 * 8192 :=
    Nat.mul_le_mul (by omega) (by unfold rowLength; omega)
  have hlen := headerBytes_length_le hn
  rw [imageBytes_length]
  omega

/-- Settles O49: the header's length, and `SIZE` rows of `ceil(SIZE/8)` bytes. -/
theorem outputLength : Obligations.OutputLength := by
  intro n hn
  refine ⟨?_, imageBytes_length_lt hn⟩
  rw [imageBytes_length, headerBytes_length hn, rowLength]

/-- Settles O50: the bits of a whole byte of a row. -/
theorem pixelBitPlacement : Obligations.PixelBitPlacement := by
  refine ⟨fun n x y hx => ?_, fun n y j i b hb hi hpad => ?_⟩
  · have hj : x / 8 < rowLength n := by
      unfold rowLength
      omega
    refine ⟨_, rowBytes_getElem? hj, ?_⟩
    rw [rowByte, getLsbD_byteUpTo n y _ _ (Nat.mod_lt x (by decide)), Nat.div_add_mod]
    simp [hx]
  · have hj : j < rowLength n := by
      have := (List.getElem?_eq_some_iff.1 hb).1
      rwa [rowBytes_length] at this
    rw [rowBytes_getElem? hj, Option.some_inj] at hb
    rw [← hb, rowByte, getLsbD_byteUpTo n y _ _ hi]
    simp [hpad]

end Sys2Proof.Machine
end

section
/-! R109: the micro-steps of the evaluator against the whole-pixel contract `EVAL`. The loop of `EVAL` can be taken up at any
iterate before which none escaped, which is where `ITERATE` stands; over any `NUMERICS` record, `binary64` last. -/

namespace Sys2Proof.Machine

/-! ### The loop, taken up part way -/

section AnyNumerics

variable (N : Numerics)

/-- No iterate of the orbit from the first to the `i`-th has escaped. -/
def NoEscape (c : F64 × F64) (i : Nat) : Prop := ∀ k, 1 ≤ k → k ≤ i → escaped N (orbit N c k) = false

theorem noEscape_succ {c : F64 × F64} {i : Nat} (h : NoEscape N c i) (he : escaped N (orbit N c (i + 1)) = false) :
    NoEscape N c (i + 1) := fun k h1 hk => by
  obtain hk | rfl := Nat.le_succ_iff.1 hk
  · exact h k h1 hk
  · exact he

/-- Where none has escaped yet, the loop from the start is the loop from there. -/
theorem evalLoop_resume {c : F64 × F64} {i left : Nat} (h : NoEscape N c i) :
    evalLoop N c (i + left) 0 (orbit N c 0) = evalLoop N c left i (orbit N c i) := by
  induction i generalizing left with
  | zero => rw [Nat.zero_add]
  | succ i ih =>
    have hesc : escaped N (stepZ N (orbit N c i) c) = false := h (i + 1) (by omega) le_rfl
    rw [Nat.add_assoc, Nat.add_comm 1 left, ih fun k h1 hk => h k h1 (by omega), evalLoop_of_not_escaped N c hesc,
      orbit_succ]

theorem evalPixel_resume {x y size i left : Nat} (h : NoEscape N (mapC N x y size) i) (hi : i + left = 50) :
    evalPixel N x y size = evalLoop N (mapC N x y size) left i (orbit N (mapC N x y size) i) := by
  rw [← evalLoop_resume N h, hi]
  rfl

/-- The iteration that escapes ends the pixel outside the set. -/
theorem evalPixel_of_escaped {x y size i : Nat} (h : NoEscape N (mapC N x y size) i) (hi : i < 50)
    (he : escaped N (orbit N (mapC N x y size) (i + 1)) = true) :
    evalPixel N x y size = ⟨false, i + 1, orbit N (mapC N x y size) (i + 1)⟩ := by
  rw [evalPixel_resume N h (left := 49 - i + 1) (by omega), evalLoop_of_escaped N _ he]
  rfl

/-- The 50th iteration that has not escaped ends it inside. -/
theorem evalPixel_of_last {x y size : Nat} (h : NoEscape N (mapC N x y size) 50) :
    evalPixel N x y size = ⟨true, 50, orbit N (mapC N x y size) 50⟩ := by
  rw [evalPixel_resume N h (left := 0) rfl]
  rfl

/-- Before the bound, with none escaped, at least one more iteration is to come. -/
theorem lt_evalPixel_k {x y size i : Nat} (h : NoEscape N (mapC N x y size) i) (hi : i < 50) :
    i < (evalPixel N x y size).k := by
  obtain ⟨-, -, hlt, -⟩ := evalLoop_spec N (mapC N x y size) (50 - i) i
  rw [evalPixel_resume N h (left := 50 - i) (by omega)]
  exact hlt (by omega)

theorem evalPixel_spec (x y size : Nat) :
    1 ≤ (evalPixel N x y size).k ∧ (evalPixel N x y size).k ≤ 50 ∧
      NoEscape N (mapC N x y size) ((evalPixel N x y size).k - 1) := by
  obtain ⟨-, hle, hlt, -, -, -, hno, -⟩ := evalLoop_spec N (mapC N x y size) 50 0
  refine ⟨hlt (by omega), hle, fun k h1 hk => hno k h1 ?_⟩
  have := hlt (by omega)
  change k < (evalPixel N x y size).k
  change 0 + 1 ≤ (evalPixel N x y size).k at this
  omega

theorem pixel_eq (n : Dim) (x y : Nat) : pixel n x y = evalPixel binary64 x y n.toNat := rfl

/-! ### The states of a pixel -/

/-- The state with the evaluator's registers as after `i` iterations for the point `c`. -/
def iterated (s : State) (c : F64 × F64) (i : Nat) (m : Bool) (seq : Code3) : State :=
  { s with
    cRe := c.1, cIm := c.2, zRe := (orbit N c i).1, zIm := (orbit N c i).2
    iter := BitVec.ofNat 6 i, m := m, seq := seq }

/-- In `RUN` the bookkeeping of R165 leaves `SPEND` as it is. -/
theorem spendAfter_of_run {s : State} (h : s.phase = Phase.run) : s.spendAfter = s.spend := by
  simp [State.spendAfter, h]

theorem endMicro_mapEffect_of_run {s : State} (h : s.phase = Phase.run) :
    s.endMicro (mapEffect N s) =
      iterated N s (mapC N s.x.toNat s.y.toNat s.size.toNat) 0 false Seq.iterate := by
  rw [endMicro_mapEffect, spendAfter_of_run h]
  rfl

theorem endMicro_iterateEffect_of_run {s : State} {c : F64 × F64} {i : Nat} (h : s.phase = Phase.run) (hi : i < 50) :
    (iterated N s c i false Seq.iterate).endMicro (iterateEffect N (iterated N s c i false Seq.iterate)) =
      iterated N s c (i + 1) (if escaped N (orbit N c (i + 1)) then false else if i + 1 = 50 then true else false)
        (if escaped N (orbit N c (i + 1)) ∨ i + 1 = 50 then Seq.push else Seq.iterate) := by
  have hiter : (iterated N s c i false Seq.iterate).iter.toNat = i := by
    change (BitVec.ofNat 6 i).toNat = i
    rw [BitVec.toNat_ofNat]
    omega
  have hsucc : (iterated N s c i false Seq.iterate).iter + 1 = BitVec.ofNat 6 (i + 1) := (BitVec.ofNat_add i 1).symm
  rw [endMicro_iterateEffect N _ (by omega), hiter, hsucc,
    spendAfter_of_run (s := iterated N s c i false Seq.iterate) h]
  rfl

end AnyNumerics

/-! ### Runs of steps -/

/-- `k` steps lead from `s` to `t`, none of them stopping. -/
inductive StepsTo : Nat → State → State → Prop
  | refl (s : State) : StepsTo 0 s s
  | head {k : Nat} {s t u : State} (hstep : step s = .next t) (hrest : StepsTo k t u) : StepsTo (k + 1) s u

theorem StepsTo.add {s t u : State} {j k : Nat} (h : StepsTo j s t) (h' : StepsTo k t u) : StepsTo (j + k) s u := by
  induction h with
  | refl s => rwa [Nat.zero_add]
  | head hstep _ ih =>
    rw [Nat.add_right_comm]
    exact .head hstep (ih h')

theorem StepsTo.single {s t : State} (h : step s = .next t) : StepsTo 1 s t := .head h (.refl t)

/-- Such steps are a run of the machine. -/
theorem StepsTo.run {s t : State} {k : Nat} (h : StepsTo k s t) : core.run k s = .next t := by
  induction h with
  | refl s => rfl
  | @head k s t u hstep _ ih =>
    have hstep' : core.step s = .next t := hstep
    refine Eq.trans ?_ ih
    simp only [Host.Core.run, hstep']

/-- With an empty queue an enabled micro-step is the step. -/
theorem step_of_quiet {s : State} {i : Instr} (hq : s.events = []) (hi : decodeSeq s.seq = .ok i)
    (he : s.enabled = true) : step s = .next (s.endMicro (microEffect i s)) := by
  have h := step_of_enabled (State.nextEvent_of_nil hq) hi he
  rwa [State.takeTurn_of_nil hq] at h

/-! ### One pixel -/

section Pixel

variable {s : State}

theorem step_map_of_run (hrun : s.phase = Phase.run) (hq : s.events = []) (hseq : s.seq = Seq.map) :
    step s = .next
      (iterated binary64 s (mapC binary64 s.x.toNat s.y.toNat s.size.toNat) 0 false Seq.iterate) := by
  have he : s.enabled = true := enabled_of_runs (.inl hrun) fun he => absurd he (not_emits_of_map hseq)
  rw [step_of_quiet (i := .map) hq (by rw [hseq]; rfl) he, ← endMicro_mapEffect_of_run binary64 hrun]
  rfl

theorem step_iterate_of_run (hrun : s.phase = Phase.run) (hq : s.events = []) {c : F64 × F64} {i : Nat} (hi : i < 50) :
    step (iterated binary64 s c i false Seq.iterate) = .next
      (iterated binary64 s c (i + 1)
        (if escaped binary64 (orbit binary64 c (i + 1)) then false else if i + 1 = 50 then true else false)
        (if escaped binary64 (orbit binary64 c (i + 1)) ∨ i + 1 = 50 then Seq.push else Seq.iterate)) := by
  have he : (iterated binary64 s c i false Seq.iterate).enabled = true :=
    enabled_of_runs (.inl hrun) fun he => absurd he (not_emits_of_iterate rfl)
  rw [step_of_quiet (s := iterated binary64 s c i false Seq.iterate) (i := .iterate) hq rfl he,
    ← endMicro_iterateEffect_of_run binary64 hrun hi]
  rfl

/-- As long as none has escaped, `i` iterations after `MAP` the registers hold the orbit's `i`-th iterate. -/
theorem stepsTo_iterate (hrun : s.phase = Phase.run) (hq : s.events = []) (hseq : s.seq = Seq.map) {i : Nat}
    (hi : i < 50)
    (h : NoEscape binary64 (mapC binary64 s.x.toNat s.y.toNat s.size.toNat) i) :
    StepsTo (i + 1) s
      (iterated binary64 s (mapC binary64 s.x.toNat s.y.toNat s.size.toNat) i false Seq.iterate) := by
  induction i with
  | zero => exact .single (step_map_of_run hrun hq hseq)
  | succ i ih =>
    have hesc := h (i + 1) (by omega) le_rfl
    have hstep := step_iterate_of_run hrun hq (c := mapC binary64 s.x.toNat s.y.toNat s.size.toNat) (i := i) (by omega)
    rw [hesc, if_neg (by simp), if_neg (by omega), if_neg (by simp; omega)] at hstep
    exact (ih (by omega) fun k h1 hk => h k h1 (by omega)).add (.single hstep)

/-- The last iteration of the pixel leaves what `EVAL` returns. -/
theorem step_iterate_last (hrun : s.phase = Phase.run) (hq : s.events = []) {i : Nat} (hi : i < 50)
    (h : NoEscape binary64 (mapC binary64 s.x.toNat s.y.toNat s.size.toNat) i)
    (hk : (pixel s.size s.x.toNat s.y.toNat).k = i + 1) :
    step (iterated binary64 s (mapC binary64 s.x.toNat s.y.toNat s.size.toNat) i false Seq.iterate) = .next
      (iterated binary64 s (mapC binary64 s.x.toNat s.y.toNat s.size.toNat) (i + 1)
        (pixel s.size s.x.toNat s.y.toNat).m Seq.push) ∧
    (pixel s.size s.x.toNat s.y.toNat).z =
      orbit binary64 (mapC binary64 s.x.toNat s.y.toNat s.size.toNat) (i + 1) := by
  rw [step_iterate_of_run hrun hq hi]
  cases he : escaped binary64 (orbit binary64 (mapC binary64 s.x.toNat s.y.toNat s.size.toNat) (i + 1)) with
  | true =>
    rw [pixel, evalPixel_of_escaped binary64 h hi he]
    exact ⟨by simp, rfl⟩
  | false =>
    have h' := noEscape_succ binary64 h he
    have hlast : i + 1 = 50 := by
      by_contra hne
      have : i + 1 < (pixel s.size s.x.toNat s.y.toNat).k := lt_evalPixel_k binary64 h' (by omega)
      omega
    rw [hlast] at h'
    rw [pixel, evalPixel_of_last binary64 h', hlast]
    exact ⟨by simp, rfl⟩

/-- R109 for one pixel: none of the first `k - 1` iterates escapes, and the `k`-th iteration ends it. -/
theorem run_pixel (hrun : s.phase = Phase.run) (hq : s.events = []) (hseq : s.seq = Seq.map) {r : PixelResult}
    {c : F64 × F64} (hr : pixel s.size s.x.toNat s.y.toNat = r)
    (hc : mapC binary64 s.x.toNat s.y.toNat s.size.toNat = c) :
    1 ≤ r.k ∧ r.k ≤ 50 ∧ (∀ j, 1 ≤ j → j ≤ r.k → ∃ u, core.run j s = .next u ∧ u.seq = Seq.iterate) ∧
    core.run (1 + r.k) s = .next
      { s with
        cRe := c.1, cIm := c.2, zRe := r.z.1, zIm := r.z.2
        iter := BitVec.ofNat 6 r.k, m := r.m, seq := Seq.push } := by
  have hspec := evalPixel_spec binary64 s.x.toNat s.y.toNat s.size.toNat
  rw [← pixel_eq, hr] at hspec
  obtain ⟨hpos, hle, hno⟩ := hspec
  obtain ⟨i, hk⟩ : ∃ i, r.k = i + 1 := ⟨r.k - 1, (Nat.sub_add_cancel hpos).symm⟩
  have hi : i < 50 := by omega
  rw [hk, Nat.add_sub_cancel] at hno
  refine ⟨hpos, hle, fun j h1 hj => ?_, ?_⟩
  · obtain ⟨j, rfl⟩ : ∃ n, j = n + 1 := ⟨j - 1, by omega⟩
    exact ⟨_, (stepsTo_iterate hrun hq hseq (by omega) fun k h1 hk => hno k h1 (by omega)).run, rfl⟩
  · obtain ⟨hstep, hz⟩ := step_iterate_last hrun hq hi hno (by rw [hr, hk])
    rw [hr] at hstep hz
    rw [hk, Nat.add_comm 1, hz, ← hc]
    exact ((stepsTo_iterate hrun hq hseq hi hno).add (.single hstep)).run

end Pixel

/-- Settles O47, by the run of one pixel. -/
theorem microStepsComputeEval : Obligations.MicroStepsComputeEval :=
  fun _ hrun hseq hq => run_pixel hrun hq hseq rfl rfl

end Sys2Proof.Machine
end

section
/-! The invariant of a run (R139, R141, R109): a start establishes it, every event of the run keeps it, and the step that
ends in `DONE` leaves the whole output. The stream's clauses take one form for every micro-step: the first `OUTCNT` bytes of
the output stand in the stream, and the accumulator holds the columns below `X` of its byte. -/

namespace Sys2Proof.Machine

/-! ### The stream, in one form -/

/-- R139 and R141 part way, whichever micro-step is next. -/
structure State.Streamed (base : List Byte) (s : State) : Prop where
  out_eq : s.out = base ++ (imageBytes s.size).take s.outcnt.toNat
  acc_eq : s.byteAcc = byteUpTo s.size s.y.toNat (s.x.toNat / 8) s.x.toNat

/-- The three places of an active run. -/
theorem placed_cases {s : State} (ha : s.active = true) (hseq : s.seq.toNat ≤ 4) (h : s.Placed) :
    (s.seq = Seq.hdr ∧ s.AtHeader) ∨ (s.OnPixel ∧ s.AtColumn ∧ s.x.toNat < s.size.toNat) ∨
      (s.seq = Seq.rowend ∧ s.AtColumn ∧ s.x = s.size) := by
  obtain ⟨i, hi⟩ := exists_decodeSeq hseq
  obtain ⟨hc, -⟩ | ⟨hc, -⟩ | ⟨hc, -⟩ | ⟨hc, -⟩ | ⟨hc, -⟩ := decodeSeq_cases hi
  · exact .inl ⟨hc, (placed_of_header ha hc).1 h⟩
  · exact .inr (.inl ⟨.inl hc, (placed_of_onPixel ha (.inl hc)).1 h⟩)
  · exact .inr (.inl ⟨.inr (.inl hc), (placed_of_onPixel ha (.inr (.inl hc))).1 h⟩)
  · exact .inr (.inl ⟨.inr (.inr hc), (placed_of_onPixel ha (.inr (.inr hc))).1 h⟩)
  · exact .inr (.inr ⟨hc, (placed_of_rowend ha hc).1 h⟩)

theorem streamOk_iff {base : List Byte} {s : State} (ha : s.active = true) (hseq : s.seq.toNat ≤ 4) (h : s.Placed) :
    s.StreamOk base ↔ s.Streamed base := by
  have hoff : ∀ {c d : Code3} {P : Prop}, s.seq = c → c ≠ d → s.seq = d → P :=
    fun hc hne hd => absurd (hc.symm.trans hd) hne
  obtain ⟨hc, hat⟩ | ⟨hpix, -, -⟩ | ⟨hc, -, hx⟩ := placed_cases ha hseq h
  · have hzero : byteUpTo s.size s.y.toNat (s.x.toNat / 8) s.x.toNat = 0 := by
      rw [hat.x_eq]
      exact byteUpTo_of_le (Nat.zero_le _)
    have hpix : ¬ s.OnPixel := fun hp => (not_hdr_of_onPixel hp).1 hc
    constructor
    · intro hs
      obtain ⟨hout, hacc, -⟩ := hs ha
      exact ⟨hout, (hacc hc).trans hzero.symm⟩
    · rintro ⟨hout, hacc⟩ -
      exact ⟨hout, fun _ => hacc.trans hzero, fun hp => absurd hp hpix, hoff hc (by decide)⟩
  · obtain ⟨hhdr, hrow⟩ := not_hdr_of_onPixel hpix
    constructor
    · intro hs
      obtain ⟨hout, -, hacc, -⟩ := hs ha
      exact ⟨hout, hacc hpix⟩
    · rintro ⟨hout, hacc⟩ -
      exact ⟨hout, fun hc => absurd hc hhdr, fun _ => hacc, fun hc => absurd hc hrow⟩
  · have hpix : ¬ s.OnPixel := fun hp => (not_hdr_of_onPixel hp).2 hc
    have hcol : s.x.toNat = s.size.toNat := congrArg BitVec.toNat hx
    constructor
    · intro hs
      obtain ⟨hout, -, -, hacc⟩ := hs ha
      exact ⟨hout, by rw [hcol]; exact hacc hc⟩
    · rintro ⟨hout, hacc⟩ -
      exact ⟨hout, hoff hc (by decide), fun hp => absurd hp hpix, fun _ => by rw [← hcol]; exact hacc⟩

/-! ### The micro-steps append the output's next byte -/

/-- Emitting the byte of the output that `OUTCNT` points at. -/
theorem append_next_byte {base out : List Byte} {image : List Byte} {c : Nat} {b : Byte}
    (hout : out = base ++ image.take c) (hb : image[c]? = some b) : out ++ [b] = base ++ image.take (c + 1) := by
  rw [hout, List.take_add_one, hb, List.append_assoc]
  rfl

theorem hdrEffect_streamed {base : List Byte} {s : State} (hat : s.AtHeader) (h : s.Streamed base) :
    (hdrEffect s).Streamed base := by
  refine ⟨?_, by simpa using h.acc_eq⟩
  rw [hdrEffect_out, hdrEffect_size, hdrEffect_outcnt, hat.outcnt_succ_toNat]
  refine append_next_byte h.out_eq ?_
  rw [hat.outcnt_eq]
  exact imageBytes_getElem?_header hat.hidx_lt

theorem mapEffect_streamed {base : List Byte} {s : State} (h : s.Streamed base) :
    (mapEffect binary64 s).Streamed base := by
  obtain ⟨hout, hacc⟩ := h
  constructor <;> simpa only [mapEffect_out, mapEffect_size, mapEffect_outcnt, mapEffect_byteAcc, mapEffect_x,
    mapEffect_y]

theorem iterateEffect_streamed {base : List Byte} {s : State} (h : s.Streamed base) :
    (iterateEffect binary64 s).Streamed base := by
  obtain ⟨hout, hacc⟩ := h
  constructor <;> simpa only [iterateEffect_out, iterateEffect_size, iterateEffect_outcnt, iterateEffect_byteAcc,
    iterateEffect_x, iterateEffect_y]

/-- R134: with the pixel's membership in `M`, the accumulator with its bit holds one column more. -/
theorem pushedAcc_eq {base : List Byte} {s : State} (hat : s.AtColumn) (h : s.Streamed base)
    (hm : s.m = (pixel s.size s.x.toNat s.y.toNat).m) :
    pushedAcc s = byteUpTo s.size s.y.toNat (s.x.toNat / 8) (s.x.toNat + 1) := by
  rw [byteUpTo_succ, pushedAcc, ← hm, h.acc_eq, hat.bit_eq]

theorem pushEffect_streamed {base : List Byte} {s : State} (hat : s.AtColumn) (hx : s.x.toNat < s.size.toNat)
    (h : s.Streamed base) (hm : s.m = (pixel s.size s.x.toNat s.y.toNat).m) : (pushEffect s).Streamed base := by
  have hx' := toNat_succ_dim hx
  have hpushed := pushedAcc_eq hat h hm
  have hlast := hat.bit_eq_one_iff
  by_cases hbit : s.bit = 1
  · have hcol := hlast.1 hbit
    have hwhole : pushedAcc s = rowByte s.size s.y.toNat (s.x.toNat / 8) :=
      hpushed.trans (byteUpTo_of_ge (by omega) hx)
    refine ⟨?_, ?_⟩
    · rw [pushEffect_out, pushEffect_size, pushEffect_outcnt, if_pos hbit, if_pos hbit, hat.outcnt_succ_toNat]
      refine append_next_byte h.out_eq ?_
      rw [hat.outcnt_eq, hwhole]
      exact imageBytes_getElem?_row hat.y_lt (by unfold rowLength; omega)
    · rw [pushEffect_byteAcc, if_pos hbit, pushEffect_size, pushEffect_x, pushEffect_y, hx']
      exact (byteUpTo_of_le (by omega)).symm
  · have hcol := mt hlast.2 hbit
    refine ⟨?_, ?_⟩
    · rw [pushEffect_out, pushEffect_size, pushEffect_outcnt, if_neg hbit, if_neg hbit]
      exact h.out_eq
    · rw [pushEffect_byteAcc, if_neg hbit, pushEffect_size, pushEffect_x, pushEffect_y, hx', hpushed,
        show (s.x.toNat + 1) / 8 = s.x.toNat / 8 by omega]

theorem rowendEffect_streamed {base : List Byte} {s : State} (hat : s.AtColumn) (hx : s.x = s.size)
    (h : s.Streamed base) : (rowendEffect s).Streamed base := by
  have hwhole := hat.bit_eq_bitInit_iff hx
  refine ⟨?_, ?_⟩
  · rw [rowendEffect_out, rowendEffect_size, rowendEffect_outcnt]
    by_cases hbit : s.bit = Config.bitInit
    · rw [if_pos hbit, if_pos hbit]
      exact h.out_eq
    · have hrest := mt hwhole.2 hbit
      rw [if_neg hbit, if_neg hbit, hat.outcnt_succ_toNat]
      refine append_next_byte h.out_eq ?_
      rw [hat.outcnt_eq, h.acc_eq, hx]
      exact imageBytes_getElem?_row hat.y_lt (by unfold rowLength; omega)
  · rw [rowendEffect_byteAcc, rowendEffect_x]
    exact (byteUpTo_of_le (Nat.zero_le _)).symm

/-! ### The evaluator stands where `EVAL` stands (R109) -/

theorem pixelOk_of_seq {s : State} (hi : s.seq ≠ Seq.iterate) (hp : s.seq ≠ Seq.push) : s.PixelOk :=
  fun _ => ⟨fun h => absurd h hi, fun h => absurd h hp⟩

theorem mapEffect_pixelOk (s : State) : (mapEffect binary64 s).PixelOk := by
  refine fun _ => ⟨fun _ => ?_, fun h => ?_⟩
  · simp only [mapEffect_cRe, mapEffect_cIm, mapEffect_x, mapEffect_y, mapEffect_size, mapEffect_zRe, mapEffect_zIm,
      mapEffect_iter, mapEffect_m]
    exact ⟨trivial, rfl, trivial, fun k h1 h0 => absurd (h1.trans h0) (by decide)⟩
  · rw [mapEffect_seq] at h
    simp at h

/-- What an iteration computes is the orbit's next iterate. -/
theorem stepZ_of_orbit {s : State} {c : F64 × F64} (hc : (s.cRe, s.cIm) = c)
    (hz : (s.zRe, s.zIm) = orbit binary64 c s.iter.toNat) :
    stepZ binary64 (s.zRe, s.zIm) (s.cRe, s.cIm) = orbit binary64 c (s.iter.toNat + 1) := by
  rw [hc, hz, orbit_succ]

/-- The facts of R109 about a state about to iterate, by the orbit of the pixel's point. -/
theorem State.PixelOk.at_iterate {s : State} (h : s.PixelOk) (ha : s.active = true) (hseq : s.seq = Seq.iterate) :
    let c := mapC binary64 s.x.toNat s.y.toNat s.size.toNat
    (s.cRe, s.cIm) = c ∧ (s.zRe, s.zIm) = orbit binary64 c s.iter.toNat ∧ s.m = false ∧
      NoEscape binary64 c s.iter.toNat := by
  obtain ⟨hc, hz, hm, hno⟩ := (h ha).1 hseq
  rw [hc] at hz hno
  exact ⟨hc, hz, hm, hno⟩

/-- What the iteration that ends a pixel leaves is what `EVAL` returns, with the membership that `ITERATE` writes. -/
theorem pixel_of_last_iteration {n : Dim} {x y i : Nat} {m : Bool} (hi : i < 50)
    (hno : NoEscape binary64 (mapC binary64 x y n.toNat) i)
    (hend : escaped binary64 (orbit binary64 (mapC binary64 x y n.toNat) (i + 1)) = true ∨ i + 1 = 50) :
    (⟨if escaped binary64 (orbit binary64 (mapC binary64 x y n.toNat) (i + 1)) = true then false
        else if i + 1 = 50 then true else m,
      i + 1, orbit binary64 (mapC binary64 x y n.toNat) (i + 1)⟩ : PixelResult) = pixel n x y := by
  rw [pixel_eq]
  cases he : escaped binary64 (orbit binary64 (mapC binary64 x y n.toNat) (i + 1)) with
  | true =>
    rw [evalPixel_of_escaped binary64 hno hi he]
    rfl
  | false =>
    have hlast : i + 1 = 50 := hend.resolve_left (by simp [he])
    have hno' := noEscape_succ binary64 hno he
    rw [hlast] at hno' ⊢
    rw [evalPixel_of_last binary64 hno']
    rfl

theorem iterateEffect_pixelOk {s : State} (ha : s.active = true) (hseq : s.seq = Seq.iterate)
    (hiter : s.iter.toNat < 50) (h : s.PixelOk) : (iterateEffect binary64 s).PixelOk := by
  obtain ⟨hc, hz, hm, hno⟩ := h.at_iterate ha hseq
  have hstep := stepZ_of_orbit hc hz
  have hcount : (fit 6 (s.iter.toNat + 1)).toNat = s.iter.toNat + 1 := fit_toNat (by omega)
  refine fun _ => ⟨fun hnext => ?_, fun hnext => ?_⟩ <;>
    rw [iterateEffect_seq, hstep] at hnext <;>
    simp only [iterateEffect_cRe, iterateEffect_cIm, iterateEffect_x, iterateEffect_y, iterateEffect_size,
      iterateEffect_zRe, iterateEffect_zIm, iterateEffect_iter, iterateEffect_m, hcount, hstep, Prod.mk.eta]
  · have hgo : ¬ (escaped binary64 (orbit binary64 _ (s.iter.toNat + 1)) = true ∨ s.iter.toNat + 1 = Config.maxIter) :=
      fun hend => by rw [if_pos hend] at hnext; simp at hnext
    rw [not_or, Bool.not_eq_true] at hgo
    rw [hc, hgo.1, if_neg (by simp), if_neg hgo.2]
    exact ⟨rfl, rfl, hm, noEscape_succ binary64 hno hgo.1⟩
  · refine pixel_of_last_iteration hiter hno ?_
    by_contra hgo
    rw [if_neg hgo] at hnext
    simp at hnext

theorem microEffect_pixelOk {s : State} {i : Instr} (hi : decodeSeq s.seq = .ok i) (ha : s.active = true)
    (hiter : s.IterOk) (h : s.PixelOk) : (microEffect i s).PixelOk := by
  obtain ⟨hseq, rfl⟩ | ⟨hseq, rfl⟩ | ⟨hseq, rfl⟩ | ⟨hseq, rfl⟩ | ⟨hseq, rfl⟩ := decodeSeq_cases hi <;>
    simp only [microEffect]
  · refine pixelOk_of_seq ?_ ?_ <;> rw [hdrEffect_seq] <;> split <;> simp [hseq]
  · exact mapEffect_pixelOk s
  · exact iterateEffect_pixelOk ha hseq ((hiter ha).2.2 hseq) h
  · refine pixelOk_of_seq ?_ ?_ <;> rw [pushEffect_seq] <;> split <;> simp
  · refine pixelOk_of_seq ?_ ?_ <;> rw [rowendEffect_seq] <;> split <;> simp [hseq]

/-- R109 at `PUSH`: `M` holds the pixel's membership. -/
theorem State.PixelOk.m_eq {s : State} (h : s.PixelOk) (ha : s.active = true) (hseq : s.seq = Seq.push) :
    s.m = (pixel s.size s.x.toNat s.y.toNat).m :=
  congrArg PixelResult.m ((h ha).2 hseq)

theorem microEffect_streamed {base : List Byte} {s : State} {i : Instr} (hi : decodeSeq s.seq = .ok i)
    (ha : s.active = true) (hplaced : s.Placed) (hpixel : s.PixelOk) (h : s.Streamed base) :
    (microEffect i s).Streamed base := by
  obtain ⟨hseq, rfl⟩ | ⟨hseq, rfl⟩ | ⟨hseq, rfl⟩ | ⟨hseq, rfl⟩ | ⟨hseq, rfl⟩ := decodeSeq_cases hi
  · exact hdrEffect_streamed ((placed_of_header ha hseq).1 hplaced) h
  · exact mapEffect_streamed h
  · exact iterateEffect_streamed h
  · obtain ⟨hat, hx⟩ := (placed_of_onPixel ha (.inr (.inr hseq))).1 hplaced
    exact pushEffect_streamed hat hx h (hpixel.m_eq ha hseq)
  · obtain ⟨hat, hx⟩ := (placed_of_rowend ha hseq).1 hplaced
    exact rowendEffect_streamed hat hx h

/-! ### A start establishes the run's invariant (R201) -/

theorem initRun_runInv {s : State} {p : Code3} (hp : p = Phase.run ∨ p = Phase.halt) (hsize : s.size ≠ 0) :
    (s.initRun p).RunInv s.out := by
  have ha : (s.initRun p).active = true := active_of_run_or_halt hp rfl
  have hcodes : (s.initRun p).CodesLegal := by
    refine ⟨?_, by simp, by simp, by simp⟩
    rcases hp with rfl | rfl <;> simp
  have hplaced := initRun_placed hp hsize
  refine ⟨(inv_iff _).2 ⟨hcodes, hplaced, initRun_iterOk s p⟩, pixelOk_of_seq (by simp) (by simp),
    (streamOk_iff ha (by simp) hplaced).2 ⟨?_, ?_⟩⟩
  · simp
  · exact (byteUpTo_of_le (Nat.zero_le _)).symm

/-- Settles O55: both starts answer `INIT_RUN` of their state. -/
theorem runInvariantAtStart : Obligations.RunInvariantAtStart := by
  intro s hphase hsize t ht
  have hn : s.noRun = true := (s.noRun_iff).2 hphase
  rcases ht with ht | ht
  · rw [exec_of_start (i := .start) rfl hn rfl hn hsize] at ht
    cases ht
    exact initRun_runInv (.inl rfl) hsize
  · rw [exec_of_start (i := .startstep) rfl hn rfl hn hsize] at ht
    cases ht
    exact initRun_runInv (.inr rfl) hsize

/-! ### Every event of a run keeps it -/

/-- What can happen to an active run in one step: nothing, a change of phase, a micro-step, or reset. -/
theorem step_active_cases {s t : State} (ha : s.active = true) (hs : step s = .next t) :
    (∃ c r es rs, t = s.around c r es rs) ∨
    (∃ p sp, (p = Phase.run ∨ p = Phase.halt) ∧ t = { s.takeTurn with phase := p, spend := sp }) ∨
    (∃ i, decodeSeq s.seq = .ok i ∧ t = s.takeTurn.endMicro (microEffect i s.takeTurn)) ∨
    t = s.takeTurn.applyReset := by
  obtain h | ⟨hoff, -⟩ | ⟨hn, -⟩ | ⟨-, h⟩ | ⟨i, hi, -, h⟩ | h := step_run_cases hs
  · exact .inl h
  · simp [ha] at hoff
  · simp [State.not_active_of_noRun hn] at ha
  · exact .inr (.inl h)
  · exact .inr (.inr (.inl ⟨i, hi, h⟩))
  · exact .inr (.inr (.inr h))

theorem endMicro_pixelOk_iff (s t : State) : (s.endMicro t).PixelOk ↔ t.PixelOk := by
  unfold State.endMicro
  split <;> exact Iff.rfl

theorem endMicro_streamed_iff (base : List Byte) (s t : State) : (s.endMicro t).Streamed base ↔ t.Streamed base := by
  unfold State.endMicro
  split <;> exact ⟨fun h => ⟨h.out_eq, h.acc_eq⟩, fun h => ⟨h.out_eq, h.acc_eq⟩⟩

/-- The run's invariant, with the stream in its one form. -/
theorem runInv_iff {base : List Byte} {s : State} (ha : s.active = true) :
    s.RunInv base ↔ s.Inv ∧ s.PixelOk ∧ s.Streamed base := by
  refine and_congr_right fun hinv => and_congr_right fun _ => ?_
  obtain ⟨⟨-, hseq, -⟩, hplaced, -⟩ := (inv_iff s).1 hinv
  exact streamOk_iff ha hseq hplaced

theorem endMicro_runInv {base : List Byte} {s : State} {i : Instr} (hi : decodeSeq s.seq = .ok i)
    (ha : s.active = true) (h : s.RunInv base) :
    (s.endMicro (microEffect i s)).PixelOk ∧ (s.endMicro (microEffect i s)).Streamed base := by
  obtain ⟨hinv, hpixel, hstream⟩ := (runInv_iff ha).1 h
  obtain ⟨-, hplaced, hiter⟩ := (inv_iff s).1 hinv
  rw [endMicro_pixelOk_iff, endMicro_streamed_iff]
  exact ⟨microEffect_pixelOk hi ha hiter hpixel, microEffect_streamed hi ha hplaced hpixel hstream⟩

/-- Settles O56: the invariants by O52, evaluator and stream by the micro-steps. -/
theorem runInvariantKept : Obligations.RunInvariantKept := by
  intro base s t h ha hs ha'
  have hinv : t.Inv := invariantsKept s t h.1 hs
  obtain ⟨c, r, es, rs, rfl⟩ | ⟨p, sp, -, rfl⟩ | ⟨i, hi, rfl⟩ | rfl := step_active_cases ha hs
  · exact h
  · obtain ⟨-, hpixel, hstream⟩ := h
    exact ⟨hinv, fun _ => hpixel ha, fun _ => hstream ha⟩
  · exact (runInv_iff ha').2 ⟨hinv, endMicro_runInv (s := s.takeTurn) hi ha h⟩
  · simp [State.active, State.reset] at ha'

/-! ### The end of the run (R141) -/

/-- Only `ROWEND` of the last row ends a run. -/
theorem last_rowend_of_done {s : State} {i : Instr} (hi : decodeSeq s.seq = .ok i) (ha : s.active = true)
    (h : (microEffect i s).phase = Phase.done) :
    s.seq = Seq.rowend ∧ i = .rowend ∧ s.y.toNat + 1 = s.size.toNat := by
  have hne : s.phase ≠ Phase.done := fun hd => by simp [State.active, hd] at ha
  obtain hkeep | ⟨rfl, -⟩ := microEffect_phase i s
  · exact absurd (hkeep.symm.trans h) hne
  · refine ⟨seq_eq_of_encode hi rfl, rfl, ?_⟩
    by_contra hlast
    rw [microEffect, rowendEffect_phase, if_neg hlast] at h
    exact hne h

/-- The last `ROWEND` leaves the whole output. -/
theorem rowendEffect_whole {base : List Byte} {s : State} (hat : s.AtColumn) (hx : s.x = s.size)
    (hlast : s.y.toNat + 1 = s.size.toNat) (h : s.Streamed base) :
    (rowendEffect s).out = base ++ imageBytes s.size ∧
      (rowendEffect s).outcnt.toNat = (imageBytes s.size).length ∧ (rowendEffect s).x = 0 ∧
      (rowendEffect s).y = s.size := by
  have hcount : (rowendEffect s).outcnt.toNat = (imageBytes s.size).length := by
    rw [rowendEffect_outcnt_toNat hat hx, hlast, imageBytes_length]
  refine ⟨?_, hcount, rowendEffect_x s, BitVec.eq_of_toNat_eq ?_⟩
  · rw [(rowendEffect_streamed hat hx h).out_eq, hcount, rowendEffect_size, List.take_length]
  · rw [rowendEffect_y, toNat_succ_dim hat.y_lt, hlast]

/-- Settles O57: the step is the last `ROWEND`, and its output count is the length of the whole output. -/
theorem finishedRunAppendedWholeImage : Obligations.FinishedRunAppendedWholeImage := by
  intro base s t h ha hs hdone
  obtain ⟨c, r, es, rs, rfl⟩ | ⟨p, sp, hp, rfl⟩ | ⟨i, hi, rfl⟩ | rfl := step_active_cases ha hs
  · have hdone' : s.phase = Phase.done := hdone
    simp [State.active, hdone'] at ha
  · have hdone' : p = Phase.done := hdone
    simp [hdone'] at hp
  · rw [State.endMicro_phase] at hdone
    obtain ⟨hseq, rfl, hlast⟩ := last_rowend_of_done (s := s.takeTurn) hi ha hdone
    obtain ⟨hinv, -, hstream⟩ := (runInv_iff ha).1 h
    obtain ⟨-, hplaced, -⟩ := (inv_iff s).1 hinv
    obtain ⟨hat, hx⟩ := (placed_of_rowend ha hseq).1 hplaced
    rw [State.endMicro_out, State.endMicro_outcnt, State.endMicro_x, State.endMicro_y]
    exact rowendEffect_whole (s := s.takeTurn) ⟨hat.y_lt, hat.hidx_eq, hat.bit_eq, hat.acc_clear, hat.outcnt_eq⟩ hx
      hlast ⟨hstream.out_eq, hstream.acc_eq⟩
  · simp [State.reset] at hdone

end Sys2Proof.Machine
end

section
/-! R169: how many micro-steps a run has still to perform, by where it stands. With the host quiet and the sink ready every
step is a micro-step and takes one off, so a started run ends after exactly `N(SIZE)`. -/

namespace Sys2Proof.Machine

/-! ### What is still to do -/

/-- The micro-steps of row `y` from column `x` on: `MAP`, `k` times `ITERATE` and `PUSH` for each pixel. -/
def rowRest (n : Dim) (y x : Nat) : Nat := ∑ x' ∈ Finset.Ico x n.toNat, (2 + (pixel n x' y).k)

/-- The micro-steps from row `y` on, each row with its `ROWEND`. -/
def imageRest (n : Dim) (y : Nat) : Nat := ∑ y' ∈ Finset.Ico y n.toNat, (rowRest n y' 0 + 1)

/-- The micro-steps from column `x` of the current row on. -/
def State.restFrom (s : State) (x : Nat) : Nat :=
  rowRest s.size s.y.toNat x + 1 + imageRest s.size (s.y.toNat + 1)

/-- The micro-steps that an active run has still to perform. -/
def State.remaining (s : State) : Nat :=
  if s.seq = Seq.hdr then (headerBytes s.size).length - s.hidx.toNat + imageRest s.size 0
  else if s.seq = Seq.map then s.restFrom s.x.toNat
  else if s.seq = Seq.iterate then
    (pixel s.size s.x.toNat s.y.toNat).k - s.iter.toNat + 1 + s.restFrom (s.x.toNat + 1)
  else if s.seq = Seq.push then 1 + s.restFrom (s.x.toNat + 1)
  else 1 + imageRest s.size (s.y.toNat + 1)

theorem State.remaining_of_hdr {s : State} (h : s.seq = Seq.hdr) :
    s.remaining = (headerBytes s.size).length - s.hidx.toNat + imageRest s.size 0 := by
  simp [State.remaining, h]

theorem State.remaining_of_map {s : State} (h : s.seq = Seq.map) : s.remaining = s.restFrom s.x.toNat := by
  simp [State.remaining, h]

theorem State.remaining_of_iterate {s : State} (h : s.seq = Seq.iterate) :
    s.remaining = (pixel s.size s.x.toNat s.y.toNat).k - s.iter.toNat + 1 + s.restFrom (s.x.toNat + 1) := by
  simp [State.remaining, h]

theorem State.remaining_of_push {s : State} (h : s.seq = Seq.push) :
    s.remaining = 1 + s.restFrom (s.x.toNat + 1) := by
  simp [State.remaining, h]

theorem State.remaining_of_rowend {s : State} (h : s.seq = Seq.rowend) :
    s.remaining = 1 + imageRest s.size (s.y.toNat + 1) := by
  simp [State.remaining, h]

theorem rowRest_succ {n : Dim} {x : Nat} (y : Nat) (h : x < n.toNat) :
    rowRest n y x = 2 + (pixel n x y).k + rowRest n y (x + 1) :=
  Finset.sum_eq_sum_Ico_succ_bot h _

theorem rowRest_end (n : Dim) (y : Nat) : rowRest n y n.toNat = 0 := by
  rw [rowRest, Finset.Ico_self, Finset.sum_empty]

theorem imageRest_succ {n : Dim} {y : Nat} (h : y < n.toNat) :
    imageRest n y = rowRest n y 0 + 1 + imageRest n (y + 1) :=
  Finset.sum_eq_sum_Ico_succ_bot h _

theorem imageRest_end (n : Dim) : imageRest n n.toNat = 0 := by
  rw [imageRest, Finset.Ico_self, Finset.sum_empty]

theorem sum_map_range (f : Nat → Nat) (n : Nat) : ((List.range n).map f).sum = ∑ i ∈ Finset.Ico 0 n, f i := by
  rw [← Finset.range_eq_Ico]
  rfl

/-- R169: the whole count is what a run within its header, no byte emitted, has still to do. -/
theorem microCount_eq (n : Dim) : microCount n = (headerBytes n).length + imageRest n 0 := by
  have hrows : imageRest n 0 = (∑ y ∈ Finset.Ico 0 n.toNat, rowRest n y 0) + n.toNat := by
    rw [imageRest, Finset.sum_add_distrib, Finset.sum_const, Nat.card_Ico, smul_eq_mul, Nat.sub_zero, Nat.mul_one]
  simp only [microCount, sum_map_range]
  rw [hrows]
  simp only [rowRest]
  omega

/-! ### Each micro-step takes one off -/

/-- The micro-step that a run performs takes one off, and where none was to follow it ends the run. -/
def TakesOneOff (s t : State) : Prop :=
  (t.phase = s.phase ∧ t.remaining + 1 = s.remaining) ∨ (t.phase = Phase.done ∧ s.remaining = 1)

theorem hdrEffect_takesOneOff {s : State} (hseq : s.seq = Seq.hdr) (hat : s.AtHeader) :
    TakesOneOff s (hdrEffect s) := by
  have hlt := hat.hidx_lt
  refine .inl ⟨hdrEffect_phase s, ?_⟩
  rw [State.remaining_of_hdr hseq]
  by_cases hlast : s.hidx.toNat + 1 = (headerBytes s.size).length
  · have hx : s.x.toNat = 0 := congrArg BitVec.toNat hat.x_eq
    have hy : s.y.toNat = 0 := congrArg BitVec.toNat hat.y_eq
    rw [State.remaining_of_map (by rw [hdrEffect_seq, if_pos hlast]), State.restFrom, hdrEffect_size, hdrEffect_x,
      hdrEffect_y, hx, hy, imageRest_succ hat.size_pos]
    omega
  · rw [State.remaining_of_hdr (by rw [hdrEffect_seq, if_neg hlast, hseq]), hdrEffect_size, hdrEffect_hidx,
      hat.hidx_succ_toNat]
    omega

theorem mapEffect_takesOneOff {s : State} (hseq : s.seq = Seq.map) (hx : s.x.toNat < s.size.toNat) :
    TakesOneOff s (mapEffect binary64 s) := by
  refine .inl ⟨mapEffect_phase _ s, ?_⟩
  rw [State.remaining_of_map hseq, State.remaining_of_iterate (mapEffect_seq _ s), State.restFrom, State.restFrom,
    mapEffect_size, mapEffect_x, mapEffect_y, mapEffect_iter, rowRest_succ s.y.toNat hx]
  generalize pixel s.size s.x.toNat s.y.toNat = r
  change r.k - 0 + 1 + _ + 1 = _
  omega

theorem iterateEffect_takesOneOff {s : State} (ha : s.active = true) (hseq : s.seq = Seq.iterate)
    (hiter : s.iter.toNat < 50) (h : s.PixelOk) : TakesOneOff s (iterateEffect binary64 s) := by
  obtain ⟨hc, hz, hm, hno⟩ := h.at_iterate ha hseq
  have hstep := stepZ_of_orbit hc hz
  have hcount : (fit 6 (s.iter.toNat + 1)).toNat = s.iter.toNat + 1 := fit_toNat (by omega)
  have hk : s.iter.toNat < (pixel s.size s.x.toNat s.y.toNat).k := lt_evalPixel_k binary64 hno hiter
  refine .inl ⟨iterateEffect_phase _ s, ?_⟩
  rw [State.remaining_of_iterate hseq]
  by_cases hend : escaped binary64 (orbit binary64 (mapC binary64 s.x.toNat s.y.toNat s.size.toNat)
      (s.iter.toNat + 1)) = true ∨ s.iter.toNat + 1 = Config.maxIter
  · have hlast : s.iter.toNat + 1 = (pixel s.size s.x.toNat s.y.toNat).k :=
      congrArg PixelResult.k (pixel_of_last_iteration (m := false) hiter hno hend)
    rw [State.remaining_of_push (by rw [iterateEffect_seq, hstep, if_pos hend]), State.restFrom, State.restFrom,
      iterateEffect_size, iterateEffect_x, iterateEffect_y, ← hlast]
    omega
  · rw [State.remaining_of_iterate (by rw [iterateEffect_seq, hstep, if_neg hend]), State.restFrom, State.restFrom,
      iterateEffect_size, iterateEffect_x, iterateEffect_y, iterateEffect_iter, hcount]
    omega

theorem pushEffect_takesOneOff {s : State} (hseq : s.seq = Seq.push) (hx : s.x.toNat < s.size.toNat) :
    TakesOneOff s (pushEffect s) := by
  have hx' := toNat_succ_dim hx
  refine .inl ⟨pushEffect_phase s, ?_⟩
  rw [State.remaining_of_push hseq, State.restFrom]
  by_cases hlast : s.x.toNat + 1 = s.size.toNat
  · rw [State.remaining_of_rowend (by rw [pushEffect_seq, if_pos hlast]), pushEffect_size, pushEffect_y, hlast,
      rowRest_end]
    omega
  · rw [State.remaining_of_map (by rw [pushEffect_seq, if_neg hlast]), State.restFrom, pushEffect_size, pushEffect_x,
      pushEffect_y, hx']
    omega

theorem rowendEffect_takesOneOff {s : State} (hseq : s.seq = Seq.rowend) (hy : s.y.toNat < s.size.toNat) :
    TakesOneOff s (rowendEffect s) := by
  have hy' := toNat_succ_dim hy
  rw [TakesOneOff, State.remaining_of_rowend hseq]
  by_cases hlast : s.y.toNat + 1 = s.size.toNat
  · exact .inr ⟨by rw [rowendEffect_phase, if_pos hlast], by rw [hlast, imageRest_end]⟩
  · refine .inl ⟨by rw [rowendEffect_phase, if_neg hlast], ?_⟩
    have hzero : (0 : Dim).toNat = 0 := rfl
    rw [State.remaining_of_map (by rw [rowendEffect_seq, if_neg hlast]), State.restFrom, rowendEffect_size,
      rowendEffect_x, rowendEffect_y, hy', hzero, imageRest_succ (y := s.y.toNat + 1) (by omega)]
    omega

theorem microEffect_takesOneOff {s : State} {i : Instr} (hi : decodeSeq s.seq = .ok i) (ha : s.active = true)
    (hplaced : s.Placed) (hiter : s.IterOk) (hpixel : s.PixelOk) : TakesOneOff s (microEffect i s) := by
  obtain ⟨hseq, rfl⟩ | ⟨hseq, rfl⟩ | ⟨hseq, rfl⟩ | ⟨hseq, rfl⟩ | ⟨hseq, rfl⟩ := decodeSeq_cases hi
  · exact hdrEffect_takesOneOff hseq ((placed_of_header ha hseq).1 hplaced)
  · exact mapEffect_takesOneOff hseq ((placed_of_onPixel ha (.inl hseq)).1 hplaced).2
  · exact iterateEffect_takesOneOff ha hseq ((hiter ha).2.2 hseq) hpixel
  · exact pushEffect_takesOneOff hseq ((placed_of_onPixel ha (.inr (.inr hseq))).1 hplaced).2
  · exact rowendEffect_takesOneOff hseq ((placed_of_rowend ha hseq).1 hplaced).1.y_lt

theorem endMicro_takesOneOff_iff (s t : State) : TakesOneOff s (s.endMicro t) ↔ TakesOneOff s t := by
  unfold State.endMicro
  split <;> exact Iff.rfl

/-- An active run has at least one micro-step to do. -/
theorem remaining_pos {s : State} (ha : s.active = true) (hseq : s.seq.toNat ≤ 4) (h : s.Placed) :
    0 < s.remaining := by
  obtain ⟨i, hi⟩ := exists_decodeSeq hseq
  obtain ⟨hc, -⟩ | ⟨hc, -⟩ | ⟨hc, -⟩ | ⟨hc, -⟩ | ⟨hc, -⟩ := decodeSeq_cases hi
  · have := ((placed_of_header ha hc).1 h).hidx_lt
    rw [State.remaining_of_hdr hc]
    omega
  · rw [State.remaining_of_map hc, State.restFrom]
    omega
  · rw [State.remaining_of_iterate hc]
    omega
  · rw [State.remaining_of_push hc]
    omega
  · rw [State.remaining_of_rowend hc]
    omega

/-! ### A quiet run -/

/-- A running run with the host quiet and the sink ready. -/
structure State.Quiet (s : State) : Prop where
  phase_eq : s.phase = Phase.run
  events_eq : s.events = []
  ready : s.outReady = true

theorem State.Quiet.active {s : State} (h : s.Quiet) : s.active = true := (s.active_iff).2 (.inl h.phase_eq)

@[simp] theorem microEffect_events (i : Instr) (s : State) : (microEffect i s).events = s.events := by
  cases i <;> simp [microEffect]

/-- The step of a quiet run, with what it leaves alone. -/
theorem quiet_step {base : List Byte} {s : State} (hq : s.Quiet) (h : s.RunInv base) :
    ∃ t, step s = .next t ∧ TakesOneOff s t ∧ t.size = s.size ∧ t.cerr = s.cerr ∧ t.events = [] ∧ t.outReady = true ∧
      (t.phase = Phase.done → t.seq = Seq.rowend) := by
  have ha := hq.active
  obtain ⟨hinv, hpixel, -⟩ := h
  obtain ⟨⟨-, hseq, -⟩, hplaced, hiter⟩ := (inv_iff s).1 hinv
  obtain ⟨i, hi⟩ := exists_decodeSeq hseq
  refine ⟨_, step_of_quiet hq.events_eq hi (enabled_of_runs (.inl hq.phase_eq) fun _ => hq.ready),
    (endMicro_takesOneOff_iff s _).2 (microEffect_takesOneOff hi ha hplaced hiter hpixel), ?_, ?_, ?_, ?_, ?_⟩
  · rw [State.endMicro_size, microEffect_size]
  · rw [State.endMicro_cerr, microEffect_cerr]
  · rw [State.endMicro_events, microEffect_events, hq.events_eq]
  · rw [State.endMicro_outReady, microEffect_outReady, hq.ready]
  · intro hdone
    rw [State.endMicro_phase] at hdone
    obtain ⟨hc, rfl, hlast⟩ := last_rowend_of_done hi ha hdone
    rw [State.endMicro_seq, microEffect, rowendEffect_seq, if_pos hlast, hc]

/-- A quiet run with `n + 1` micro-steps to do is in `RUN` for `n` of them and ends with the last, the output whole. -/
theorem quiet_run_completes {base : List Byte} {n : Nat} {s : State} (hq : s.Quiet) (h : s.RunInv base)
    (hn : s.remaining = n + 1) :
    (∀ j, j ≤ n → ∃ u, StepsTo j s u ∧ u.phase = Phase.run) ∧
    ∃ u, StepsTo (n + 1) s u ∧ u.phase = Phase.done ∧ u.seq = Seq.rowend ∧ u.out = base ++ imageBytes s.size ∧
      u.size = s.size ∧ u.cerr = s.cerr := by
  induction n generalizing s with
  | zero =>
    obtain ⟨t, hs, hone, hsize, hcerr, -, -, hrow⟩ := quiet_step hq h
    have hdone : t.phase = Phase.done := by
      obtain ⟨hphase, hrest⟩ | ⟨hdone, -⟩ := hone
      · have hat : t.active = true := (active_congr hphase).trans hq.active
        obtain ⟨⟨-, hseq, -⟩, hplaced, -⟩ := (inv_iff t).1 (invariantsKept s t h.1 hs)
        have := remaining_pos hat hseq hplaced
        omega
      · exact hdone
    refine ⟨fun j hj => ?_, t, .single hs, hdone, hrow hdone, ?_, hsize, hcerr⟩
    · obtain rfl : j = 0 := by omega
      exact ⟨s, .refl s, hq.phase_eq⟩
    · exact (finishedRunAppendedWholeImage base s t h hq.active hs hdone).1
  | succ n ih =>
    obtain ⟨t, hs, hone, hsize, hcerr, hevents, hready, -⟩ := quiet_step hq h
    obtain ⟨hphase, hrest⟩ : t.phase = s.phase ∧ t.remaining + 1 = s.remaining :=
      hone.resolve_right fun ⟨_, hlast⟩ => by omega
    have hqt : t.Quiet := ⟨hphase.trans hq.phase_eq, hevents, hready⟩
    obtain ⟨hruns, u, hsteps, hdone, hseq, hout, husize, hucerr⟩ :=
      ih hqt (runInvariantKept base s t h hq.active hs hqt.active) (by omega)
    refine ⟨fun j hj => ?_, u, .head hs hsteps, hdone, hseq, hsize ▸ hout, husize.trans hsize, hucerr.trans hcerr⟩
    cases j with
    | zero => exact ⟨s, .refl s, hq.phase_eq⟩
    | succ j =>
      obtain ⟨v, hv, hrun⟩ := hruns j (by omega)
      exact ⟨v, .head hs hv, hrun⟩

/-- Settles O58: the started run is quiet, has the run's invariant, and has `N(SIZE)` micro-steps to do. -/
theorem startedRunCompletes : Obligations.StartedRunCompletes := by
  intro s t hphase hsize hevents hready ht
  have hinv := runInvariantAtStart s hphase hsize t (.inl ht)
  rw [exec_of_start (i := .start) rfl ((s.noRun_iff).2 hphase) rfl ((s.noRun_iff).2 hphase) hsize] at ht
  cases ht
  have hq : (s.initRun Phase.run).Quiet := ⟨rfl, hevents, hready⟩
  have hcount : (s.initRun Phase.run).remaining = microCount s.size := by
    rw [State.remaining_of_hdr rfl, microCount_eq]
    rfl
  have hlen := headerBytes_length hsize
  have hpos : 0 < microCount s.size := by
    rw [microCount_eq]
    omega
  obtain ⟨n, hn⟩ : ∃ n, microCount s.size = n + 1 := ⟨_, (Nat.succ_pred_eq_of_pos hpos).symm⟩
  obtain ⟨hruns, u, hsteps, hdone, hseq, hout, husize, hucerr⟩ := quiet_run_completes hq hinv (hcount.trans hn)
  rw [hn]
  refine ⟨fun j hj => ?_, u, hsteps.run, hdone, hseq, hout, husize, hucerr⟩
  obtain ⟨v, hv, hrun⟩ := hruns j (by omega)
  exact ⟨v, hv.run, hrun⟩

end Sys2Proof.Machine
end
